-- ==== Sys2Proof/Word.lean ====
section
/-! DEFINITION. The words and bytes of the engine, and the two groups of eight words it works on. -/

namespace Sys2Proof

/-- A word is 32 bits unsigned (00_scope.md R21). -/
abbrev Word := BitVec 32

/-- A byte of a message, of a digest or of host memory. -/
abbrev Byte := BitVec 8

/-- A 64-bit register pair `NAME_HI || NAME_LO` (10_state.md R30). -/
abbrev DWord := BitVec 64

/-- HashState, the eight words `V[0..7]` (10_state.md R47). -/
structure HashState where
  v0 : Word
  v1 : Word
  v2 : Word
  v3 : Word
  v4 : Word
  v5 : Word
  v6 : Word
  v7 : Word
  deriving DecidableEq, Repr

/-- The working words `A .. H` of a compression path (10_state.md R48). -/
structure Working where
  a : Word
  b : Word
  c : Word
  d : Word
  e : Word
  f : Word
  g : Word
  h : Word
  deriving DecidableEq, Repr

/-- The low half of a register pair (10_state.md R30). -/
def lo (x : DWord) : Word := x.extractLsb' 0 32

/-- The high half of a register pair (10_state.md R30). -/
def hi (x : DWord) : Word := x.extractLsb' 32 32

end Sys2Proof
end

