-- ==== Sys2Proof/Syntax.lean ====
section
/-! DEFINITION. The commands of the engine, the raw command word, the register names and the host's side of the
interface (30_encoding.md R110 to R112, R116, R117). -/

namespace Sys2Proof

/-- The nine commands of spec/opcode_table.json (30_encoding.md R111). No command has an operand field: every
operand is an argument register as it stands at accept (R112). -/
inductive Instr where
  | init
  | compress
  | expand
  | pad
  | toDigest
  | fromDigest
  | hash
  | hashContinue
  | hashBatch
  deriving DecidableEq, Repr

/-- A command word split into its two fields (30_encoding.md R110). -/
structure CommandWord where
  /-- bits [31:8], must be 0 -/
  rsvd   : BitVec 24
  /-- bits [7:0], selects the command -/
  opcode : BitVec 8
  deriving DecidableEq, Repr

/-- The registers of the window (10_state.md R30 and the rules R31 to R45). -/
inductive Reg where
  | id
  | cap
  | ctrl
  | cmd
  | status
  | irqStatus
  | resultLo
  | resultHi
  | srcLo
  | srcHi
  | dstLo
  | dstHi
  | lenLo
  | lenHi
  | priorLo
  | priorHi
  | workers
  | faultAddrLo
  | faultAddrHi
  | faultIndexLo
  | faultIndexHi
  | state (k : Fin 8)
  deriving DecidableEq, Repr

/-- One thing the host, or the platform's reset input, does to the engine and to host memory.
`rd` and `wr` are the 32-bit accesses of 30_encoding.md R116 at `REG_BASE + offset`; `load` and `store` are the
host's accesses to host memory, as byte strings (`store` is the `mem` line of R116); `wait` is the polling loop of
R117; `hardReset` is the platform's reset input (70_reset_and_hazards.md R340). -/
inductive HostAction where
  | rd (offset : BitVec 12)
  | wr (offset : BitVec 12) (value : Word)
  | load (addr : DWord) (count : Nat)
  | store (addr : DWord) (bytes : List Byte)
  | wait
  | hardReset
  deriving DecidableEq, Repr

end Sys2Proof
end

