-- ==== Sys2Proof/WellFormed.lean ====
section
/-! DEFINITION. Which command words are well formed. The nine constructors of `Instr` have no fields, so every
`Instr` is well formed; the checks are on the raw word (30_encoding.md R111, R114). -/

namespace Sys2Proof

/-- The reserved bits are 0 (30_encoding.md R110). -/
def CommandWord.reservedClear (c : CommandWord) : Bool := c.rsvd == 0#24

/-- The opcode is not the reserved 0x00 (30_encoding.md R111). -/
def CommandWord.opcodeNotZero (c : CommandWord) : Bool := c.opcode != 0x00#8

/-- The opcode is not one of the reserved 0x0A .. 0xFF (30_encoding.md R111). -/
def CommandWord.opcodeInMap (c : CommandWord) : Bool := decide (c.opcode ≤ 0x09#8)

/-- A word selects a command exactly when `RSVD = 0` and `OPCODE` is in 0x01..0x09 (30_encoding.md R111). -/
def CommandWord.wellFormed (c : CommandWord) : Bool :=
  c.reservedClear && c.opcodeNotZero && c.opcodeInMap

end Sys2Proof
end

