-- ==== Sys2Proof/Decode.lean ====
section
/-! DEFINITION. The decoder, total on every 32-bit word, and the encoder (30_encoding.md R110, R111, R114). -/

namespace Sys2Proof

/-- Why a word is no command (30_encoding.md R114). -/
inductive DecodeReject where
  /-- `RSVD != 0` -/
  | reservedBits
  /-- `OPCODE` is 0x00 or in 0x0A..0xFF -/
  | reservedOpcode
  deriving DecidableEq, Repr

/-- What a word decodes to. -/
inductive Decoded where
  | command (i : Instr)
  | illegal (why : DecodeReject)
  deriving DecidableEq, Repr

/-- The fields of a command word (30_encoding.md R110). -/
def splitWord (w : Word) : CommandWord where
  rsvd   := w.extractLsb' 8 24
  opcode := w.extractLsb' 0 8

/-- The opcode map of 30_encoding.md R111. -/
def opcodeMap : List (BitVec 8 × Instr) :=
  [(0x01#8, .init), (0x02#8, .compress), (0x03#8, .expand), (0x04#8, .pad), (0x05#8, .toDigest),
   (0x06#8, .fromDigest), (0x07#8, .hash), (0x08#8, .hashContinue), (0x09#8, .hashBatch)]

/-- The command an opcode selects, if any (30_encoding.md R111). -/
def commandOfOpcode (op : BitVec 8) : Option Instr :=
  (opcodeMap.find? fun row => row.1 == op).map (·.2)

/-- The decoder (30_encoding.md R111, R114): every word that is not one of the nine is rejected, by name. -/
def decode (w : Word) : Decoded :=
  let c := splitWord w
  if c.rsvd = 0#24 then
    match commandOfOpcode c.opcode with
    | some i => .command i
    | none   => .illegal .reservedOpcode
  else .illegal .reservedBits

/-- The command of a decoding, if it is one. -/
def Decoded.instr? : Decoded → Option Instr
  | .command i => some i
  | .illegal _ => none

/-- The decoder on an opcode-table word. A command word is 32 bits; a number that needs more bits is no command
word. -/
def decodeTableWord (nbits w : Nat) : Option Instr :=
  if w < 2 ^ 32 ∧ nbits ≤ 32 then (decode (BitVec.ofNat 32 w)).instr? else none

/-- The opcode of a command (30_encoding.md R111). -/
def opcodeOf : Instr → BitVec 8
  | .init         => 0x01#8
  | .compress     => 0x02#8
  | .expand       => 0x03#8
  | .pad          => 0x04#8
  | .toDigest     => 0x05#8
  | .fromDigest   => 0x06#8
  | .hash         => 0x07#8
  | .hashContinue => 0x08#8
  | .hashBatch    => 0x09#8

/-- The encoder: the word is `0x000000 || OPCODE` (30_encoding.md R111). -/
def encode (i : Instr) : Word := 0x000000#24 ++ opcodeOf i

end Sys2Proof
end

