-- ==== Sys2Proof/Config.lean ====
section
/-! DEFINITION. What the platform fixes (the spec's parameters) and the values the spec leaves free. -/

namespace Sys2Proof.Config

/-- The kinds of a memory request (20_memory.md R80). -/
inductive RequestKind where
  | read
  | write
  deriving DecidableEq, Repr

/-- The bytes at `lo .. lo + len - 1`, computed exactly. -/
structure Region where
  lo  : Nat
  len : Nat
  deriving DecidableEq, Repr

/-- One entry of what `MEM` does not admit (20_memory.md R80, R85): one exact request, or every request of a
kind that touches a region. Requests are finitely many, so a list of entries can write out any admission
predicate (log entry 8). -/
inductive Denial where
  | request (kind : RequestKind) (addr len : Nat)
  | touching (kind : RequestKind) (region : Region)
  deriving DecidableEq, Repr

/-- Which host interrupt input `irq` drives, and at what priority (60_exceptions.md R307). -/
structure IrqLine where
  input    : Nat
  priority : Nat
  deriving DecidableEq, Repr

/-- The parameters a model takes (00_scope.md R15, R17; 92_eei_decisions.md, parameters left open). -/
structure Params where
  /-- `NLANES - 1`, so that `1 ≤ NLANES ≤ 255` holds by the type (R15). -/
  lanesMinusOne : Fin 255
  /-- `REG_BASE / 4096`: `REG_BASE` is any 4 KiB-aligned host address (R17). -/
  regPage       : BitVec 52
  /-- What `MEM.admits` refuses (20_memory.md R85). -/
  denied        : List Denial
  /-- Host memory that is not plain: a read there has side effects (20_memory.md R88). -/
  notPlain      : List Region
  /-- The platform's interrupt input (60_exceptions.md R307). -/
  irqLine       : IrqLine
  deriving DecidableEq, Repr

/-- DESIGN CHOICE (log entry 3, unsafe for statements about `State.reset` alone): the parameters of the state
after reset are those of 95_test_vectors.md section 3, `NLANES = 4` with every address admitted, and a window in
the topmost page, of which the spec says nothing. -/
def params : Params where
  lanesMinusOne := 3
  regPage       := 0xFFFFFFFFFFFFF#52
  denied        := []
  notPlain      := []
  irqLine       := { input := 0, priority := 0 }

/-- FREE VALUE (log entry 2, safe): which of several enabled agents moves, once `State.schedule` is used up
(43_batch.md R270). The argument is `State.tick`. -/
opaque freeChoice : Nat → Nat

/-- FREE VALUE (log entry 16, safe): how many turns the host can get before the engine's next step is taken. Any number,
but a finite one: "within finite time" (70_reset_and_hazards.md R351). The argument is `State.tick`. -/
opaque freePatience : Nat → Nat

/-- FREE VALUE (log entry 7, safe): a destination byte of a command that a reset abandoned
(70_reset_and_hazards.md R342). The arguments are `State.tick` and the byte's address. -/
opaque freeByte : Nat → Nat → Byte

/-- FREE VALUE (log entry 6, safe): what `FAULT_ADDR` holds when the request's start address is `2^64` or more
and so does not fit (10_state.md R43). The arguments are `State.tick` and the exact address. -/
opaque freeFaultAddr : Nat → Nat → DWord

end Sys2Proof.Config
end

