-- ==== Sys2Proof/Machine/State.lean ====
section
/-! DEFINITION. The state of the machine as plain data, the reasons a step can stop, and the state after reset. -/

namespace Sys2Proof.Machine

open Sys2Proof.Config

/-- Why the machine stops with a fault. -/
inductive Fault where
  /-- Raised by the host's own load or store of host memory when it runs past `2^64`: no such address exists
  (20_memory.md R80). Log entry 14; safe, the machine stops. -/
  | hostAddressPastTop
  deriving DecidableEq, Repr

/-- Why the model says nothing of a step. -/
inductive Refusal where
  /-- An instruction that has no meaning yet, by its mnemonic. Raised by no arm of this model; safe. -/
  | notModelled (mnemonic : String)
  /-- The host breaks the register access duty: an access to the window that is not an aligned 32-bit access
  (70_reset_and_hazards.md R352). Raised by the host's accesses; safe. -/
  | registerAccessDuty
  /-- The host breaks the buffer duty: it writes a source byte, or reads or writes a destination byte, of the running
  command (R353). Raised by the host's loads and stores; safe. -/
  | bufferDuty
  /-- The host launches HASH_BATCH with a digest array that overlaps its table or a message (R355). Raised by
  HASH_BATCH's start; safe. -/
  | batchOverlapDuty
  /-- An admitted engine read reaches host memory that is not plain (20_memory.md R88). Raised by every command that
  reads memory and by the lanes; safe. -/
  | notPlainMemory
  deriving DecidableEq, Repr

/-- The phase of the control unit (10_state.md R51). -/
inductive Phase where
  | idle
  | single
  | batch
  deriving DecidableEq, Repr

/-- The state of a lane (10_state.md R53). -/
inductive LaneState where
  | off
  | fetch
  | work
  | retired
  deriving DecidableEq, Repr

/-- The host-visible registers (10_state.md R30 to R46). `ID` and `CAP` are constants that the read answers, and
`STATUS.BUSY` is computed from the phase (R51). -/
structure RegFile where
  /-- `CTRL.IRQ_EN` (R33) -/
  irqEn      : Bool
  /-- `CMD` (R34) -/
  cmd        : Word
  /-- `STATUS.ERR` (R35) -/
  err        : Bool
  /-- `STATUS.ERRCODE` (R35) -/
  errCode    : BitVec 8
  /-- `STATUS.OVERRUN` (R35) -/
  overrun    : Bool
  /-- `IRQ_STATUS.DONE` (R36) -/
  done       : Bool
  /-- `RESULT` (R37) -/
  result     : DWord
  /-- `SRC` (R38) -/
  src        : DWord
  /-- `DST` (R39) -/
  dst        : DWord
  /-- `LEN` (R40) -/
  len        : DWord
  /-- `PRIOR` (R41) -/
  prior      : DWord
  /-- `WORKERS` (R42) -/
  workers    : Word
  /-- `FAULT_ADDR` (R43) -/
  faultAddr  : DWord
  /-- `FAULT_INDEX` (R44) -/
  faultIndex : DWord
  /-- `STATE0..STATE7` (R45) -/
  hash       : HashState
  deriving DecidableEq, Repr

/-- The control unit (10_state.md R51). -/
structure ControlUnit where
  phase   : Phase
  /-- the latched command word -/
  word    : Word
  src     : DWord
  dst     : DWord
  len     : DWord
  prior   : DWord
  workers : Word
  /-- `state_in[0..7]` -/
  stateIn : HashState
  deriving DecidableEq, Repr

/-- One compression path with its working arrays (10_state.md R47, R48, R50, R60). -/
structure Path where
  /-- the working HashState -/
  v       : HashState
  /-- the block buffer `blk` -/
  blk     : List Byte
  /-- `W[0..67]` -/
  w       : List Word
  /-- `W1[0..63]` -/
  w1      : List Word
  /-- `A .. H` -/
  work    : Working
  /-- the round index `j` -/
  j       : Nat
  /-- the block index `k` of the message being hashed -/
  k       : Nat
  /-- the trailer buffer -/
  trailer : List Byte
  deriving DecidableEq, Repr

/-- What the error latch `errv` holds (10_state.md R52). -/
structure ErrorLatch where
  code       : BitVec 8
  faultAddr  : DWord
  faultIndex : DWord
  deriving DecidableEq, Repr

/-- The batch controller (10_state.md R52). `N` and `NEXT` are 64-bit values held as naturals (log entry 12). -/
structure Batch where
  /-- `N` -/
  count : Nat
  /-- `NEXT` -/
  next  : Nat
  /-- `nl` -/
  used  : Nat
  /-- `errv` -/
  errv  : Option ErrorLatch
  deriving DecidableEq, Repr

/-- One lane (10_state.md R53). -/
structure Lane where
  lstate : LaneState
  idx    : Nat
  path   : Path
  deriving DecidableEq, Repr

/-- Host memory: the bytes that differ from what an unlisted address reads as, addresses strictly rising
(20_memory.md R80; log entry 4). -/
abbrev Memory := List Host.Cell

/-- What the host's last access returned (30_encoding.md R116; log entry 17). -/
inductive HostRead where
  | nothing
  | word (w : Word)
  | bytes (b : List Byte)
  deriving DecidableEq, Repr

/-- The whole machine, its parameters, and the model's own fields `host`, `lastRead`, `schedule`, `tick` and
`patience`. -/
structure State where
  /-- the parameters; no step changes them -/
  params   : Params
  regs     : RegFile
  ctl      : ControlUnit
  /-- the single-message datapath -/
  path     : Path
  batch    : Batch
  /-- the lanes `L[0..NLANES-1]` -/
  lanes    : List Lane
  mem      : Memory
  /-- MODEL'S OWN: what the host will do, oldest first (log entry 1) -/
  host     : List HostAction
  /-- MODEL'S OWN: the host's temporary (log entry 17) -/
  lastRead : HostRead
  /-- MODEL'S OWN: choices among several enabled agents, oldest first (log entry 2) -/
  schedule : List Nat
  /-- MODEL'S OWN: the counter free values are drawn with (log entry 2) -/
  tick     : Nat
  /-- MODEL'S OWN: how many more turns the host can get while a step of the engine waits (log entry 16) -/
  patience : Nat
  deriving DecidableEq, Repr

/-- Eight zero words. -/
def zeroHash : HashState := ⟨0#32, 0#32, 0#32, 0#32, 0#32, 0#32, 0#32, 0#32⟩

/-- The registers after reset (10_state.md R63). -/
def RegFile.reset : RegFile where
  irqEn      := false
  cmd        := 0#32
  err        := false
  errCode    := 0x00#8
  overrun    := false
  done       := false
  result     := 0#64
  src        := 0#64
  dst        := 0#64
  len        := 0#64
  prior      := 0#64
  workers    := 0#32
  faultAddr  := 0#64
  faultIndex := 0#64
  hash       := zeroHash

/-- The control unit after reset: idle (10_state.md R63). DESIGN CHOICE (log entry 5): the latched word and the
copies are 0, of which the spec says nothing. -/
def ControlUnit.reset : ControlUnit where
  phase   := .idle
  word    := 0#32
  src     := 0#64
  dst     := 0#64
  len     := 0#64
  prior   := 0#64
  workers := 0#32
  stateIn := zeroHash

/-- DESIGN CHOICE (log entry 5): a compression path after reset; the spec leaves it unspecified (R63). -/
def Path.reset : Path where
  v       := zeroHash
  blk     := List.replicate 64 0#8
  w       := List.replicate 68 0#32
  w1      := List.replicate 64 0#32
  work    := ⟨0#32, 0#32, 0#32, 0#32, 0#32, 0#32, 0#32, 0#32⟩
  j       := 0
  k       := 0
  trailer := []

/-- DESIGN CHOICE (log entry 5): the batch controller after reset; the spec leaves it unspecified (R63). -/
def Batch.reset : Batch where
  count := 0
  next  := 0
  used  := 0
  errv  := none

/-- A lane after reset: OFF (R63); its other contents are a DESIGN CHOICE (log entry 5). -/
def Lane.reset : Lane where
  lstate := .off
  idx    := 0
  path   := .reset

/-- The state after a hardware reset with given parameters (10_state.md R63; 70_reset_and_hazards.md R340). -/
def State.resetWith (p : Params) : State where
  params   := p
  regs     := .reset
  ctl      := .reset
  path     := .reset
  batch    := .reset
  lanes    := List.replicate p.lanesMinusOne.val.succ .reset
  mem      := []
  host     := []
  lastRead := .nothing
  schedule := []
  tick     := 0
  patience := 0

/-- The machine right after reset (10_state.md R63), with the parameters of log entry 3. -/
def State.reset : State := State.resetWith Config.params

end Sys2Proof.Machine
end

