-- ==== Sys2Proof/Machine/Flags.lean ====
section
/-! DEFINITION. Every flag of the engine and the words they are read in: STATUS, IRQ_STATUS and CTRL, the interrupt
output and the error codes. The engine has no arithmetic condition codes (10_state.md R33 to R36, R61; 60_exceptions.md
R300, R307 to R309). -/

namespace Sys2Proof.Machine

/-- `STATUS.BUSY`: 1 exactly when the phase is not IDLE (10_state.md R51). -/
def busy (s : State) : Bool := s.ctl.phase != .idle

/-- The error codes a command can end with (60_exceptions.md R300). -/
inductive ErrorCode where
  | illegalCmd
  | length
  | bus
  deriving DecidableEq, Repr

/-- `ERRCODE` of an error (60_exceptions.md R300). -/
def errorByte : ErrorCode → BitVec 8
  | .illegalCmd => 0x01#8
  | .length     => 0x02#8
  | .bus        => 0x03#8

/-- One flag at a bit position of a 32-bit register. -/
def flagAt (pos : Nat) (b : Bool) : Word := if b then 1#32 <<< pos else 0#32

/-- `STATUS` as a read returns it (10_state.md R35). -/
def statusWord (s : State) : Word :=
  flagAt 0 (busy s) ||| flagAt 1 s.regs.err ||| flagAt 2 s.regs.overrun ||| (s.regs.errCode.zeroExtend 32 <<< 8)

/-- `IRQ_STATUS` as a read returns it (10_state.md R36). -/
def irqStatusWord (s : State) : Word := flagAt 0 s.regs.done

/-- `CTRL` as a read returns it: `SRST` reads 0 (10_state.md R33). -/
def ctrlWord (s : State) : Word := flagAt 0 s.regs.irqEn

/-- The interrupt output: asserted exactly when `IRQ_EN = 1` and `DONE = 1` (60_exceptions.md R307). -/
def irq (s : State) : Bool := s.regs.irqEn && s.regs.done

/-- The host's interrupt inputs as the engine drives them: only the platform's input `IRQ_LINE` (60_exceptions.md R307;
log entry 20). -/
def irqInput (s : State) (input : Nat) : Bool := input == s.params.irqLine.input && irq s

/-- An ignored host write sets `OVERRUN` (60_exceptions.md R309). -/
def setOverrun (s : State) : State := { s with regs := { s.regs with overrun := true } }

/-- A host write of `STATUS`: writing 1 to `OVERRUN` clears it, everything else is ignored (10_state.md R35). -/
def writeStatus (s : State) (v : Word) : State :=
  { s with regs := { s.regs with overrun := s.regs.overrun && !v.getLsbD 2 } }

/-- A host write of `IRQ_STATUS`: writing 1 to `DONE` clears it (10_state.md R36). This acknowledge is all there is of
a return from a completion (60_exceptions.md R311). -/
def writeIrqStatus (s : State) (v : Word) : State :=
  { s with regs := { s.regs with done := s.regs.done && !v.getLsbD 0 } }

/-- A host write of `CTRL.IRQ_EN` (10_state.md R33). -/
def writeIrqEn (s : State) (v : Word) : State := { s with regs := { s.regs with irqEn := v.getLsbD 0 } }

end Sys2Proof.Machine
end

