-- ==== Sys2Proof/Machine/Sm3.lean ====
section
/-! DEFINITION. The constants, the message expander and the block compressor: pure functions of words and bytes
(40_compression.md R140 to R157). -/

namespace Sys2Proof.Machine

/-- Circular left rotation by `n mod 32` positions (R140). -/
def rotl (x : Word) (n : Nat) : Word :=
  if n % 32 = 0 then x else (x <<< (n % 32)) ||| (x >>> (32 - n % 32))

/-- The permutation P0 (R141). -/
def p0 (x : Word) : Word := x ^^^ rotl x 9 ^^^ rotl x 17

/-- The permutation P1 (R142). -/
def p1 (x : Word) : Word := x ^^^ rotl x 15 ^^^ rotl x 23

/-- The boolean function FF of round `j` (R143). -/
def ff (a b c : Word) (j : Nat) : Word :=
  if j < 16 then a ^^^ b ^^^ c else (a &&& b) ||| (a &&& c) ||| (b &&& c)

/-- The boolean function GG of round `j` (R144). -/
def gg (e f g : Word) (j : Nat) : Word :=
  if j < 16 then e ^^^ f ^^^ g else (e &&& f) ||| (~~~e &&& g)

/-- The initialization vector (R145), part of the constant store of 10_state.md R49. -/
def iv : HashState where
  v0 := 0x7380166F#32
  v1 := 0x4914B2B9#32
  v2 := 0x172442D7#32
  v3 := 0xDA8A0600#32
  v4 := 0xA96F30BC#32
  v5 := 0x163138AA#32
  v6 := 0xE38DEE4D#32
  v7 := 0xB0FB0E4E#32

/-- The two round constants, split at index 16 (R146). -/
def roundConst (j : Nat) : Word := if j < 16 then 0x79CC4519#32 else 0x7A879D8A#32

/-- The rotated round-constant table `Tr[j] = rotl(T(j), j)` (R147), part of the constant store. -/
def tr (j : Nat) : Word := rotl (roundConst j) j

/-- The big-endian word of four bytes, the first the most significant (00_scope.md R23). -/
def be32 (b0 b1 b2 b3 : Byte) : Word := b0 ++ b1 ++ b2 ++ b3

/-- The big-endian word at byte offset `4 i` of a byte string (20_memory.md R81). -/
def wordAt (b : List Byte) (i : Nat) : Word :=
  be32 (b.getD (4 * i) 0#8) (b.getD (4 * i + 1) 0#8) (b.getD (4 * i + 2) 0#8) (b.getD (4 * i + 3) 0#8)

/-- Block load: `W[0..15]`, newest first (R149). -/
def loadedRev (b : List Byte) : List Word := ((List.range 16).map (wordAt b)).reverse

/-- The next expansion word from the words so far, newest first: in `rev`, `W[i-1]` stands at index 0, so `W[i-3]`,
`W[i-6]`, `W[i-9]`, `W[i-13]` and `W[i-16]` stand at 2, 5, 8, 12 and 15 (R150). -/
def nextExpansion (rev : List Word) : Word :=
  p1 (rev.getD 15 0#32 ^^^ rev.getD 8 0#32 ^^^ rotl (rev.getD 2 0#32) 15) ^^^ rotl (rev.getD 12 0#32) 7
    ^^^ rev.getD 5 0#32

/-- `n` more expansion words, in increasing index (R150). -/
def extendRev : Nat → List Word → List Word
  | 0, rev     => rev
  | n + 1, rev => extendRev n (nextExpansion rev :: rev)

/-- The 68 words `W[0..67]` of a block (R149, R150). -/
def expandW (b : List Byte) : List Word := (extendRev 52 (loadedRev b)).reverse

/-- The 64 words `W1[j] = W[j] xor W[j+4]` (R151). -/
def expandW1 (w : List Word) : List Word :=
  (List.range 64).map fun j => w.getD j 0#32 ^^^ w.getD (j + 4) 0#32

/-- `SS1` of round `j` (R152). -/
def ss1 (x : Working) (j : Nat) : Word := rotl (rotl x.a 12 + x.e + tr j) 7

/-- `SS2` of round `j` (R152). -/
def ss2 (x : Working) (j : Nat) : Word := ss1 x j ^^^ rotl x.a 12

/-- `TT1` of round `j` (R152). -/
def tt1 (w1 : List Word) (x : Working) (j : Nat) : Word := ff x.a x.b x.c j + x.d + ss2 x j + w1.getD j 0#32

/-- `TT2` of round `j` (R152). -/
def tt2 (w : List Word) (x : Working) (j : Nat) : Word := gg x.e x.f x.g j + x.h + ss1 x j + w.getD j 0#32

/-- Round `j`: every right-hand side reads the words from before the round (R152). -/
def round (w w1 : List Word) (j : Nat) (x : Working) : Working where
  a := tt1 w1 x j
  b := x.a
  c := rotl x.b 9
  d := x.c
  e := p0 (tt2 w x j)
  f := x.e
  g := rotl x.f 19
  h := x.g

/-- `n` rounds from round `j` on, in increasing index (R155). -/
def rounds (w w1 : List Word) : Nat → Nat → Working → Working
  | 0, _, x     => x
  | n + 1, j, x => rounds w w1 n (j + 1) (round w w1 j x)

/-- The working words before round 0 (R153). -/
def workingOf (v : HashState) : Working where
  a := v.v0
  b := v.v1
  c := v.v2
  d := v.v3
  e := v.v4
  f := v.v5
  g := v.v6
  h := v.v7

/-- The final accumulation into the eight state words, in order (R154). -/
def accumulate (v : HashState) (x : Working) : HashState where
  v0 := v.v0 ^^^ x.a
  v1 := v.v1 ^^^ x.b
  v2 := v.v2 ^^^ x.c
  v3 := v.v3 ^^^ x.d
  v4 := v.v4 ^^^ x.e
  v5 := v.v5 ^^^ x.f
  v6 := v.v6 ^^^ x.g
  v7 := v.v7 ^^^ x.h

/-- The compression function `CF(V, b)`: all 64 rounds, no early exit (R155). -/
def cf (v : HashState) (b : List Byte) : HashState :=
  accumulate v (rounds (expandW b) (expandW1 (expandW b)) 64 0 (workingOf v))

end Sys2Proof.Machine
end

