-- ==== Sys2Proof/Machine/Padder.lean ====
section
/-! DEFINITION. The padder, the state codec and the hash sequence as pure functions (41_padder_codec.md R180 to
R188; 42_engine_commands.md R210). -/

namespace Sys2Proof.Machine

/-- The bound every encoded length stays under (00_scope.md R18). -/
def lengthBound : Nat := 2 ^ 61

/-- The byte count of the message's final partial block (R180). -/
def rem (len : Nat) : Nat := len % 64

/-- The trailer block count (R180). -/
def count (len : Nat) : Nat := if rem len + 1 + 8 ≤ 64 then 1 else 2

/-- `be32bytes(w)`: the four bytes of a word, the most significant first (00_scope.md R23). -/
def be32bytes (w : Word) : List Byte :=
  [w.extractLsb' 24 8, w.extractLsb' 16 8, w.extractLsb' 8 8, w.extractLsb' 0 8]

/-- `be64bytes(v)`: the 8-byte big-endian encoding of `v mod 2^64` (00_scope.md R23). -/
def be64bytes (v : Nat) : List Byte :=
  let x := BitVec.ofNat 64 v
  [x.extractLsb' 56 8, x.extractLsb' 48 8, x.extractLsb' 40 8, x.extractLsb' 32 8,
   x.extractLsb' 24 8, x.extractLsb' 16 8, x.extractLsb' 8 8, x.extractLsb' 0 8]

/-- `le64(b)`: the little-endian value of an 8-byte string (00_scope.md R23). -/
def le64 (b : List Byte) : DWord :=
  b.getD 7 0#8 ++ b.getD 6 0#8 ++ b.getD 5 0#8 ++ b.getD 4 0#8 ++ b.getD 3 0#8 ++ b.getD 2 0#8 ++ b.getD 1 0#8
    ++ b.getD 0 0#8

/-- `zeros(k)` (00_scope.md R23). -/
def zeros (k : Nat) : List Byte := List.replicate k 0x00#8

/-- The padding suffix (R181): 0x80, zero fill, and the big-endian bit length of `prior + len` bytes. -/
def padSuffix (len prior : Nat) : List Byte :=
  0x80#8 :: zeros (64 * count len - rem len - 9) ++ be64bytes ((prior + len) * 8)

/-- The length of the padding suffix (R181). -/
def padLen (len : Nat) : Nat := 64 * count len - rem len

/-- The trailer of a message (R182): its tail after the last full block, then the padding suffix. -/
def trailer (m : List Byte) (prior : Nat) : List Byte :=
  m.drop (64 * (m.length / 64)) ++ padSuffix m.length prior

/-- The padded length of a message of `len` bytes (R184). -/
def paddedLen (len : Nat) : Nat := 64 * (len / 64 + count len)

/-- `ToDigest(V)`: the eight words big-endian, in order (R185). -/
def toDigestBytes (v : HashState) : List Byte :=
  be32bytes v.v0 ++ be32bytes v.v1 ++ be32bytes v.v2 ++ be32bytes v.v3 ++ be32bytes v.v4 ++ be32bytes v.v5
    ++ be32bytes v.v6 ++ be32bytes v.v7

/-- `FromDigest(d)`: the eight big-endian words of 32 bytes (R186). -/
def fromDigestBytes (d : List Byte) : HashState where
  v0 := wordAt d 0
  v1 := wordAt d 1
  v2 := wordAt d 2
  v3 := wordAt d 3
  v4 := wordAt d 4
  v5 := wordAt d 5
  v6 := wordAt d 6
  v7 := wordAt d 7

/-- Block `k` of a byte string. -/
def blockOf (m : List Byte) (k : Nat) : List Byte := (m.drop (64 * k)).take 64

/-- `CF` over blocks `k .. k + n - 1` of a byte string, strictly in order (40_compression.md R157). -/
def cfBlocks (m : List Byte) : Nat → Nat → HashState → HashState
  | 0, _, v     => v
  | n + 1, k, v => cfBlocks m n (k + 1) (cf v (blockOf m k))

/-- `Hash(V0, m, prior)` (42_engine_commands.md R210): the full blocks of the message, then its trailer's blocks. -/
def hashOf (v0 : HashState) (m : List Byte) (prior : Nat) : HashState :=
  cfBlocks (trailer m prior) (count m.length) 0 (cfBlocks m (m.length / 64) 0 v0)

/-- The expansion dump of a block, `W` first, each word big-endian (42_engine_commands.md R222). -/
def expansionDump (w w1 : List Word) : List Byte := w.flatMap be32bytes ++ w1.flatMap be32bytes

end Sys2Proof.Machine
end

