-- ==== Sys2Proof/Machine/Regions.lean ====
section
/-! DEFINITION. Address ranges, the admission of a memory request, and the register window (20_memory.md R80, R85,
R88, R95). -/

namespace Sys2Proof.Machine

open Sys2Proof.Config

/-- The size of the host address space: `2^64` bytes (00_scope.md R16). -/
def addressSpace : Nat := 2 ^ 64

/-- The number of lanes (00_scope.md R15). -/
def nLanes (p : Params) : Nat := p.lanesMinusOne.val + 1

/-- `REG_BASE` (20_memory.md R95). -/
def regBase (p : Params) : Nat := p.regPage.toNat * 4096

/-- The register window `[REG_BASE, REG_BASE + 0x1000)` (20_memory.md R95). -/
def window (p : Params) : Region := { lo := regBase p, len := 0x1000 }

/-- Two regions have a byte in common. -/
def overlaps (a b : Region) : Bool := decide (max a.lo b.lo < min (a.lo + a.len) (b.lo + b.len))

/-- A denial of the platform applies to a request. -/
def denies (kind : RequestKind) (addr len : Nat) : Denial → Bool
  | .request k a n  => k == kind && a == addr && n == len
  | .touching k r   => k == kind && overlaps r { lo := addr, len := len }

/-- `MEM.admits(kind, a, n)` (20_memory.md R80). -/
def admits (p : Params) (kind : RequestKind) (addr len : Nat) : Bool := !p.denied.any (denies kind addr len)

/-- A request is admitted exactly when it stays below `2^64` and `MEM` admits it (20_memory.md R85). -/
def admitted (p : Params) (kind : RequestKind) (addr len : Nat) : Bool :=
  decide (addr + len ≤ addressSpace) && admits p kind addr len

/-- The bytes read are plain memory, without read side effects (20_memory.md R88). -/
def plain (p : Params) (addr len : Nat) : Bool := !p.notPlain.any (overlaps { lo := addr, len := len })

end Sys2Proof.Machine
end

