-- ==== Sys2Proof/Machine/Ops.lean ====
section
/-! DEFINITION. The named operations over memory and registers, the memory requests of the engine, the compression
paths, and completion: the one shared operation every success and every error ends with (60_exceptions.md R305). -/

namespace Sys2Proof.Machine

open Sys2Proof.Config

/-! ### Memory -/

/-- DESIGN CHOICE (log entry 4, unsafe for statements about `State.reset`): what a byte nothing has written reads as. -/
def unlistedByte : Byte := 0x00#8

/-- Reading one byte (20_memory.md R80). -/
def readByte : Memory → Nat → Byte
  | [], _          => unlistedByte
  | (x, b) :: m, a => if x = a then b else readByte m a

/-- Writing one byte. Writing what an unlisted byte reads as removes the entry. -/
def writeByte : Memory → Nat → Byte → Memory
  | [], a, b => if b = unlistedByte then [] else [(a, b)]
  | (x, c) :: m, a, b =>
    if a < x then (if b = unlistedByte then (x, c) :: m else (a, b) :: (x, c) :: m)
    else if a = x then (if b = unlistedByte then m else (a, b) :: m)
    else (x, c) :: writeByte m a b

/-- The canonical form from address `low` on: addresses rise strictly and stay below `2^64`, and no entry equals what an
unlisted byte reads as. -/
def memWfFrom : Nat → Memory → Bool
  | _, []            => true
  | low, (x, b) :: m => decide (low ≤ x) && decide (x < addressSpace) && b != unlistedByte && memWfFrom (x + 1) m

/-- The canonical form of a memory. -/
def Memory.wf (m : Memory) : Bool := memWfFrom 0 m

/-- `MEM.byte(a) || ... || MEM.byte(a+n-1)` (20_memory.md R85). -/
def readBytes (m : Memory) (a : Nat) : Nat → List Byte
  | 0     => []
  | n + 1 => readByte m a :: readBytes m (a + 1) n

/-- Writing a byte string at `a` (20_memory.md R85). -/
def writeBytes : Memory → Nat → List Byte → Memory
  | m, _, []      => m
  | m, a, b :: bs => writeBytes (writeByte m a b) (a + 1) bs

/-- Free bytes at the addresses `a .. a + n - 1` that exist (70_reset_and_hazards.md R342; log entry 7). -/
def drawBytes (tick : Nat) : Memory → Nat → Nat → Memory
  | m, _, 0     => m
  | m, a, n + 1 =>
    drawBytes tick (if a < addressSpace then writeByte m a (freeByte tick a) else m) (a + 1) n

/-! ### Stops of a command -/

/-- How the work of a command or of a lane's message ends early: with an error (60_exceptions.md R300), or because the
model says nothing of the run. -/
inductive Stop where
  | raise (code : ErrorCode) (faultAddr : DWord)
  | refuse (r : Refusal)
  deriving DecidableEq, Repr

/-- Work in a compression path that ended early: the path as the work left it, and why. -/
structure Halted where
  path : Path
  stop : Stop
  deriving DecidableEq, Repr

/-- A request made when the path is `p`: if it ends early, the path stays `p`. -/
def haltAt {α : Type} (p : Path) : Except Stop α → Except Halted α
  | .ok x    => .ok x
  | .error e => .error { path := p, stop := e }

/-- What `FAULT_ADDR` holds for a request that starts at the exact address `a` (10_state.md R43). An address of `2^64` or
more does not fit: a free value (log entry 6). -/
def faultAddrOf (tick a : Nat) : DWord := if a < addressSpace then BitVec.ofNat 64 a else freeFaultAddr tick a

/-- Host memory takes new contents. -/
def setMem (s : State) (m : Memory) : State := { s with mem := m }

/-- `MemRead(addr, n)` (00_scope.md R23; 20_memory.md R85, R88; 60_exceptions.md R303). -/
def memRead (s : State) (a n : Nat) : Except Stop (List Byte) :=
  if admitted s.params .read a n then
    if plain s.params a n then .ok (readBytes s.mem a n) else .error (.refuse .notPlainMemory)
  else .error (.raise .bus (faultAddrOf s.tick a))

/-- `MemWrite(addr, n, v)` (00_scope.md R23; 20_memory.md R85; 60_exceptions.md R303): the state with the bytes
written. -/
def memWrite (s : State) (a : Nat) (v : List Byte) : Except Stop State :=
  if admitted s.params .write a v.length then .ok (setMem s (writeBytes s.mem a v))
  else .error (.raise .bus (faultAddrOf s.tick a))

/-- The length check (60_exceptions.md R302): the total byte length a trailer would encode, summed exactly. -/
def checkLength (total : Nat) : Except Stop Unit :=
  if lengthBound ≤ total then .error (.raise .length 0#64) else .ok ()

/-! ### Registers -/

/-- `STATE[k] <- v[k]` for all `k` (10_state.md R45). -/
def setHash (s : State) (v : HashState) : State := { s with regs := { s.regs with hash := v } }

/-- `RESULT <- n` (10_state.md R37). -/
def setResult (s : State) (n : Nat) : State := { s with regs := { s.regs with result := BitVec.ofNat 64 n } }

/-- The single-message datapath takes new contents. -/
def setPath (s : State) (p : Path) : State := { s with path := p }

/-- The control unit takes a phase (10_state.md R51). -/
def setPhase (s : State) (ph : Phase) : State := { s with ctl := { s.ctl with phase := ph } }

/-- Lane `k` takes new contents. -/
def setLane (s : State) (k : Nat) (l : Lane) : State := { s with lanes := s.lanes.set k l }

/-! ### Completion, the "trap entry" of this hardware -/

/-- `complete(e)` (60_exceptions.md R305). -/
def complete (s : State) (e : BitVec 8) : State :=
  { s with
    ctl  := { s.ctl with phase := .idle }
    regs := { s.regs with err := e != 0x00#8, errCode := e, done := true } }

/-- `raise ERR_X(info)`: completion with the error's code and `FAULT_ADDR` (60_exceptions.md R300, R305). -/
def raise (s : State) (code : ErrorCode) (faultAddr : DWord) : State :=
  complete { s with regs := { s.regs with faultAddr := faultAddr } } (errorByte code)

/-- The end of a single-message command that started in `s`: success completes with code 0; an error completes with its
code, and of the work only the internal path keeps what it had computed (42_engine_commands.md, conventions;
60_exceptions.md R306; log entry 13). -/
def settle (s : State) : Except Halted State → Host.Outcome State Fault Refusal
  | .ok t                     => .next (complete t 0x00#8)
  | .error ⟨p, .raise code a⟩ => .next (raise (setPath s p) code a)
  | .error ⟨_, .refuse r⟩     => .refused r

/-! ### Compression paths -/

/-- Block load and expansion in a path (40_compression.md R149 to R151). -/
def expandInPath (p : Path) (b : List Byte) : Path :=
  { p with blk := b, w := expandW b, w1 := expandW1 (expandW b) }

/-- Block `k` is compressed in a path: expansion, 64 rounds, accumulation into its HashState (40_compression.md R149 to
R155; 10_state.md R48). The round index stops at 63 (R60). -/
def compressInPath (p : Path) (k : Nat) (b : List Byte) : Path :=
  let q := expandInPath p b
  let x := rounds q.w q.w1 64 0 (workingOf p.v)
  { q with v := accumulate p.v x, work := x, j := 63, k := k }

/-- Blocks `i .. i + n - 1` of a byte string are compressed in order, as blocks `base + i ..` of the message
(40_compression.md R157). -/
def compressRun (base : Nat) (t : List Byte) : Nat → Nat → Path → Path
  | 0, _, p     => p
  | n + 1, i, p => compressRun base t n (i + 1) (compressInPath p (base + i) (blockOf t i))

/-- The full blocks `k .. k + n - 1` of the message at `src` are read and compressed, in increasing `k`; a read that ends
the work leaves the blocks before it compressed (42_engine_commands.md R226; 43_batch.md R264; 20_memory.md R86). -/
def readBlocks (s : State) (src : Nat) : Nat → Nat → Path → Except Halted Path
  | 0, _, p     => .ok p
  | n + 1, k, p =>
    match haltAt p (memRead s (src + 64 * k) 64) with
    | .error h => .error h
    | .ok b    => readBlocks s src n (k + 1) (compressInPath p k b)

/-- The tail of the message at `src`: no request when it is empty (20_memory.md R86; 92_eei_decisions.md D35). -/
def readTail (s : State) (src len : Nat) : Except Stop (List Byte) :=
  if 0 < rem len then memRead s (src + 64 * (len / 64)) (rem len) else .ok []

/-- The trailer is computed into the path's trailer buffer (10_state.md R50). -/
def fillTrailer (p : Path) (t : List Byte) : Path := { p with trailer := t }

/-- The call that consumes the trailer ends: it is "never stored beyond" it (10_state.md R50). -/
def emptyTrailer (p : Path) : Path := { p with trailer := [] }

/-- The trailer is put in the path's trailer buffer and its blocks are compressed (42_engine_commands.md R226). -/
def compressTrailer (p : Path) (t : List Byte) (len : Nat) : Path :=
  emptyTrailer (compressRun (len / 64) t (count len) 0 (fillTrailer p t))

/-- The hash sequence over the `len` bytes at `src`, from `v0` with continuation offset `prior`, in a path: the reads
and compressions of 42_engine_commands.md R226, R227 and 43_batch.md R264. -/
def hashMessage (s : State) (p : Path) (v0 : HashState) (src len prior : Nat) : Except Halted Path :=
  match readBlocks s src (len / 64) 0 { p with v := v0 } with
  | .error h => .error h
  | .ok q    =>
    match haltAt q (readTail s src len) with
    | .error h => .error h
    | .ok tail => .ok (compressTrailer q (tail ++ padSuffix len prior) len)

end Sys2Proof.Machine
end

