-- ==== Sys2Proof/Machine/Operands.lean ====
section
/-! DEFINITION. The operands of the commands, all of them accept-time copies (30_encoding.md R112; 10_state.md R51), the
batch descriptors, and the source and destination regions of a command (70_reset_and_hazards.md R353). -/

namespace Sys2Proof.Machine

open Sys2Proof.Config

/-- `src`, the source address (10_state.md R38, R51). -/
def srcOp (s : State) : Nat := s.ctl.src.toNat

/-- `dst`, the destination address (10_state.md R39, R51). -/
def dstOp (s : State) : Nat := s.ctl.dst.toNat

/-- `len`, a message length in bytes or a message count (10_state.md R40, R51). -/
def lenOp (s : State) : Nat := s.ctl.len.toNat

/-- `prior`, the continuation offset in bytes (10_state.md R41, R51). -/
def priorOp (s : State) : Nat := s.ctl.prior.toNat

/-- `workers`, the requested worker count (10_state.md R42, R51). -/
def workersOp (s : State) : Nat := s.ctl.workers.toNat

/-- The address of descriptor `i`, computed exactly (43_batch.md R261). -/
def descriptorAddr (s : State) (i : Nat) : Nat := srcOp s + 16 * i

/-- The address of slot `i` (43_batch.md R265). -/
def slotAddr (s : State) (i : Nat) : Nat := dstOp s + 32 * i

/-- The message address in a descriptor's 16 bytes (20_memory.md R83). -/
def descriptorMsgAddr (d : List Byte) : Nat := (le64 (d.take 8)).toNat

/-- The message length in a descriptor's 16 bytes (20_memory.md R83). -/
def descriptorMsgLen (d : List Byte) : Nat := (le64 (d.drop 8)).toNat

/-- The number of lanes used for `w` requested workers and `n` messages (43_batch.md R262). -/
def lanesUsed (nlanes w n : Nat) : Nat := min (min (max (if w = 0 then nlanes else w) 1) n) nlanes

/-- The bytes of descriptor `i` as they stand in host memory. -/
def descriptorBytes (s : State) (i : Nat) : List Byte := readBytes s.mem (descriptorAddr s i) 16

/-- The bytes of batch message `i`, if its descriptor can be read at all (43_batch.md R261; log entry 11). -/
def messageRegion (s : State) (i : Nat) : Option Region :=
  if admitted s.params .read (descriptorAddr s i) 16 then
    some { lo := descriptorMsgAddr (descriptorBytes s i), len := descriptorMsgLen (descriptorBytes s i) }
  else none

/-- A region has a byte in common with one of the first `n` batch messages. -/
def touchesMessages (s : State) (r : Region) : Nat → Bool
  | 0     => false
  | n + 1 => (messageRegion s n).any (overlaps r) || touchesMessages s r n

/-- The descriptor table `[src, src + 16 N)` (43_batch.md R260). -/
def tableRegion (s : State) : Region := { lo := srcOp s, len := 16 * lenOp s }

/-- The digest array `[dst, dst + 32 N)` (43_batch.md R260). -/
def arrayRegion (s : State) : Region := { lo := dstOp s, len := 32 * lenOp s }

/-- The batch overlap duty is broken: the digest array overlaps the table or a message (70_reset_and_hazards.md R355). -/
def batchOverlap (s : State) : Bool :=
  overlaps (arrayRegion s) (tableRegion s) || touchesMessages s (arrayRegion s) (lenOp s)

/-- The region a command writes (20_memory.md R86); a command that writes none has an empty one. -/
def destRegion (s : State) : Instr → Region
  | .init         => { lo := 0, len := 0 }
  | .compress     => { lo := 0, len := 0 }
  | .expand       => { lo := dstOp s, len := 528 }
  | .pad          => { lo := dstOp s, len := 64 * count (lenOp s) }
  | .toDigest     => { lo := dstOp s, len := 32 }
  | .fromDigest   => { lo := 0, len := 0 }
  | .hash         => { lo := dstOp s, len := 32 }
  | .hashContinue => { lo := dstOp s, len := 32 }
  | .hashBatch    => arrayRegion s

/-- A region has a byte in common with a source region of a command: the message bytes, the block, the digest, or the
descriptor table and each batch message (70_reset_and_hazards.md R353; log entry 10). -/
def touchesSource (s : State) (r : Region) : Instr → Bool
  | .init         => false
  | .compress     => overlaps r { lo := srcOp s, len := 64 }
  | .expand       => overlaps r { lo := srcOp s, len := 64 }
  | .pad          => overlaps r { lo := srcOp s, len := lenOp s }
  | .toDigest     => false
  | .fromDigest   => overlaps r { lo := srcOp s, len := 32 }
  | .hash         => overlaps r { lo := srcOp s, len := lenOp s }
  | .hashContinue => overlaps r { lo := srcOp s, len := lenOp s }
  | .hashBatch    => overlaps r (tableRegion s) || touchesMessages s r (lenOp s)

/-- The running command, between accept and completion. -/
def running (s : State) : Option Instr := if busy s then (decode s.ctl.word).instr? else none

/-- A host write to `r` breaks the buffer duty (70_reset_and_hazards.md R353). -/
def writeBreaksDuty (s : State) (r : Region) : Bool :=
  match running s with
  | none   => false
  | some i => touchesSource s r i || overlaps r (destRegion s i)

/-- A host read of `r` breaks the buffer duty (70_reset_and_hazards.md R353). -/
def readBreaksDuty (s : State) (r : Region) : Bool :=
  match running s with
  | none   => false
  | some i => overlaps r (destRegion s i)

end Sys2Proof.Machine
end

