-- ==== Sys2Proof/Machine/BatchController.lean ====
section
/-! DEFINITION. HASH_BATCH: the start step inside accept, the fetch and work steps of the lanes, and the join
(43_batch.md R260 to R271). -/

namespace Sys2Proof.Machine

/-- A lane as a batch starts it: in FETCH (R260), with nothing of an earlier batch (60_exceptions.md R314). DESIGN CHOICE
(log entry 22): its `idx` and path then hold what they hold after reset. -/
def freshLane : Lane := { Lane.reset with lstate := .fetch }

/-- The first `nl` lanes start fresh; the others stay as they are (R260; 60_exceptions.md R314). -/
def startLanes (nl : Nat) (lanes : List Lane) : List Lane :=
  lanes.mapIdx fun k l => if k < nl then freshLane else l

/-- The batch is started with `nl` lanes (R260). -/
def startBatch (s : State) (nl : Nat) : State :=
  { s with
    ctl   := { s.ctl with phase := .batch }
    batch := { count := lenOp s, next := 0, used := nl, errv := none }
    lanes := startLanes nl s.lanes }

/-- HASH_BATCH's start step (R260). An empty batch completes here (R269); `NEXT`, `nl` and `errv`, which it does not set,
stay as they are (DESIGN CHOICE, log entry 21). A launch that breaks the batch overlap duty is
refused (70_reset_and_hazards.md R355). The digests are then made by the lanes' steps, and the command completes at the
join. -/
def execHashBatch (s : State) : Host.Outcome State Fault Refusal :=
  if lenOp s = 0 then
    .next (complete (setResult { s with batch := { s.batch with count := 0 } } 0) 0x00#8)
  else if batchOverlap s then .refused .batchOverlapDuty
  else .next (startBatch s (lanesUsed (nLanes s.params) (workersOp s) (lenOp s)))

/-- A lane's fetch step (R263): no new index after an error; else `fetch_inc` (20_memory.md R98), and work or retire. -/
def laneFetch (s : State) (k : Nat) (l : Lane) : Host.Outcome State Fault Refusal :=
  if s.batch.errv.isSome then .next (setLane s k { l with lstate := .retired })
  else
    let i := s.batch.next
    let u := { s with batch := { s.batch with next := i + 1 } }
    if s.batch.count ≤ i then .next (setLane u k { l with lstate := .retired })
    else .next (setLane u k { l with lstate := .work, idx := i })

/-- The work on message `i` in a path (R264): the path after it and the state with slot `i` written; if it fails, the path
with `V_k` as far as the rule had come. -/
def messageWork (s : State) (p : Path) (i : Nat) : Except Halted (Path × State) :=
  match haltAt p (memRead s (descriptorAddr s i) 16) with
  | .error h => .error h
  | .ok d    =>
    match haltAt p (checkLength (descriptorMsgLen d)) with
    | .error h => .error h
    | .ok _    =>
      match hashMessage s p iv (descriptorMsgAddr d) (descriptorMsgLen d) 0 with
      | .error h => .error h
      | .ok q    =>
        match haltAt q (memWrite s (slotAddr s i) (toDigestBytes q.v)) with
        | .error h => .error h
        | .ok u    => .ok (q, u)

/-- The latch after a failure: the first failure stays (R267). -/
def latchError (s : State) (code : ErrorCode) (faultAddr : DWord) (i : Nat) : State :=
  match s.batch.errv with
  | some _ => s
  | none   =>
    { s with batch := { s.batch with
        errv := some { code := errorByte code, faultAddr := faultAddr, faultIndex := BitVec.ofNat 64 i } } }

/-- A lane's work step (R264). -/
def laneWork (s : State) (k : Nat) (l : Lane) : Host.Outcome State Fault Refusal :=
  match messageWork s l.path l.idx with
  | .ok (q, u)                => .next (setLane u k { l with lstate := .fetch, path := q })
  | .error ⟨q, .raise code a⟩ =>
    .next (setLane (latchError s code a l.idx) k { l with lstate := .retired, path := q })
  | .error ⟨_, .refuse r⟩     => .refused r

/-- One step of lane `k` (R263, R264). A lane that is OFF or RETIRED takes none. -/
def laneStep (s : State) (k : Nat) : Host.Outcome State Fault Refusal :=
  match s.lanes[k]? with
  | none   => .next s
  | some l =>
    match l.lstate with
    | .off     => .next s
    | .fetch   => laneFetch s k l
    | .work    => laneWork s k l
    | .retired => .next s

/-- Every started lane is RETIRED (R266). -/
def allRetired (s : State) : Bool := (s.lanes.take s.batch.used).all fun l => l.lstate == .retired

/-- The started lanes go OFF (R266). -/
def stopLanes (nl : Nat) (lanes : List Lane) : List Lane :=
  lanes.mapIdx fun k l => if k < nl then { l with lstate := .off } else l

/-- The join (R266): `RESULT` is the number of lanes used, and the latched error, if any, is reported. DESIGN CHOICE (log
entry 21): outside a running batch `N`, `NEXT`, `nl` and `errv` keep what the batch left; 10_state.md R52 calls the value
of `NEXT` there unspecified and unobservable. -/
def joinStep (s : State) : Host.Outcome State Fault Refusal :=
  let u := setResult { s with lanes := stopLanes s.batch.used s.lanes } s.batch.used
  match s.batch.errv with
  | none   => .next (complete u 0x00#8)
  | some e =>
    .next (complete { u with regs := { u.regs with faultAddr := e.faultAddr, faultIndex := e.faultIndex } } e.code)

end Sys2Proof.Machine
end

