-- ==== Sys2Proof/Machine/SingleMessage.lean ====
section
/-! DEFINITION. The meanings of the eight single-message commands: the one execute-and-complete step that follows accept
(42_engine_commands.md R220 to R227; 90_conflicts.md C6). -/

namespace Sys2Proof.Machine

/-- INIT loads the IV into the host-visible state (R220). -/
def execInit (s : State) : Host.Outcome State Fault Refusal := settle s (.ok (setHash s iv))

/-- COMPRESS compresses the block at `src` into the host-visible state (R221). -/
def execCompress (s : State) : Host.Outcome State Fault Refusal :=
  settle s <|
    match haltAt s.path (memRead s (srcOp s) 64) with
    | .error h => .error h
    | .ok b    =>
      let p := compressInPath { s.path with v := s.ctl.stateIn } 0 b
      .ok (setHash (setPath s p) p.v)

/-- EXPAND writes the expansion words of the block at `src` to `dst` (R222). -/
def execExpand (s : State) : Host.Outcome State Fault Refusal :=
  settle s <|
    match haltAt s.path (memRead s (srcOp s) 64) with
    | .error h => .error h
    | .ok b    =>
      let p := expandInPath s.path b
      haltAt p (memWrite (setPath s p) (dstOp s) (expansionDump p.w p.w1))

/-- PAD writes the trailer of the message at `src` to `dst` and the block count to `RESULT` (R223). -/
def execPad (s : State) : Host.Outcome State Fault Refusal :=
  settle s <|
    match haltAt s.path (checkLength (priorOp s + lenOp s)) with
    | .error h => .error h
    | .ok _    =>
      match haltAt s.path (readTail s (srcOp s) (lenOp s)) with
      | .error h => .error h
      | .ok tail =>
        let p := fillTrailer s.path (tail ++ padSuffix (lenOp s) (priorOp s))
        match haltAt (emptyTrailer p) (memWrite (setPath s p) (dstOp s) p.trailer) with
        | .error h => .error h
        | .ok u    => .ok (setResult (setPath u (emptyTrailer p)) (count (lenOp s)))

/-- TO_DIGEST writes the host-visible state to `dst` as a digest (R224). -/
def execToDigest (s : State) : Host.Outcome State Fault Refusal :=
  settle s (haltAt s.path (memWrite s (dstOp s) (toDigestBytes s.ctl.stateIn)))

/-- FROM_DIGEST loads the digest at `src` into the host-visible state (R225). -/
def execFromDigest (s : State) : Host.Outcome State Fault Refusal :=
  settle s <|
    match haltAt s.path (memRead s (srcOp s) 32) with
    | .error h => .error h
    | .ok d    => .ok (setHash s (fromDigestBytes d))

/-- What HASH and HASH_CONTINUE do after their operands are chosen: the length check, the hash sequence, the digest
write, and the registers (R226, R227). -/
def hashInto (s : State) (v0 : HashState) (prior : Nat) : Except Halted State :=
  match haltAt s.path (checkLength (prior + lenOp s)) with
  | .error h => .error h
  | .ok _    =>
    match hashMessage s s.path v0 (srcOp s) (lenOp s) prior with
    | .error h => .error h
    | .ok p    =>
      match haltAt p (memWrite (setPath s p) (dstOp s) (toDigestBytes p.v)) with
      | .error h => .error h
      | .ok u    => .ok (setResult (setHash u p.v) (lenOp s / 64 + count (lenOp s)))

/-- HASH hashes the message at `src` from the IV (R226). -/
def execHash (s : State) : Host.Outcome State Fault Refusal := settle s (hashInto s iv 0)

/-- HASH_CONTINUE hashes the message at `src` from the given state and offset (R227). -/
def execHashContinue (s : State) : Host.Outcome State Fault Refusal :=
  settle s (hashInto s s.ctl.stateIn (priorOp s))

end Sys2Proof.Machine
end

