-- ==== Sys2Proof/Machine/Dispatch.lean ====
section
/-! DEFINITION. One arm per command of spec/opcode_table.json. -/

namespace Sys2Proof.Machine

/-- The meaning of a command on a state in which it has been accepted. -/
def exec (i : Instr) (s : State) : Host.Outcome State Fault Refusal :=
  match i with
  | .init => Sys2Proof.Machine.execInit s
  | .compress => Sys2Proof.Machine.execCompress s
  | .expand => Sys2Proof.Machine.execExpand s
  | .pad => Sys2Proof.Machine.execPad s
  | .toDigest => Sys2Proof.Machine.execToDigest s
  | .fromDigest => Sys2Proof.Machine.execFromDigest s
  | .hash => Sys2Proof.Machine.execHash s
  | .hashContinue => Sys2Proof.Machine.execHashContinue s
  | .hashBatch => Sys2Proof.Machine.execHashBatch s

end Sys2Proof.Machine
end

