-- ==== Sys2Proof/Machine/Registers.lean ====
section
/-! DEFINITION. The register window: the offsets, what a read returns, what a write does, accept and the soft reset
(10_state.md R30 to R46; 30_encoding.md R113; 70_reset_and_hazards.md R340, R342, R344, R345). -/

namespace Sys2Proof.Machine

/-- Every register of the window (10_state.md R30). -/
def allRegs : List Reg :=
  [.id, .cap, .ctrl, .cmd, .status, .irqStatus, .resultLo, .resultHi, .srcLo, .srcHi, .dstLo, .dstHi, .lenLo, .lenHi,
   .priorLo, .priorHi, .workers, .faultAddrLo, .faultAddrHi, .faultIndexLo, .faultIndexHi,
   .state 0, .state 1, .state 2, .state 3, .state 4, .state 5, .state 6, .state 7]

/-- The byte offset of a register (10_state.md R30). -/
def regOffset : Reg → BitVec 12
  | .id           => 0x000#12
  | .cap          => 0x004#12
  | .ctrl         => 0x008#12
  | .cmd          => 0x00C#12
  | .status       => 0x010#12
  | .irqStatus    => 0x014#12
  | .resultLo     => 0x018#12
  | .resultHi     => 0x01C#12
  | .srcLo        => 0x020#12
  | .srcHi        => 0x024#12
  | .dstLo        => 0x028#12
  | .dstHi        => 0x02C#12
  | .lenLo        => 0x030#12
  | .lenHi        => 0x034#12
  | .priorLo      => 0x038#12
  | .priorHi      => 0x03C#12
  | .workers      => 0x040#12
  | .faultAddrLo  => 0x048#12
  | .faultAddrHi  => 0x04C#12
  | .faultIndexLo => 0x050#12
  | .faultIndexHi => 0x054#12
  | .state k      => 0x060#12 + BitVec.ofNat 12 (4 * k.val)

/-- The register at an offset; a reserved offset has none (10_state.md R30). -/
def regAt (offset : BitVec 12) : Option Reg := allRegs.find? fun r => regOffset r == offset

/-- Word `k` of a HashState (10_state.md R45). -/
def hashWord (v : HashState) (k : Fin 8) : Word :=
  match k with
  | 0 => v.v0
  | 1 => v.v1
  | 2 => v.v2
  | 3 => v.v3
  | 4 => v.v4
  | 5 => v.v5
  | 6 => v.v6
  | 7 => v.v7

/-- Word `k` of a HashState replaced (10_state.md R45). -/
def setHashWord (v : HashState) (k : Fin 8) (w : Word) : HashState :=
  match k with
  | 0 => { v with v0 := w }
  | 1 => { v with v1 := w }
  | 2 => { v with v2 := w }
  | 3 => { v with v3 := w }
  | 4 => { v with v4 := w }
  | 5 => { v with v5 := w }
  | 6 => { v with v6 := w }
  | 7 => { v with v7 := w }

/-- The low half of a register pair replaced (10_state.md R30). -/
def withLo (x : DWord) (w : Word) : DWord := hi x ++ w

/-- The high half of a register pair replaced (10_state.md R30). -/
def withHi (x : DWord) (w : Word) : DWord := w ++ lo x

/-- What a read of a register returns (10_state.md R31 to R45). No read has a side effect. DEDUCED (log entry 23): `CMD`
returns the whole accepted word, an illegal word with nonzero bits [31:8] too (R34; 60_exceptions.md R300), although
93_implementation_defined.md U2 lists reserved fields of `CMD` among those that read 0. -/
def readReg (s : State) : Reg → Word
  | .id           => 0x00534D33#32
  | .cap          => BitVec.ofNat 32 (nLanes s.params)
  | .ctrl         => ctrlWord s
  | .cmd          => s.regs.cmd
  | .status       => statusWord s
  | .irqStatus    => irqStatusWord s
  | .resultLo     => lo s.regs.result
  | .resultHi     => hi s.regs.result
  | .srcLo        => lo s.regs.src
  | .srcHi        => hi s.regs.src
  | .dstLo        => lo s.regs.dst
  | .dstHi        => hi s.regs.dst
  | .lenLo        => lo s.regs.len
  | .lenHi        => hi s.regs.len
  | .priorLo      => lo s.regs.prior
  | .priorHi      => hi s.regs.prior
  | .workers      => s.regs.workers
  | .faultAddrLo  => lo s.regs.faultAddr
  | .faultAddrHi  => hi s.regs.faultAddr
  | .faultIndexLo => lo s.regs.faultIndex
  | .faultIndexHi => hi s.regs.faultIndex
  | .state k      => hashWord s.regs.hash k

/-- A read at an aligned offset; a reserved offset reads 0 (10_state.md R30). -/
def readOffset (s : State) (offset : BitVec 12) : Word :=
  match regAt offset with
  | none   => 0#32
  | some r => readReg s r

/-- The argument registers after a write that is not ignored; `none` for a register that is no argument register
(10_state.md R46). -/
def writeArg (g : RegFile) (v : Word) : Reg → Option RegFile
  | .srcLo        => some { g with src := withLo g.src v }
  | .srcHi        => some { g with src := withHi g.src v }
  | .dstLo        => some { g with dst := withLo g.dst v }
  | .dstHi        => some { g with dst := withHi g.dst v }
  | .lenLo        => some { g with len := withLo g.len v }
  | .lenHi        => some { g with len := withHi g.len v }
  | .priorLo      => some { g with prior := withLo g.prior v }
  | .priorHi      => some { g with prior := withHi g.prior v }
  | .workers      => some { g with workers := v }
  | .state k      => some { g with hash := setHashWord g.hash k v }
  | .id           => none
  | .cap          => none
  | .ctrl         => none
  | .cmd          => none
  | .status       => none
  | .irqStatus    => none
  | .resultLo     => none
  | .resultHi     => none
  | .faultAddrLo  => none
  | .faultAddrHi  => none
  | .faultIndexLo => none
  | .faultIndexHi => none

/-! ### Reset -/

/-- Host memory after a reset: if a command was in progress it is abandoned, and every byte of its destination region
holds a free value (70_reset_and_hazards.md R340, R342). -/
def abandonedMem (s : State) : Memory :=
  match running s with
  | none   => s.mem
  | some i => drawBytes s.tick s.mem (destRegion s i).lo (destRegion s i).len

/-- A hardware or soft reset: every register and internal state takes its reset value (70_reset_and_hazards.md R340,
R342). The parameters, the rest of host memory, and what belongs to the host and to the schedule stay. -/
def resetEngine (s : State) : State :=
  { State.resetWith s.params with
    mem      := abandonedMem s
    host     := s.host
    lastRead := s.lastRead
    schedule := s.schedule
    tick     := s.tick
    patience := s.patience }

/-- A host write of `CTRL`, busy or not: `SRST` resets, and then `IRQ_EN` is 0 (10_state.md R33). -/
def writeCtrl (s : State) (v : Word) : State :=
  if v.getLsbD 1 then resetEngine (writeIrqEn s v) else writeIrqEn s v

/-! ### Accept -/

/-- The part of accept that every word shares (30_encoding.md R113): `CMD` takes the word, the status of the last command
is cleared, and the operands are copied. `OVERRUN` is not changed. -/
def latchCommand (s : State) (c : Word) : State :=
  { s with
    regs := { s.regs with
      cmd        := c
      err        := false
      errCode    := 0x00#8
      done       := false
      result     := 0#64
      faultAddr  := 0#64
      faultIndex := 0#64 }
    ctl := { s.ctl with
      word    := c
      src     := s.regs.src
      dst     := s.regs.dst
      len     := s.regs.len
      prior   := s.regs.prior
      workers := s.regs.workers
      stateIn := s.regs.hash } }

/-- Accept (30_encoding.md R113): an illegal word completes at once (60_exceptions.md R301), HASH_BATCH starts, any other
command waits for its execute step. -/
def accept (s : State) (c : Word) : Host.Outcome State Fault Refusal :=
  match decode c with
  | .illegal _             => .next (raise (latchCommand s c) .illegalCmd 0#64)
  | .command .hashBatch    => exec .hashBatch (latchCommand s c)
  | .command .init         => .next (setPhase (latchCommand s c) .single)
  | .command .compress     => .next (setPhase (latchCommand s c) .single)
  | .command .expand       => .next (setPhase (latchCommand s c) .single)
  | .command .pad          => .next (setPhase (latchCommand s c) .single)
  | .command .toDigest     => .next (setPhase (latchCommand s c) .single)
  | .command .fromDigest   => .next (setPhase (latchCommand s c) .single)
  | .command .hash         => .next (setPhase (latchCommand s c) .single)
  | .command .hashContinue => .next (setPhase (latchCommand s c) .single)

/-! ### Host writes -/

/-- A host write of a register (10_state.md R30 to R46; 70_reset_and_hazards.md R344). Read-only registers ignore it. -/
def writeReg (s : State) (r : Reg) (v : Word) : Host.Outcome State Fault Refusal :=
  match r with
  | .ctrl      => .next (writeCtrl s v)
  | .status    => .next (writeStatus s v)
  | .irqStatus => .next (writeIrqStatus s v)
  | .cmd       => if busy s then .next (setOverrun s) else accept s v
  | r          =>
    match writeArg s.regs v r with
    | none   => .next s
    | some g => if busy s then .next (setOverrun s) else .next { s with regs := g }

/-- A host write at an aligned offset; a reserved offset ignores it (10_state.md R30). -/
def writeOffset (s : State) (offset : BitVec 12) (v : Word) : Host.Outcome State Fault Refusal :=
  match regAt offset with
  | none   => .next s
  | some r => writeReg s r v

end Sys2Proof.Machine
end

