-- ==== Sys2Proof/Machine/HostPort.lean ====
section
/-! DEFINITION. One action of the host: the 32-bit register accesses, the accesses to host memory with the host's duties,
the polling loop, and the platform's reset input (30_encoding.md R116, R117; 70_reset_and_hazards.md R340, R352, R353); and
the pseudo-instructions of R117 as lists of actions. -/

namespace Sys2Proof.Machine

open Sys2Proof.Config

/-- The offset of an access is a multiple of 4 (20_memory.md R97). -/
def aligned (offset : BitVec 12) : Bool := decide (offset.toNat % 4 = 0)

/-- A host access to host memory is a byte string: it may not touch the register window, where only aligned 32-bit
accesses are allowed (70_reset_and_hazards.md R352). -/
def touchesWindow (s : State) (r : Region) : Bool := overlaps r (window s.params)

/-- `rd`: the value of the register at the offset goes to the host's temporary (30_encoding.md R116). -/
def hostRead (s : State) (offset : BitVec 12) : Host.Outcome State Fault Refusal :=
  if aligned offset then .next { s with lastRead := .word (readOffset s offset) } else .refused .registerAccessDuty

/-- `wr`: the value is written to the register at the offset (30_encoding.md R116). -/
def hostWrite (s : State) (offset : BitVec 12) (v : Word) : Host.Outcome State Fault Refusal :=
  if aligned offset then writeOffset s offset v else .refused .registerAccessDuty

/-- The host reads `n` bytes of host memory (70_reset_and_hazards.md R352, R353; log entry 14). DESIGN CHOICE (log entry
14): a host load of memory that is not plain returns the stored bytes and has no side effect; 20_memory.md R88 speaks of
engine reads only. -/
def hostLoad (s : State) (a n : Nat) : Host.Outcome State Fault Refusal :=
  if addressSpace < a + n then .fault .hostAddressPastTop
  else if touchesWindow s { lo := a, len := n } then .refused .registerAccessDuty
  else if readBreaksDuty s { lo := a, len := n } then .refused .bufferDuty
  else .next { s with lastRead := .bytes (readBytes s.mem a n) }

/-- The host stores a byte string in host memory (30_encoding.md R116; 70_reset_and_hazards.md R352, R353; log entry
14). -/
def hostStore (s : State) (a : Nat) (v : List Byte) : Host.Outcome State Fault Refusal :=
  if addressSpace < a + v.length then .fault .hostAddressPastTop
  else if touchesWindow s { lo := a, len := v.length } then .refused .registerAccessDuty
  else if writeBreaksDuty s { lo := a, len := v.length } then .refused .bufferDuty
  else .next (setMem s (writeBytes s.mem a v))

/-- One turn of `wait`: `STATUS` is read, and the loop goes on while `BUSY` reads 1 (30_encoding.md R117). `s` is the state
with the action already taken off the host's list. -/
def hostPoll (s : State) : State :=
  { s with
    lastRead := .word (statusWord s)
    host     := if (statusWord s).getLsbD 0 then .wait :: s.host else s.host }

/-- One action of the host, already taken off its list. -/
def hostDo (s : State) : HostAction → Host.Outcome State Fault Refusal
  | .rd offset       => hostRead s offset
  | .wr offset value => hostWrite s offset value
  | .load addr n     => hostLoad s addr.toNat n
  | .store addr v    => hostStore s addr.toNat v
  | .wait            => .next (hostPoll s)
  | .hardReset       => .next (resetEngine s)

/-- The host's turn: its oldest action. -/
def hostStep (s : State) : Host.Outcome State Fault Refusal :=
  match s.host with
  | []          => .next s
  | act :: rest => hostDo { s with host := rest } act

/-! ### Pseudo-instructions (30_encoding.md R117) -/

/-- `wr NAME, imm32` (30_encoding.md R116). -/
def wrReg (r : Reg) (v : Word) : HostAction := .wr (regOffset r) v

/-- `rd NAME -> t` (30_encoding.md R116). -/
def rdReg (r : Reg) : HostAction := .rd (regOffset r)

/-- `wr64 X, imm64`, given the two registers of the pair. -/
def wr64 (xLo xHi : Reg) (v : DWord) : List HostAction := [wrReg xLo (lo v), wrReg xHi (hi v)]

/-- `cmd MNEMONIC`. -/
def cmdAction (i : Instr) : HostAction := wrReg .cmd (encode i)

/-- The `rd STATUS -> t` of `check_ok`. -/
def checkOkRead : HostAction := rdReg .status

/-- The `assert t[1] = 0` of `check_ok`. -/
def checkOkHolds : HostRead → Bool
  | .word t  => !t.getLsbD 1
  | .nothing => false
  | .bytes _ => false

end Sys2Proof.Machine
end

