-- ==== Sys2Proof/Machine/Schedule.lean ====
section
/-! DEFINITION. The agents, which of them are enabled, which one moves, and what it does (00_scope.md R19; 43_batch.md
R270; 70_reset_and_hazards.md R351; log entry 2). -/

namespace Sys2Proof.Machine

/-- The agents that take steps (00_scope.md R19). -/
inductive Agent where
  | host
  | control
  | lane (k : Nat)
  deriving DecidableEq, Repr

/-- A lane can take a step (43_batch.md R270). -/
def laneEnabled (s : State) (k : Nat) : Bool :=
  match s.lanes[k]? with
  | none   => false
  | some l => l.lstate == .fetch || l.lstate == .work

/-- The engine's agents that can take a step. In a batch those are the started lanes, or the join once all of them are
RETIRED (43_batch.md R266, R270). -/
def engineAgents (s : State) : List Agent :=
  match s.ctl.phase with
  | .idle   => []
  | .single => [.control]
  | .batch  =>
    if allRetired s then [.control] else ((List.range s.batch.used).filter (laneEnabled s)).map .lane

/-- A step of the engine waits to be taken. -/
def engineWaits (s : State) : Bool := !(engineAgents s).isEmpty

/-- The host can move: it has something left to do, and if a step of the engine waits, the host has turns left. When it has
none, the engine's step is taken before the host's next access (70_reset_and_hazards.md R351; log entry 16). -/
def hostAgents (s : State) : List Agent :=
  if s.host.isEmpty then [] else if engineWaits s && s.patience == 0 then [] else [.host]

/-- Every agent that can take a step. -/
def enabledAgents (s : State) : List Agent := hostAgents s ++ engineAgents s

/-- The choice among several enabled agents: the oldest of `schedule`, then a free value (log entry 2). -/
def nextChoice (s : State) : Nat :=
  match s.schedule with
  | c :: _ => c
  | []     => Config.freeChoice s.tick

/-- The agent that moves, if any can. A choice is made only when there is more than one. -/
def pickAgent (s : State) : Option Agent :=
  match enabledAgents s with
  | []               => none
  | [a]              => some a
  | agents@(_ :: _ :: _) => agents[nextChoice s % agents.length]?

/-- The host's turns left after this one: one less when the host moves while a step of the engine waits, else a free value
(70_reset_and_hazards.md R351; log entry 16). -/
def nextPatience (s : State) : Nat :=
  if engineWaits s && pickAgent s == some .host then s.patience - 1 else Config.freePatience s.tick

/-- The state as the moving agent finds it: the choice, if one was made, is used up, the counter of the free values goes
on, and the host's turns are counted. -/
def turn (s : State) : State :=
  match enabledAgents s with
  | _ :: _ :: _ => { s with schedule := s.schedule.tail, tick := s.tick + 1, patience := nextPatience s }
  | [_]         => { s with tick := s.tick + 1, patience := nextPatience s }
  | []          => s

/-- The execute-and-complete step of a single-message command: the latched word is decoded and executed
(42_engine_commands.md, conventions). A latched word that is no command, which no run reaches, ends as an illegal one
(log entry 18). -/
def executeLatched (s : State) : Host.Outcome State Fault Refusal :=
  match decode s.ctl.word with
  | .command i => exec i s
  | .illegal _ => .next (raise s .illegalCmd 0#64)

/-- A step of the control unit (10_state.md R51). -/
def controlStep (s : State) : Host.Outcome State Fault Refusal :=
  match s.ctl.phase with
  | .idle   => .next s
  | .single => executeLatched s
  | .batch  => joinStep s

/-- A step of one agent. -/
def agentStep (s : State) : Agent → Host.Outcome State Fault Refusal
  | .host    => hostStep s
  | .control => controlStep s
  | .lane k  => laneStep s k

end Sys2Proof.Machine
end

