-- ==== Sys2Proof/Machine/Step.lean ====
section
/-! DEFINITION. One step of the machine, and how the host's checks place an instruction for it. -/

namespace Sys2Proof.Machine

/-- One step: one enabled agent moves. With none enabled nothing changes until the host acts (60_exceptions.md R316). -/
def step (s : State) : Host.Outcome State Fault Refusal :=
  match pickAgent s with
  | none   => .next s
  | some a => agentStep (turn s) a

/-- The state in which the host is about to write the word to `CMD` of an idle engine. -/
def State.withCmdWrite (s : State) (c : Word) : State :=
  { s with
    ctl  := { s.ctl with phase := .idle }
    host := .wr (regOffset .cmd) c :: s.host }

/-- The state just after the word of a single-message command was accepted, with the control unit's turn next: the host
has no turns left before it. -/
def State.withAccepted (s : State) (c : Word) : State := { setPhase (latchCommand s c) .single with patience := 0 }

/-- The word placed where the next step takes its command from (log entry 19): a single-message command is executed
from the control unit's latched word, HASH_BATCH and illegal words run inside the accept of the host's `CMD` write. -/
def State.withFetchWord (s : State) (nbits w : Nat) : State :=
  match decodeTableWord nbits w with
  | some .hashBatch    => s.withCmdWrite (BitVec.ofNat 32 w)
  | none               => s.withCmdWrite (BitVec.ofNat 32 w)
  | some .init         => s.withAccepted (BitVec.ofNat 32 w)
  | some .compress     => s.withAccepted (BitVec.ofNat 32 w)
  | some .expand       => s.withAccepted (BitVec.ofNat 32 w)
  | some .pad          => s.withAccepted (BitVec.ofNat 32 w)
  | some .toDigest     => s.withAccepted (BitVec.ofNat 32 w)
  | some .fromDigest   => s.withAccepted (BitVec.ofNat 32 w)
  | some .hash         => s.withAccepted (BitVec.ofNat 32 w)
  | some .hashContinue => s.withAccepted (BitVec.ofNat 32 w)

end Sys2Proof.Machine
end

