-- ==== Sys2Proof/Safety.lean ====
section
/-! DEFINITION. What counts as a good state and a good run, in the terms the statements use: readable and writable
requests, the invariant of the machine, and runs of a batch. -/

namespace Sys2Proof.Machine

open Sys2Proof.Config

/-- A read request that is answered with bytes: admitted (20_memory.md R85) and of plain memory (R88). -/
def readable (s : State) (a n : Nat) : Bool := admitted s.params .read a n && plain s.params a n

/-- A write request that is admitted (20_memory.md R85). -/
def writable (s : State) (a n : Nat) : Bool := admitted s.params .write a n

/-- A read request that is admitted but reaches memory that is not plain (20_memory.md R88). -/
def hasSideEffects (s : State) (a n : Nat) : Bool := admitted s.params .read a n && !plain s.params a n

/-- The registers after a successful completion (60_exceptions.md R305): `ERR = 0`, `ERRCODE = 0`, `DONE = 1`. -/
def doneRegs (g : RegFile) : RegFile := { g with err := false, errCode := 0x00#8, done := true }

/-- The registers after a failed completion (60_exceptions.md R300, R305): `ERR = 1`, the code, `DONE = 1`, and
`FAULT_ADDR`. -/
def failRegs (g : RegFile) (code : BitVec 8) (faultAddr : DWord) : RegFile :=
  { g with err := true, errCode := code, done := true, faultAddr := faultAddr }

/-- The control unit gone idle (60_exceptions.md R305). -/
def idleCtl (c : ControlUnit) : ControlUnit := { c with phase := .idle }

/-- Every read request that hashing the `len` bytes at `src` makes is answered (20_memory.md R86). -/
def messageReadable (s : State) (src len : Nat) : Prop :=
  (∀ k, k < len / 64 → readable s (src + 64 * k) 64 = true) ∧
    (0 < rem len → readable s (src + 64 * (len / 64)) (rem len) = true)

/-- The message of batch index `i`, as its descriptor and bytes stand in host memory (43_batch.md R261). -/
def batchMessage (s : State) (i : Nat) : List Byte :=
  readBytes s.mem (descriptorMsgAddr (descriptorBytes s i)) (descriptorMsgLen (descriptorBytes s i))

/-- The digest of batch message `i` (43_batch.md R264). -/
def batchDigest (s : State) (i : Nat) : List Byte := toDigestBytes (hashOf iv (batchMessage s i) 0)

/-- The 32 bytes of slot `i` (43_batch.md R265). -/
def slotBytes (s : State) (i : Nat) : List Byte := readBytes s.mem (slotAddr s i) 32

/-- A byte of a batch message whose descriptor can be read, as the descriptors stand (43_batch.md R261). -/
def MessageByte (s : State) (x : Nat) : Prop :=
  ∃ i, i < lenOp s ∧ admitted s.params .read (descriptorAddr s i) 16 = true ∧
    descriptorMsgAddr (descriptorBytes s i) ≤ x ∧
    x < descriptorMsgAddr (descriptorBytes s i) + descriptorMsgLen (descriptorBytes s i)

/-- A byte of a source region of a command: the message bytes, the block, the digest, or the descriptor table and each
batch message (70_reset_and_hazards.md R353). -/
def SourceByte (s : State) (x : Nat) : Instr → Prop
  | .init         => False
  | .compress     => srcOp s ≤ x ∧ x < srcOp s + 64
  | .expand       => srcOp s ≤ x ∧ x < srcOp s + 64
  | .pad          => srcOp s ≤ x ∧ x < srcOp s + lenOp s
  | .toDigest     => False
  | .fromDigest   => srcOp s ≤ x ∧ x < srcOp s + 32
  | .hash         => srcOp s ≤ x ∧ x < srcOp s + lenOp s
  | .hashContinue => srcOp s ≤ x ∧ x < srcOp s + lenOp s
  | .hashBatch    => (srcOp s ≤ x ∧ x < srcOp s + 16 * lenOp s) ∨ MessageByte s x

/-- A byte of the destination region of a command (20_memory.md R86; 70_reset_and_hazards.md R353). -/
def DestByte (s : State) (x : Nat) : Instr → Prop
  | .init         => False
  | .compress     => False
  | .expand       => dstOp s ≤ x ∧ x < dstOp s + 528
  | .pad          => dstOp s ≤ x ∧ x < dstOp s + 64 * count (lenOp s)
  | .toDigest     => dstOp s ≤ x ∧ x < dstOp s + 32
  | .fromDigest   => False
  | .hash         => dstOp s ≤ x ∧ x < dstOp s + 32
  | .hashContinue => dstOp s ≤ x ∧ x < dstOp s + 32
  | .hashBatch    => dstOp s ≤ x ∧ x < dstOp s + 32 * lenOp s

/-- The number of lanes that are RETIRED. -/
def retiredCount (s : State) : Nat := s.lanes.countP fun l => l.lstate == .retired

/-- What the registers hold between accept and completion (70_reset_and_hazards.md R345; 10_state.md R46, R51). -/
structure BusyOk (s : State) : Prop where
  word       : s.ctl.word = s.regs.cmd
  err        : s.regs.err = false
  errCode    : s.regs.errCode = 0x00#8
  done       : s.regs.done = false
  result     : s.regs.result = 0#64
  faultAddr  : s.regs.faultAddr = 0#64
  faultIndex : s.regs.faultIndex = 0#64
  src        : s.ctl.src = s.regs.src
  dst        : s.ctl.dst = s.regs.dst
  len        : s.ctl.len = s.regs.len
  prior      : s.ctl.prior = s.regs.prior
  workers    : s.ctl.workers = s.regs.workers
  stateIn    : s.ctl.stateIn = s.regs.hash

/-- What the batch controller and the lanes hold while a batch runs (43_batch.md R260 to R267). -/
structure BatchOk (s : State) : Prop where
  word      : decode s.ctl.word = .command .hashBatch
  count     : s.batch.count = lenOp s
  nonempty  : 0 < s.batch.count
  used      : s.batch.used = lanesUsed (nLanes s.params) (workersOp s) s.batch.count
  started   : ∀ (k : Nat) (l : Lane), s.lanes[k]? = some l → (k < s.batch.used ↔ l.lstate ≠ .off)
  inWork    : ∀ (k : Nat) (l : Lane), s.lanes[k]? = some l → l.lstate = .work →
                l.idx < s.batch.next ∧ l.idx < s.batch.count
  distinct  : ∀ (k k' : Nat) (l l' : Lane), s.lanes[k]? = some l → s.lanes[k']? = some l' → l.lstate = .work →
                l'.lstate = .work → l.idx = l'.idx → k = k'
  nextBound : s.batch.next ≤ s.batch.count + retiredCount s
  latch     : ∀ e, s.batch.errv = some e → (e.code = 0x02#8 ∨ e.code = 0x03#8) ∧ e.faultIndex.toNat < s.batch.count

/-- The invariant of the machine. -/
structure State.Inv (s : State) : Prop where
  /-- host memory is in its canonical form -/
  memWf      : s.mem.wf = true
  /-- there are `NLANES` lanes (00_scope.md R15) -/
  laneCount  : s.lanes.length = nLanes s.params
  /-- `ERR = 1` exactly when `ERRCODE` is not 0 (60_exceptions.md R305) -/
  errAgrees  : s.regs.err = (s.regs.errCode != 0x00#8)
  /-- the reserved error codes are never produced (60_exceptions.md R300) -/
  errKnown   : s.regs.errCode ≤ 0x03#8
  /-- lanes run only inside HASH_BATCH (00_scope.md R19) -/
  lanesOff   : s.ctl.phase ≠ .batch → ∀ l ∈ s.lanes, l.lstate = .off
  /-- the latched word of a single-message command is one -/
  singleWord : s.ctl.phase = .single → ∃ i, decode s.ctl.word = .command i ∧ i ≠ .hashBatch
  busyOk     : s.ctl.phase ≠ .idle → BusyOk s
  batchOk    : s.ctl.phase = .batch → BatchOk s

/-- `k` steps, each answering a next state. -/
def runSteps : Nat → State → Host.Outcome State Fault Refusal
  | 0, s     => .next s
  | k + 1, s =>
    match step s with
    | .next t    => runSteps k t
    | .fault f   => .fault f
    | .refused r => .refused r

/-- The run is outside the model: the host breaks a duty (70_reset_and_hazards.md R352, R353), reaches past the address
space, or makes the engine read memory that is not plain (20_memory.md R88). -/
def outsideModel : Host.Outcome State Fault Refusal → Bool
  | .next _    => false
  | .fault _   => true
  | .refused r => [Refusal.registerAccessDuty, .bufferDuty, .notPlainMemory].contains r

/-- `t` is reached from `s` by steps that are all taken while a batch runs; `t` may be the state its end leaves. -/
inductive BatchRun : State → State → Prop where
  | refl (s : State) : BatchRun s s
  | next (s t u : State) : s.ctl.phase = .batch → step s = .next t → BatchRun t u → BatchRun s u

/-- The state is one in which accept may start HASH_BATCH: the lanes are there and OFF, and memory is in its canonical
form (10_state.md R53; both follow from the invariant). -/
structure CanStart (s : State) : Prop where
  memWf     : s.mem.wf = true
  laneCount : s.lanes.length = nLanes s.params
  lanesOff  : ∀ l ∈ s.lanes, l.lstate = .off

end Sys2Proof.Machine
end

