-- ==== Sys2Proof/Certificates/Slice0/Obligations.lean ====
section
/-! DEFINITION. The statements for the provers. -/

open Sys2Proof Sys2Proof.Machine Sys2Proof.Config

/-! ### Encoding -/

/-- 30_encoding.md R111: the words of the nine commands; decode and encode agree in both directions, for all 2^32 words;
the word of a command is `0x000000 || OPCODE`; a word selects command `OPCODE` exactly when `RSVD = 0` and `OPCODE` is in
0x01..0x09, and is illegal otherwise. -/
def Obligations.CommandWordsAreTheNine : Prop :=
  ([Instr.init, .compress, .expand, .pad, .toDigest, .fromDigest, .hash, .hashContinue, .hashBatch].map encode =
    [0x00000001#32, 0x00000002#32, 0x00000003#32, 0x00000004#32, 0x00000005#32, 0x00000006#32, 0x00000007#32,
      0x00000008#32, 0x00000009#32]) ∧
  (∀ (w : Word) (i : Instr), decode w = .command i ↔ w = encode i) ∧
  (∀ i : Instr, encode i = 0x000000#24 ++ opcodeOf i ∧ decodeTableWord 32 (encode i).toNat = some i) ∧
  (∀ w : Word, (∃ i, decode w = .command i) ↔
    w.extractLsb' 8 24 = 0#24 ∧ 0x01#8 ≤ w.extractLsb' 0 8 ∧ w.extractLsb' 0 8 ≤ 0x09#8) ∧
  (∀ w : Word, (∃ why, decode w = .illegal why) ↔
    w.extractLsb' 8 24 ≠ 0#24 ∨ w.extractLsb' 0 8 = 0x00#8 ∨ 0x0A#8 ≤ w.extractLsb' 0 8)

/-- 30_encoding.md R111 and 95_test_vectors.md V-X: words written out from the table decode to the commands they stand
for, and the five illegal words of V-X do not decode. -/
def Obligations.WrittenOutWordsDecode : Prop :=
  decode 0x00000001#32 = .command .init ∧ decode 0x00000004#32 = .command .pad ∧
  decode 0x00000006#32 = .command .fromDigest ∧ decode 0x00000008#32 = .command .hashContinue ∧
  decode 0x00000009#32 = .command .hashBatch ∧ decode 0x00000000#32 = .illegal .reservedOpcode ∧
  decode 0x0000000A#32 = .illegal .reservedOpcode ∧ decode 0x000000FF#32 = .illegal .reservedOpcode ∧
  decode 0x00000107#32 = .illegal .reservedBits ∧ decode 0x80000001#32 = .illegal .reservedBits

/-! ### A step runs the decoded command -/

/-- 42_engine_commands.md (conventions), 30_encoding.md R113: when the control unit moves, the latched word of a
single-message command is decoded and that command is executed; when the host writes HASH_BATCH's word to the idle
engine, HASH_BATCH is executed inside accept. What the step adds is `turn` (the schedule, the tick and the host's turns) and, for
the host, taking the action off its list and latching the command. -/
def Obligations.StepExecutesDecodedCommand : Prop :=
  (∀ (s : State) (i : Instr), s.ctl.phase = .single → decode s.ctl.word = .command i →
    pickAgent s = some .control → step s = exec i (turn s)) ∧
  (∀ (s : State) (c : Word) (rest : List HostAction), s.ctl.phase = .idle → decode c = .command .hashBatch →
    s.host = .wr 0x00C#12 c :: rest → step s = exec .hashBatch (latchCommand { turn s with host := rest } c)) ∧
  (∀ s : State, s.ctl.phase = .single → s.host = [] → pickAgent s = some .control)

/-- Log entry 19 (the model's own placing of a command): after `withFetchWord` the very next step executes the command
placed, on the state that accept leaves, operand registers copied and status cleared, with nothing else changed but the
counters of the free values (log entries 2 and 16). -/
def Obligations.PlacedCommandRunsNext : Prop :=
  (∀ (s : State) (i : Instr), i ≠ .hashBatch →
    step (s.withFetchWord 32 (encode i).toNat) = exec i { s with
      regs := { s.regs with
        cmd := encode i, err := false, errCode := 0x00#8, done := false, result := 0#64, faultAddr := 0#64,
        faultIndex := 0#64 }
      ctl := { phase := .single, word := encode i, src := s.regs.src, dst := s.regs.dst, len := s.regs.len,
               prior := s.regs.prior, workers := s.regs.workers, stateIn := s.regs.hash }
      tick := s.tick + 1
      patience := freePatience s.tick }) ∧
  (∀ s : State, step (s.withFetchWord 32 (encode .hashBatch).toNat) = exec .hashBatch { s with
      regs := { s.regs with
        cmd := encode .hashBatch, err := false, errCode := 0x00#8, done := false, result := 0#64, faultAddr := 0#64,
        faultIndex := 0#64 }
      ctl := { phase := .idle, word := encode .hashBatch, src := s.regs.src, dst := s.regs.dst, len := s.regs.len,
               prior := s.regs.prior, workers := s.regs.workers, stateIn := s.regs.hash }
      tick := s.tick + 1
      patience := freePatience s.tick })

/-! ### The commands, each completing with its result -/

/-- 42_engine_commands.md R220: INIT leaves the IV of 40_compression.md R145 in `STATE` and completes with code 0; it
ignores every operand and makes no memory request, and nothing else changes. -/
def Obligations.InitLoadsIv : Prop :=
  ∀ s : State, exec .init s = .next { s with
    ctl  := idleCtl s.ctl
    regs := doneRegs { s.regs with hash :=
      ⟨0x7380166F#32, 0x4914B2B9#32, 0x172442D7#32, 0xDA8A0600#32, 0xA96F30BC#32, 0x163138AA#32, 0xE38DEE4D#32,
        0xB0FB0E4E#32⟩ } }

/-- 42_engine_commands.md R221: COMPRESS leaves `CF(state_in, b)` in `STATE`, for the 64 bytes `b` at `src`. -/
def Obligations.CompressAppliesCf : Prop :=
  ∀ s : State, readable s (srcOp s) 64 = true →
    ∃ p, exec .compress s = .next { s with
      path := p
      ctl  := idleCtl s.ctl
      regs := doneRegs { s.regs with hash := cf s.ctl.stateIn (readBytes s.mem (srcOp s) 64) } }

/-- 42_engine_commands.md R222: EXPAND writes the expansion dump of the block at `src` to `dst`: 528 bytes, in which the
four bytes at offset `4i` are `W[i]`, big-endian, for `i = 0..67`, and those at offset `272 + 4j` are `W1[j]`, for
`j = 0..63`. -/
def Obligations.ExpandWritesExpansion : Prop :=
  ∀ s : State, readable s (srcOp s) 64 = true → writable s (dstOp s) 528 = true →
    ∃ p dump, exec .expand s = .next { s with
        path := p
        mem  := writeBytes s.mem (dstOp s) dump
        ctl  := idleCtl s.ctl
        regs := doneRegs s.regs } ∧
      dump.length = 528 ∧
      (∀ i, i < 68 →
        dump.getD (4 * i) 0#8 ++ dump.getD (4 * i + 1) 0#8 ++ dump.getD (4 * i + 2) 0#8 ++ dump.getD (4 * i + 3) 0#8 =
          (expandW (readBytes s.mem (srcOp s) 64)).getD i 0#32) ∧
      (∀ j, j < 64 →
        dump.getD (272 + 4 * j) 0#8 ++ dump.getD (272 + 4 * j + 1) 0#8 ++ dump.getD (272 + 4 * j + 2) 0#8 ++
            dump.getD (272 + 4 * j + 3) 0#8 =
          (expandW1 (expandW (readBytes s.mem (srcOp s) 64))).getD j 0#32)

/-- 42_engine_commands.md R223: PAD writes the trailer of the message at `src` to `dst` and its block count to `RESULT`;
only the tail is read, and the trailer buffer is empty afterwards (10_state.md R50). -/
def Obligations.PadWritesTrailer : Prop :=
  ∀ s : State, priorOp s + lenOp s < 2 ^ 61 →
    (0 < lenOp s % 64 → readable s (srcOp s + 64 * (lenOp s / 64)) (lenOp s % 64) = true) →
    writable s (dstOp s) (64 * count (lenOp s)) = true →
    ∃ p, p.trailer = [] ∧ exec .pad s = .next { s with
      path := p
      mem  := writeBytes s.mem (dstOp s) (trailer (readBytes s.mem (srcOp s) (lenOp s)) (priorOp s))
      ctl  := idleCtl s.ctl
      regs := doneRegs { s.regs with result := if lenOp s % 64 ≤ 55 then 1#64 else 2#64 } }

/-- 42_engine_commands.md R224: TO_DIGEST writes the digest form of `state_in` to `dst`. -/
def Obligations.ToDigestWritesState : Prop :=
  ∀ s : State, writable s (dstOp s) 32 = true →
    exec .toDigest s = .next { s with
      mem  := writeBytes s.mem (dstOp s) (toDigestBytes s.ctl.stateIn)
      ctl  := idleCtl s.ctl
      regs := doneRegs s.regs }

/-- 42_engine_commands.md R225: FROM_DIGEST loads the digest at `src` into `STATE`. -/
def Obligations.FromDigestLoadsState : Prop :=
  ∀ s : State, readable s (srcOp s) 32 = true →
    exec .fromDigest s = .next { s with
      ctl  := idleCtl s.ctl
      regs := doneRegs { s.regs with hash := fromDigestBytes (readBytes s.mem (srcOp s) 32) } }

/-- 42_engine_commands.md R226, R210: HASH writes the digest of `Hash(IV, m, 0)` for the `len` bytes `m` at `src`, leaves
the final state in `STATE` and the number of blocks compressed in `RESULT`; no trailer is stored beyond it (10_state.md
R50). -/
def Obligations.HashWritesDigest : Prop :=
  ∀ s : State, lenOp s < 2 ^ 61 → messageReadable s (srcOp s) (lenOp s) → writable s (dstOp s) 32 = true →
    ∃ p, p.trailer = [] ∧ exec .hash s = .next { s with
      path := p
      mem  := writeBytes s.mem (dstOp s) (toDigestBytes (hashOf iv (readBytes s.mem (srcOp s) (lenOp s)) 0))
      ctl  := idleCtl s.ctl
      regs := doneRegs { s.regs with
        hash   := hashOf iv (readBytes s.mem (srcOp s) (lenOp s)) 0
        result := BitVec.ofNat 64 (lenOp s / 64 + count (lenOp s)) } }

/-- 42_engine_commands.md R227: HASH_CONTINUE does the same from `state_in` and `prior`. -/
def Obligations.HashContinueWritesDigest : Prop :=
  ∀ s : State, priorOp s + lenOp s < 2 ^ 61 → messageReadable s (srcOp s) (lenOp s) → writable s (dstOp s) 32 = true →
    ∃ p, p.trailer = [] ∧ exec .hashContinue s = .next { s with
      path := p
      mem  := writeBytes s.mem (dstOp s)
        (toDigestBytes (hashOf s.ctl.stateIn (readBytes s.mem (srcOp s) (lenOp s)) (priorOp s)))
      ctl  := idleCtl s.ctl
      regs := doneRegs { s.regs with
        hash   := hashOf s.ctl.stateIn (readBytes s.mem (srcOp s) (lenOp s)) (priorOp s)
        result := BitVec.ofNat 64 (lenOp s / 64 + count (lenOp s)) } }

/-- 43_batch.md R260, R262: HASH_BATCH of `N > 0` messages starts `nl` lanes in FETCH with `NEXT = 0` and no error
latched; the other lanes, the registers and memory stay as accept left them. 60_exceptions.md R314: every started lane
starts from FETCH with no state carried from an earlier batch: it is one and the same lane `fresh` whatever the state before.
What `fresh` holds beside FETCH is not said. -/
def Obligations.HashBatchStartsLanes : Prop :=
  ∃ fresh : Lane, fresh.lstate = .fetch ∧ ∀ s : State, lenOp s ≠ 0 → batchOverlap s = false →
    ∃ t, exec .hashBatch s = .next t ∧ t.ctl = { s.ctl with phase := .batch } ∧
      t.batch = { count := lenOp s, next := 0,
                  used := min (min (max (if workersOp s = 0 then nLanes s.params else workersOp s) 1) (lenOp s))
                    (nLanes s.params), errv := none } ∧
      t.lanes.length = s.lanes.length ∧
      (∀ (k : Nat) (l : Lane), s.lanes[k]? = some l →
        t.lanes[k]? = some (if k < t.batch.used then fresh else l)) ∧
      t.params = s.params ∧ t.regs = s.regs ∧ t.path = s.path ∧ t.mem = s.mem ∧ t.host = s.host ∧
      t.lastRead = s.lastRead ∧ t.schedule = s.schedule ∧ t.tick = s.tick ∧ t.patience = s.patience

/-- 43_batch.md R269: an empty batch completes with `ERR = 0`, `RESULT = 0` and `DONE = 1`; it starts no lane and makes no
memory request, so `src` and `dst` may be anything and nothing else changes; and this happens at accept, in the step of
the host's `CMD` write. That `NEXT`, `nl` and `errv` are kept is the model's choice (log entry 21), since 10_state.md R52
calls `NEXT` unspecified there. -/
def Obligations.EmptyBatchCompletes : Prop :=
  (∀ s : State, lenOp s = 0 →
    exec .hashBatch s = .next { s with
      batch := { s.batch with count := 0 }
      ctl   := idleCtl s.ctl
      regs  := doneRegs { s.regs with result := 0#64 } }) ∧
  (∀ s : State, busy s = false → s.regs.len = 0#64 →
    ∃ t, writeReg s .cmd 0x00000009#32 = .next t ∧ t.ctl.phase = .idle ∧ t.regs.err = false ∧ t.regs.done = true ∧
      t.regs.result = 0#64 ∧ t.lanes = s.lanes ∧ t.mem = s.mem)

/-! ### Errors -/

/-- 60_exceptions.md R302: when the total byte length a trailer would encode is `2^61` or more, PAD, HASH_CONTINUE and HASH
complete with ERR_LENGTH, whatever the buffers are: no memory is touched, `FAULT_ADDR = 0`, and the rest is unchanged. -/
def Obligations.LengthErrorCompletes : Prop :=
  ∀ s : State,
    (2 ^ 61 ≤ priorOp s + lenOp s →
      exec .pad s = .next { s with ctl := idleCtl s.ctl, regs := failRegs s.regs 0x02#8 0#64 } ∧
      exec .hashContinue s = .next { s with ctl := idleCtl s.ctl, regs := failRegs s.regs 0x02#8 0#64 }) ∧
    (2 ^ 61 ≤ lenOp s →
      exec .hash s = .next { s with ctl := idleCtl s.ctl, regs := failRegs s.regs 0x02#8 0#64 })

/-- 60_exceptions.md R303; 42_engine_commands.md R221 to R227: a read at `src` that is not admitted completes COMPRESS,
EXPAND and FROM_DIGEST with ERR_BUS and `FAULT_ADDR = src`; when everything before it went well and the write at `dst` is
not admitted, the command completes with ERR_BUS and `FAULT_ADDR = dst`, and nothing is written; and when the length and
every block before it are fine and the read of the tail is not admitted, PAD, HASH and HASH_CONTINUE complete with ERR_BUS
and `FAULT_ADDR` is the tail's address. The spec states no value when that address is `2^64` or more (log entry 6), so
there the value is any. Where work came before the failure, what the internal datapath holds is any. -/
def Obligations.BusErrorCompletes : Prop :=
  ∀ s : State,
    (admitted s.params .read (srcOp s) 64 = false →
      exec .compress s = .next { s with ctl := idleCtl s.ctl, regs := failRegs s.regs 0x03#8 s.ctl.src } ∧
      exec .expand s = .next { s with ctl := idleCtl s.ctl, regs := failRegs s.regs 0x03#8 s.ctl.src }) ∧
    (admitted s.params .read (srcOp s) 32 = false →
      exec .fromDigest s = .next { s with ctl := idleCtl s.ctl, regs := failRegs s.regs 0x03#8 s.ctl.src }) ∧
    (readable s (srcOp s) 64 = true → writable s (dstOp s) 528 = false →
      ∃ p, exec .expand s =
        .next { s with path := p, ctl := idleCtl s.ctl, regs := failRegs s.regs 0x03#8 s.ctl.dst }) ∧
    (priorOp s + lenOp s < 2 ^ 61 →
      (0 < lenOp s % 64 → readable s (srcOp s + 64 * (lenOp s / 64)) (lenOp s % 64) = true) →
      writable s (dstOp s) (64 * count (lenOp s)) = false →
      ∃ p, exec .pad s =
        .next { s with path := p, ctl := idleCtl s.ctl, regs := failRegs s.regs 0x03#8 s.ctl.dst }) ∧
    (writable s (dstOp s) 32 = false →
      exec .toDigest s = .next { s with ctl := idleCtl s.ctl, regs := failRegs s.regs 0x03#8 s.ctl.dst } ∧
      (lenOp s < 2 ^ 61 → messageReadable s (srcOp s) (lenOp s) →
        ∃ p, exec .hash s =
          .next { s with path := p, ctl := idleCtl s.ctl, regs := failRegs s.regs 0x03#8 s.ctl.dst }) ∧
      (priorOp s + lenOp s < 2 ^ 61 → messageReadable s (srcOp s) (lenOp s) →
        ∃ p, exec .hashContinue s =
          .next { s with path := p, ctl := idleCtl s.ctl, regs := failRegs s.regs 0x03#8 s.ctl.dst })) ∧
    (0 < lenOp s % 64 → admitted s.params .read (srcOp s + 64 * (lenOp s / 64)) (lenOp s % 64) = false →
      ∃ a, (srcOp s + 64 * (lenOp s / 64) < 2 ^ 64 → a.toNat = srcOp s + 64 * (lenOp s / 64)) ∧
        (priorOp s + lenOp s < 2 ^ 61 →
          exec .pad s = .next { s with ctl := idleCtl s.ctl, regs := failRegs s.regs 0x03#8 a }) ∧
        ((∀ k, k < lenOp s / 64 → readable s (srcOp s + 64 * k) 64 = true) →
          (lenOp s < 2 ^ 61 →
            ∃ p, exec .hash s = .next { s with path := p, ctl := idleCtl s.ctl, regs := failRegs s.regs 0x03#8 a }) ∧
          (priorOp s + lenOp s < 2 ^ 61 →
            ∃ p, exec .hashContinue s =
              .next { s with path := p, ctl := idleCtl s.ctl, regs := failRegs s.regs 0x03#8 a })))

/-- 60_exceptions.md R303; 42_engine_commands.md R226, R227: HASH and HASH_CONTINUE stop at the first block, in increasing
address, whose read is not admitted, and `FAULT_ADDR` is that block's address. The spec states no value when the address
is `2^64` or more (log entry 6), so there the value is any. What the internal datapath holds is any. -/
def Obligations.HashStopsAtFirstBadBlock : Prop :=
  ∀ (s : State) (k : Nat), k < lenOp s / 64 →
    (∀ j, j < k → readable s (srcOp s + 64 * j) 64 = true) →
    admitted s.params .read (srcOp s + 64 * k) 64 = false →
    ∃ a, (srcOp s + 64 * k < 2 ^ 64 → a.toNat = srcOp s + 64 * k) ∧
      (lenOp s < 2 ^ 61 →
        ∃ p, exec .hash s = .next { s with path := p, ctl := idleCtl s.ctl, regs := failRegs s.regs 0x03#8 a }) ∧
      (priorOp s + lenOp s < 2 ^ 61 →
        ∃ p, exec .hashContinue s =
          .next { s with path := p, ctl := idleCtl s.ctl, regs := failRegs s.regs 0x03#8 a })

/-- 60_exceptions.md R306: errors are precise. A single-message command that completes with an error leaves `STATE`,
`RESULT`, all of memory and everything else as it was, but for the completion itself, `FAULT_ADDR` and the internal
datapath, of which nothing is said; and the code is ERR_LENGTH or ERR_BUS. -/
def Obligations.FailedCommandsArePrecise : Prop :=
  ∀ (i : Instr) (s t : State), i ≠ .hashBatch → exec i s = .next t → t.regs.err = true →
    ∃ code a p, (code = 0x02#8 ∨ code = 0x03#8) ∧
      t = { s with path := p, ctl := idleCtl s.ctl, regs := failRegs s.regs code a }

/-- 20_memory.md R88; 70_reset_and_hazards.md R353: an admitted engine read of host memory that is not plain is outside the
model, whichever read of whichever command it is: the block or digest at `src`, a tail, a block of a message, and a lane's
descriptor, block or tail. -/
def Obligations.ReadOfSideEffectsIsRefused : Prop :=
  (∀ s : State,
    (hasSideEffects s (srcOp s) 64 = true →
      exec .compress s = .refused .notPlainMemory ∧ exec .expand s = .refused .notPlainMemory) ∧
    (hasSideEffects s (srcOp s) 32 = true → exec .fromDigest s = .refused .notPlainMemory) ∧
    (∀ k, k < lenOp s / 64 → (∀ j, j < k → readable s (srcOp s + 64 * j) 64 = true) →
      hasSideEffects s (srcOp s + 64 * k) 64 = true →
      (lenOp s < 2 ^ 61 → exec .hash s = .refused .notPlainMemory) ∧
      (priorOp s + lenOp s < 2 ^ 61 → exec .hashContinue s = .refused .notPlainMemory)) ∧
    (0 < lenOp s % 64 → hasSideEffects s (srcOp s + 64 * (lenOp s / 64)) (lenOp s % 64) = true →
      (priorOp s + lenOp s < 2 ^ 61 → exec .pad s = .refused .notPlainMemory) ∧
      ((∀ k, k < lenOp s / 64 → readable s (srcOp s + 64 * k) 64 = true) →
        (lenOp s < 2 ^ 61 → exec .hash s = .refused .notPlainMemory) ∧
        (priorOp s + lenOp s < 2 ^ 61 → exec .hashContinue s = .refused .notPlainMemory)))) ∧
  (∀ (s : State) (k : Nat) (l : Lane), s.lanes[k]? = some l → l.lstate = .work →
    hasSideEffects s (srcOp s + 16 * l.idx) 16 = true ∨
      (readable s (srcOp s + 16 * l.idx) 16 = true ∧ descriptorMsgLen (descriptorBytes s l.idx) < 2 ^ 61 ∧
        ((∃ b, b < descriptorMsgLen (descriptorBytes s l.idx) / 64 ∧
            (∀ j, j < b → readable s (descriptorMsgAddr (descriptorBytes s l.idx) + 64 * j) 64 = true) ∧
            hasSideEffects s (descriptorMsgAddr (descriptorBytes s l.idx) + 64 * b) 64 = true) ∨
         (0 < descriptorMsgLen (descriptorBytes s l.idx) % 64 ∧
            (∀ j, j < descriptorMsgLen (descriptorBytes s l.idx) / 64 →
              readable s (descriptorMsgAddr (descriptorBytes s l.idx) + 64 * j) 64 = true) ∧
            hasSideEffects s
              (descriptorMsgAddr (descriptorBytes s l.idx) + 64 * (descriptorMsgLen (descriptorBytes s l.idx) / 64))
              (descriptorMsgLen (descriptorBytes s l.idx) % 64) = true))) →
    laneStep s k = .refused .notPlainMemory)

/-! ### Frames -/

/-- 20_memory.md R86, R89; 10_state.md R45: the commands that store change no byte of memory outside the bytes they
write at `dst`, and of the rest only the datapath, the completion's registers, `FAULT_ADDR`, and `STATE` and `RESULT`
where the command writes them. That the batch controller keeps its values outside a batch is the model's choice (log
entry 21). -/
def Obligations.StoringCommandsFrame : Prop :=
  ∀ (i : Instr) (s t : State), i ∈ [Instr.expand, .pad, .toDigest, .hash, .hashContinue] → exec i s = .next t →
    (∀ x, ¬ (dstOp s ≤ x ∧ x < dstOp s + (if i = .expand then 528 else if i = .pad then 64 * count (lenOp s) else 32)) →
      readByte t.mem x = readByte s.mem x) ∧
    (i ∈ [Instr.expand, .pad, .toDigest] → t.regs.hash = s.regs.hash) ∧
    (i ∈ [Instr.expand, .toDigest] → t.regs.result = s.regs.result) ∧
    t.regs.irqEn = s.regs.irqEn ∧ t.regs.cmd = s.regs.cmd ∧ t.regs.overrun = s.regs.overrun ∧
    t.regs.src = s.regs.src ∧ t.regs.dst = s.regs.dst ∧ t.regs.len = s.regs.len ∧ t.regs.prior = s.regs.prior ∧
    t.regs.workers = s.regs.workers ∧ t.regs.faultIndex = s.regs.faultIndex ∧
    t.ctl = idleCtl s.ctl ∧ t.params = s.params ∧ t.batch = s.batch ∧ t.lanes = s.lanes ∧ t.host = s.host ∧
    t.lastRead = s.lastRead ∧ t.schedule = s.schedule ∧ t.tick = s.tick ∧ t.patience = s.patience

/-- 20_memory.md R86; 10_state.md R45: the commands that store nothing (INIT, COMPRESS, FROM_DIGEST) and the start of
HASH_BATCH leave every byte of memory alone, and HASH_BATCH does not touch `STATE`. That the batch controller keeps its
values outside a batch is the model's choice (log entry 21). -/
def Obligations.NonStoringCommandsFrame : Prop :=
  ∀ (i : Instr) (s t : State), i ∈ [Instr.init, .compress, .fromDigest, .hashBatch] → exec i s = .next t →
    (∀ x, readByte t.mem x = readByte s.mem x) ∧
    (i = .hashBatch → t.regs.hash = s.regs.hash ∧ t.regs.faultAddr = s.regs.faultAddr ∧ t.path = s.path) ∧
    (i ≠ .hashBatch → t.regs.result = s.regs.result ∧ t.batch = s.batch ∧ t.lanes = s.lanes) ∧
    t.regs.irqEn = s.regs.irqEn ∧ t.regs.cmd = s.regs.cmd ∧ t.regs.overrun = s.regs.overrun ∧
    t.regs.src = s.regs.src ∧ t.regs.dst = s.regs.dst ∧ t.regs.len = s.regs.len ∧ t.regs.prior = s.regs.prior ∧
    t.regs.workers = s.regs.workers ∧ t.regs.faultIndex = s.regs.faultIndex ∧
    t.params = s.params ∧ t.host = s.host ∧ t.lastRead = s.lastRead ∧ t.schedule = s.schedule ∧ t.tick = s.tick ∧ t.patience = s.patience

/-! ### Registers, accept and reset -/

/-- 10_state.md R30: the register map, with the table's own offsets; no other offset has a register; an access at a
register's offset reads or writes it, and an offset without a register reads 0 and ignores writes. -/
def Obligations.RegisterMapAndReserved : Prop :=
  (regAt 0x000#12 = some .id ∧ regAt 0x004#12 = some .cap ∧ regAt 0x008#12 = some .ctrl ∧ regAt 0x00C#12 = some .cmd ∧
    regAt 0x010#12 = some .status ∧ regAt 0x014#12 = some .irqStatus ∧
    regAt 0x018#12 = some .resultLo ∧ regAt 0x01C#12 = some .resultHi ∧
    regAt 0x020#12 = some .srcLo ∧ regAt 0x024#12 = some .srcHi ∧
    regAt 0x028#12 = some .dstLo ∧ regAt 0x02C#12 = some .dstHi ∧
    regAt 0x030#12 = some .lenLo ∧ regAt 0x034#12 = some .lenHi ∧
    regAt 0x038#12 = some .priorLo ∧ regAt 0x03C#12 = some .priorHi ∧ regAt 0x040#12 = some .workers ∧
    regAt 0x048#12 = some .faultAddrLo ∧ regAt 0x04C#12 = some .faultAddrHi ∧
    regAt 0x050#12 = some .faultIndexLo ∧ regAt 0x054#12 = some .faultIndexHi ∧
    regAt 0x060#12 = some (.state 0) ∧ regAt 0x064#12 = some (.state 1) ∧ regAt 0x068#12 = some (.state 2) ∧
    regAt 0x06C#12 = some (.state 3) ∧ regAt 0x070#12 = some (.state 4) ∧ regAt 0x074#12 = some (.state 5) ∧
    regAt 0x078#12 = some (.state 6) ∧ regAt 0x07C#12 = some (.state 7)) ∧
  (∀ (o : BitVec 12) (r : Reg), regAt o = some r → o = regOffset r ∧ o.toNat % 4 = 0 ∧ o.toNat < 0x080) ∧
  (∀ (s : State) (o : BitVec 12) (r : Reg) (v : Word), regAt o = some r →
    readOffset s o = readReg s r ∧ writeOffset s o v = writeReg s r v) ∧
  (∀ (s : State) (o : BitVec 12) (v : Word),
    o = 0x044#12 ∨ o = 0x058#12 ∨ o = 0x05C#12 ∨ 0x080#12 ≤ o → readOffset s o = 0#32 ∧ writeOffset s o v = .next s)

/-- 10_state.md R30 to R45: what the registers read: the identification and status registers, `CMD` and `WORKERS`, the two
halves of every 64-bit register (`NAME_HI || NAME_LO`, R30), and `STATEk` as word `k` of the HashState. `CMD` reads the
whole accepted word, an illegal one too: R34, which the model follows against 93_implementation_defined.md U2 (log entry
23). -/
def Obligations.StatusRegistersRead : Prop :=
  ∀ s : State,
    readReg s .id = 0x00534D33#32 ∧
    (readReg s .cap).toNat = nLanes s.params ∧ 1 ≤ nLanes s.params ∧ nLanes s.params ≤ 255 ∧
    readReg s .ctrl = (if s.regs.irqEn then 1#32 else 0#32) ∧
    readReg s .irqStatus = (if s.regs.done then 1#32 else 0#32) ∧
    (readReg s .status).extractLsb' 8 8 = s.regs.errCode ∧
    (readReg s .status).extractLsb' 16 16 = 0#16 ∧ (readReg s .status).extractLsb' 3 5 = 0#5 ∧
    (readReg s .status).getLsbD 0 = decide (s.ctl.phase ≠ .idle) ∧ (readReg s .status).getLsbD 1 = s.regs.err ∧
    (readReg s .status).getLsbD 2 = s.regs.overrun ∧
    readReg s .cmd = s.regs.cmd ∧ readReg s .workers = s.regs.workers ∧
    readReg s .resultHi ++ readReg s .resultLo = s.regs.result ∧
    readReg s .srcHi ++ readReg s .srcLo = s.regs.src ∧ readReg s .dstHi ++ readReg s .dstLo = s.regs.dst ∧
    readReg s .lenHi ++ readReg s .lenLo = s.regs.len ∧ readReg s .priorHi ++ readReg s .priorLo = s.regs.prior ∧
    readReg s .faultAddrHi ++ readReg s .faultAddrLo = s.regs.faultAddr ∧
    readReg s .faultIndexHi ++ readReg s .faultIndexLo = s.regs.faultIndex ∧
    [readReg s (.state 0), readReg s (.state 1), readReg s (.state 2), readReg s (.state 3), readReg s (.state 4),
        readReg s (.state 5), readReg s (.state 6), readReg s (.state 7)] =
      [s.regs.hash.v0, s.regs.hash.v1, s.regs.hash.v2, s.regs.hash.v3, s.regs.hash.v4, s.regs.hash.v5, s.regs.hash.v6,
        s.regs.hash.v7]

/-- The registers a host write can change while the engine is idle: the argument registers (10_state.md R46). -/
def Obligations.ArgumentRegistersHoldWrites : Prop :=
  ∀ (s : State) (r : Reg) (v : Word), busy s = false →
    r ∈ [Reg.srcLo, .srcHi, .dstLo, .dstHi, .lenLo, .lenHi, .priorLo, .priorHi, .workers] ∨ (∃ k, r = .state k) →
    ∃ t, writeReg s r v = .next t ∧ t = { s with regs := t.regs } ∧ readReg t r = v ∧
      ∀ r', r' ≠ r → readReg t r' = readReg s r'

/-- 10_state.md R34, R46; 60_exceptions.md R309: while busy, a write of `CMD` or of an argument register is ignored and
sets `OVERRUN`, and nothing else changes. -/
def Obligations.WritesWhileBusyAreIgnored : Prop :=
  ∀ (s : State) (r : Reg) (v : Word), busy s = true →
    r ∈ [Reg.cmd, .srcLo, .srcHi, .dstLo, .dstHi, .lenLo, .lenHi, .priorLo, .priorHi, .workers] ∨ (∃ k, r = .state k) →
    writeReg s r v = .next { s with regs := { s.regs with overrun := true } }

/-- 10_state.md R30, R33, R35, R36: writes of the read-only registers are ignored; `OVERRUN` and `DONE` are cleared by
writing 1 and by nothing else in their registers; `IRQ_EN` takes its bit; all of it busy or not. -/
def Obligations.ControlAndStatusWrites : Prop :=
  ∀ (s : State) (v : Word),
    (∀ r ∈ [Reg.id, .cap, .resultLo, .resultHi, .faultAddrLo, .faultAddrHi, .faultIndexLo, .faultIndexHi],
      writeReg s r v = .next s) ∧
    writeReg s .status v = .next { s with regs := { s.regs with
      overrun := if v.getLsbD 2 then false else s.regs.overrun } } ∧
    writeReg s .irqStatus v = .next { s with regs := { s.regs with
      done := if v.getLsbD 0 then false else s.regs.done } } ∧
    (v.getLsbD 1 = false → writeReg s .ctrl v = .next { s with regs := { s.regs with irqEn := v.getLsbD 0 } })

/-- 30_encoding.md R113; 43_batch.md R260: accept. `CMD` holds the word, the last command's status is cleared, the operands
are copied; a single-message command leaves the control unit in `SINGLE`, HASH_BATCH runs its start step in the same
step; `OVERRUN` and everything else stay. -/
def Obligations.AcceptLatchesCommand : Prop :=
  ∀ (s : State) (c : Word) (i : Instr), busy s = false → decode c = .command i →
    (i ≠ .hashBatch → writeReg s .cmd c = .next { s with
      regs := { s.regs with
        cmd := c, err := false, errCode := 0x00#8, done := false, result := 0#64, faultAddr := 0#64,
        faultIndex := 0#64 }
      ctl := { phase := .single, word := c, src := s.regs.src, dst := s.regs.dst, len := s.regs.len,
               prior := s.regs.prior, workers := s.regs.workers, stateIn := s.regs.hash } }) ∧
    (i = .hashBatch → writeReg s .cmd c = exec .hashBatch { s with
      regs := { s.regs with
        cmd := c, err := false, errCode := 0x00#8, done := false, result := 0#64, faultAddr := 0#64,
        faultIndex := 0#64 }
      ctl := { phase := .idle, word := c, src := s.regs.src, dst := s.regs.dst, len := s.regs.len,
               prior := s.regs.prior, workers := s.regs.workers, stateIn := s.regs.hash } })

/-- 30_encoding.md R114; 60_exceptions.md R301: an illegal word is accepted and completes in the same step with
ERR_ILLEGAL_CMD; no memory request, `STATE` keeps its value, `RESULT`, `FAULT_ADDR` and `FAULT_INDEX` are 0. -/
def Obligations.IllegalWordCompletes : Prop :=
  ∀ (s : State) (c : Word), busy s = false →
    c.extractLsb' 8 24 ≠ 0#24 ∨ c.extractLsb' 0 8 = 0x00#8 ∨ 0x0A#8 ≤ c.extractLsb' 0 8 →
    writeReg s .cmd c = .next { s with
      regs := { s.regs with
        cmd := c, err := true, errCode := 0x01#8, done := true, result := 0#64, faultAddr := 0#64, faultIndex := 0#64 }
      ctl := { phase := .idle, word := c, src := s.regs.src, dst := s.regs.dst, len := s.regs.len,
               prior := s.regs.prior, workers := s.regs.workers, stateIn := s.regs.hash } }

/-- 70_reset_and_hazards.md R345: what reads return while busy, in every state that meets the invariant. -/
def Obligations.ReadsWhileBusy : Prop :=
  ∀ s : State, s.Inv → busy s = true →
    (readReg s .status).getLsbD 0 = true ∧ (readReg s .status).getLsbD 1 = false ∧
    (readReg s .status).extractLsb' 8 8 = 0x00#8 ∧
    (∀ r ∈ [Reg.resultLo, .resultHi, .faultAddrLo, .faultAddrHi, .faultIndexLo, .faultIndexHi], readReg s r = 0#32) ∧
    (∀ k, readReg s (.state k) = hashWord s.ctl.stateIn k) ∧ readReg s .cmd = s.ctl.word

/-- 60_exceptions.md R307, R308: the interrupt output is asserted exactly when `IRQ_EN` and `DONE` are 1; it falls when
`DONE` is cleared, when it is masked (`DONE` staying), at accept of a command (one that completes in the accept step sets
`DONE` again), and at a reset, soft or hard; and a completion while masked shows as soon as `IRQ_EN` is set. -/
def Obligations.InterruptLevel : Prop :=
  ∀ s : State,
    (irq s = true ↔ s.regs.irqEn = true ∧ s.regs.done = true) ∧
    (∀ v t, v.getLsbD 0 = true → writeReg s .irqStatus v = .next t → irq t = false) ∧
    (∀ v t, v.getLsbD 0 = false → v.getLsbD 1 = false → writeReg s .ctrl v = .next t →
      irq t = false ∧ t.regs.done = s.regs.done) ∧
    (∀ v t, v.getLsbD 0 = true → v.getLsbD 1 = false → s.regs.done = true → writeReg s .ctrl v = .next t →
      irq t = true) ∧
    (∀ v t, v.getLsbD 1 = true → writeReg s .ctrl v = .next t → irq t = false) ∧
    (∀ t, hostDo s .hardReset = .next t → irq t = false) ∧
    (∀ c t, busy s = false → writeReg s .cmd c = .next t → busy t = true → irq t = false)

/-- 10_state.md R63: after a reset with any parameters every offset reads 0 but `ID` and `CAP`, the control unit is idle,
every lane is OFF, and the interrupt is low. -/
def Obligations.ResetLeavesZeros : Prop :=
  ∀ p : Params,
    (∀ o : BitVec 12, readOffset (State.resetWith p) o =
      if o = 0x000#12 then 0x00534D33#32 else if o = 0x004#12 then BitVec.ofNat 32 (nLanes p) else 0#32) ∧
    (State.resetWith p).ctl.phase = .idle ∧ irq (State.resetWith p) = false ∧
    (State.resetWith p).lanes.length = nLanes p ∧ ∀ l ∈ (State.resetWith p).lanes, l.lstate = .off

/-- 70_reset_and_hazards.md R340, R342: a write of `CTRL` with `SRST = 1`, busy or not, does what the reset input does:
every register takes its reset value, the engine is idle, lanes are OFF; memory changes in the destination region of the
command it abandons only, and not at all when the engine was idle. -/
def Obligations.SoftResetIsReset : Prop :=
  ∀ (s : State) (v : Word), v.getLsbD 1 = true →
    writeReg s .ctrl v = hostDo s .hardReset ∧
    ∃ t, hostDo s .hardReset = .next t ∧ t.regs = (State.resetWith s.params).regs ∧ t.ctl.phase = .idle ∧
      (∀ l ∈ t.lanes, l.lstate = .off) ∧ t.lanes.length = nLanes s.params ∧ t.params = s.params ∧
      (busy s = false → t.mem = s.mem) ∧
      ∀ i x, decode s.ctl.word = .command i →
        ¬ ((destRegion s i).lo ≤ x ∧ x < (destRegion s i).lo + (destRegion s i).len) →
        readByte t.mem x = readByte s.mem x

/-! ### The host's duties -/

/-- 70_reset_and_hazards.md R352: an access to the register window that is not an aligned 32-bit access is outside the
model; an aligned read returns the register and changes nothing else, and an aligned write is the write of the register
at that offset (30_encoding.md R116). That a load or store of host memory touching the window is refused, whatever its
width and alignment, is the model's choice (log entry 14): the window's 32-bit accesses are actions of their own. -/
def Obligations.RegisterAccessDuty : Prop :=
  ∀ (s : State) (o : BitVec 12) (v : Word),
    (o.toNat % 4 ≠ 0 → hostDo s (.rd o) = .refused .registerAccessDuty ∧
      hostDo s (.wr o v) = .refused .registerAccessDuty) ∧
    (o.toNat % 4 = 0 → hostDo s (.rd o) = .next { s with lastRead := .word (readOffset s o) } ∧
      (∀ r, regAt o = some r → hostDo s (.wr o v) = writeReg s r v) ∧
      (regAt o = none → hostDo s (.wr o v) = .next s)) ∧
    (∀ (a : DWord) (b : List Byte), a.toNat + b.length ≤ 2 ^ 64 → b ≠ [] →
      (∃ x, (a.toNat ≤ x ∧ x < a.toNat + b.length) ∧ regBase s.params ≤ x ∧ x < regBase s.params + 0x1000) →
      hostDo s (.store a b) = .refused .registerAccessDuty ∧
      hostDo s (.load a b.length) = .refused .registerAccessDuty)

/-- 70_reset_and_hazards.md R353: between accept and completion of a command, whichever it is, a host store that has a byte
in a source region or in a destination region of the command, and a host load that has one in a destination region, are
outside the model; every other store and load of existing host memory outside the window happens. The regions are those of
20_memory.md R86; for HASH_BATCH the descriptor table, every message whose descriptor can be read (log entry 10), and the
digest array. -/
def Obligations.BufferDuty : Prop :=
  ∀ (s : State) (i : Instr) (a : DWord) (v : List Byte), busy s = true → decode s.ctl.word = .command i →
    a.toNat + v.length ≤ 2 ^ 64 →
    (∀ x, a.toNat ≤ x → x < a.toNat + v.length → ¬ (regBase s.params ≤ x ∧ x < regBase s.params + 0x1000)) →
    ((∃ x, a.toNat ≤ x ∧ x < a.toNat + v.length ∧ (SourceByte s x i ∨ DestByte s x i)) →
      hostDo s (.store a v) = .refused .bufferDuty) ∧
    ((∀ x, a.toNat ≤ x → x < a.toNat + v.length → ¬ SourceByte s x i ∧ ¬ DestByte s x i) →
      hostDo s (.store a v) = .next { s with mem := writeBytes s.mem a.toNat v }) ∧
    ((∃ x, a.toNat ≤ x ∧ x < a.toNat + v.length ∧ DestByte s x i) →
      hostDo s (.load a v.length) = .refused .bufferDuty) ∧
    ((∀ x, a.toNat ≤ x → x < a.toNat + v.length → ¬ DestByte s x i) →
      hostDo s (.load a v.length) = .next { s with lastRead := .bytes (readBytes s.mem a.toNat v.length) })

/-- 70_reset_and_hazards.md R355: a launch of HASH_BATCH is refused exactly when the digest array has a byte in common with
the descriptor table or with a message; of a descriptor that cannot be read there is no message (log entry 11). -/
def Obligations.BatchOverlapDuty : Prop :=
  ∀ s : State, lenOp s ≠ 0 →
    (exec .hashBatch s = .refused .batchOverlapDuty ↔
      ∃ x, (dstOp s ≤ x ∧ x < dstOp s + 32 * lenOp s) ∧
        ((srcOp s ≤ x ∧ x < srcOp s + 16 * lenOp s) ∨
         ∃ i, i < lenOp s ∧ admitted s.params .read (srcOp s + 16 * i) 16 = true ∧
           (le64 (readBytes s.mem (srcOp s + 16 * i) 8)).toNat ≤ x ∧
           x < (le64 (readBytes s.mem (srcOp s + 16 * i) 8)).toNat +
             (le64 (readBytes s.mem (srcOp s + 16 * i + 8) 8)).toNat))

/-! ### Memory requests -/

/-- 20_memory.md R85: an admitted read of plain memory returns the bytes at `a .. a+n-1`; an admitted write sets exactly
those bytes; a request that is not admitted moves no byte and raises ERR_BUS with its start address. -/
def Obligations.RequestsMoveTheirBytes : Prop :=
  ∀ (s : State) (a n : Nat) (v : List Byte),
    (a + n ≤ 2 ^ 64 → admits s.params .read a n = true → plain s.params a n = true →
      ∃ b, memRead s a n = .ok b ∧ b.length = n ∧ ∀ i, i < n → b.getD i 0#8 = readByte s.mem (a + i)) ∧
    (s.mem.wf = true → a + v.length ≤ 2 ^ 64 → admits s.params .write a v.length = true →
      ∃ m, memWrite s a v = .ok { s with mem := m } ∧
        (∀ i, i < v.length → readByte m (a + i) = v.getD i 0#8) ∧
        ∀ x, ¬ (a ≤ x ∧ x < a + v.length) → readByte m x = readByte s.mem x) ∧
    (2 ^ 64 < a + n ∨ admits s.params .read a n = false →
      ∃ f, memRead s a n = .error (.raise .bus f) ∧ (a < 2 ^ 64 → f = BitVec.ofNat 64 a)) ∧
    (2 ^ 64 < a + v.length ∨ admits s.params .write a v.length = false →
      ∃ f, memWrite s a v = .error (.raise .bus f) ∧ (a < 2 ^ 64 → f = BitVec.ofNat 64 a))

/-! ### The pure functions -/

/-- 40_compression.md R140: `rotl` is the circular left rotation: bit `i` goes to bit `(i + n) mod 32`, and a rotation by
`n + 32` is the rotation by `n`. -/
def Obligations.RotationIsCircular : Prop :=
  ∀ (x : Word) (n : Nat), (∀ i, i < 32 → (rotl x n).getLsbD ((i + n) % 32) = x.getLsbD i) ∧
    rotl x (n + 32) = rotl x n

/-- 40_compression.md R149, R150, R151: the expansion words of a block. -/
def Obligations.ExpansionRecurrence : Prop :=
  ∀ b : List Byte, b.length = 64 →
    (∀ i, i < 16 → (expandW b).getD i 0#32 =
      be32 (b.getD (4 * i) 0#8) (b.getD (4 * i + 1) 0#8) (b.getD (4 * i + 2) 0#8) (b.getD (4 * i + 3) 0#8)) ∧
    (∀ i, 16 ≤ i → i ≤ 67 → (expandW b).getD i 0#32 =
      p1 ((expandW b).getD (i - 16) 0#32 ^^^ (expandW b).getD (i - 9) 0#32 ^^^ rotl ((expandW b).getD (i - 3) 0#32) 15)
        ^^^ rotl ((expandW b).getD (i - 13) 0#32) 7 ^^^ (expandW b).getD (i - 6) 0#32) ∧
    (∀ j, j < 64 → (expandW1 (expandW b)).getD j 0#32 =
      (expandW b).getD j 0#32 ^^^ (expandW b).getD (j + 4) 0#32) ∧
    (expandW b).length = 68 ∧ (expandW1 (expandW b)).length = 64

/-- 41_padder_codec.md R180, R181, R183, R184, R188: the block count; the padding suffix is 0x80, zero fill and the
big-endian bit length; it
fills the message up to `PaddedLen`, a multiple of 64; below the length bound the length field loses nothing; and (R188)
only the length field depends on `prior`. -/
def Obligations.PaddingFillsBlocks : Prop :=
  ∀ len prior : Nat,
    (∀ prior', (padSuffix len prior').length = (padSuffix len prior).length ∧
      (padSuffix len prior').take ((padSuffix len prior).length - 8) =
        (padSuffix len prior).take ((padSuffix len prior).length - 8)) ∧
    count len = (if len % 64 ≤ 55 then 1 else 2) ∧ paddedLen len = 64 * (len / 64 + count len) ∧
    (padSuffix len prior).length = 64 * count len - len % 64 ∧
    9 ≤ (padSuffix len prior).length ∧ (padSuffix len prior).length ≤ 72 ∧
    (len + (padSuffix len prior).length) % 64 = 0 ∧ len + (padSuffix len prior).length = paddedLen len ∧
    (padSuffix len prior).head? = some 0x80#8 ∧
    (∀ i, 1 ≤ i → i < (padSuffix len prior).length - 8 → (padSuffix len prior).getD i 0xFF#8 = 0x00#8) ∧
    (prior + len < 2 ^ 61 →
      (((padSuffix len prior).drop ((padSuffix len prior).length - 8)).foldl (fun n b => n * 256 + b.toNat) 0)
        = (prior + len) * 8)

/-- 40_compression.md R155 and 95_test_vectors.md V-D5: `CF` of the padded "abc" block from the IV, and of a block of zeros
from a state of zeros. -/
def Obligations.CompressionVectors : Prop :=
  cf iv ([0x61#8, 0x62#8, 0x63#8, 0x80#8] ++ zeros 59 ++ [0x18#8]) =
    ⟨0x66C7F0F4#32, 0x62EEEDD9#32, 0xD1F2D46B#32, 0xDC10E4E2#32, 0x4167C487#32, 0x5CF2F7A2#32, 0x297DA02B#32,
      0x8F4BA8E0#32⟩ ∧
  cf zeroHash (zeros 64) =
    ⟨0x2762550F#32, 0x18134933#32, 0xBA35CE4E#32, 0x0A757E65#32, 0x8C0E7205#32, 0xFE9E4FF6#32, 0x5AC5C88B#32,
      0xA3649AC2#32⟩

/-- 41_padder_codec.md R185, R186, R187: digest byte `4k + i` is bits `[31 - 8i : 24 - 8i]` of `V[k]`; word `k` of a digest
is its bytes `4k .. 4k + 3`, the first most significant; and the codec round trip holds both ways. -/
def Obligations.CodecRoundTrip : Prop :=
  (∀ v : HashState, (toDigestBytes v).length = 32 ∧
    ∀ (k : Fin 8) (i : Nat), i < 4 →
      (toDigestBytes v).getD (4 * k.val + i) 0#8 = (hashWord v k).extractLsb' (24 - 8 * i) 8) ∧
  (∀ (d : List Byte) (k : Fin 8), d.length = 32 →
    hashWord (fromDigestBytes d) k = d.getD (4 * k.val) 0#8 ++ d.getD (4 * k.val + 1) 0#8 ++
      d.getD (4 * k.val + 2) 0#8 ++ d.getD (4 * k.val + 3) 0#8) ∧
  (∀ v : HashState, fromDigestBytes (toDigestBytes v) = v) ∧
  (∀ d : List Byte, d.length = 32 → toDigestBytes (fromDigestBytes d) = d)

/-- 42_engine_commands.md R212: length extension. -/
def Obligations.LengthExtension : Prop :=
  ∀ p m : List Byte, paddedLen p.length + m.length < 2 ^ 61 →
    hashOf (fromDigestBytes (toDigestBytes (hashOf iv p 0))) m (paddedLen p.length) =
      hashOf iv (p ++ padSuffix p.length 0 ++ m) 0

/-- 42_engine_commands.md R227 (corner case): with `state_in = IV` and `prior = 0`, HASH_CONTINUE does what HASH does. -/
def Obligations.HashContinueFromIvIsHash : Prop :=
  ∀ s : State, s.ctl.stateIn = iv → priorOp s = 0 → exec .hashContinue s = exec .hash s

/-- 42_engine_commands.md R211: no hidden state. What a single-message command does to memory, `STATE`, `RESULT`, the
status and `FAULT_ADDR` depends on the parameters, the accept-time copies, memory and those registers alone, not on what
the datapath, the lanes, the batch controller or the host's plans hold. The counter of the free values is the model's
own (log entry 6). -/
def Obligations.NoHiddenState : Prop :=
  ∀ (i : Instr) (s s' t : State), i ≠ .hashBatch → s.params = s'.params → s.ctl = s'.ctl → s.mem = s'.mem →
    s.regs = s'.regs → s.tick = s'.tick → exec i s = .next t →
    ∃ t', exec i s' = .next t' ∧ t'.mem = t.mem ∧ t'.regs = t.regs ∧ t'.ctl = t.ctl

/-! ### The batch controller -/

/-- 43_batch.md R263; 20_memory.md R98: a lane's fetch step: after a latched error the lane retires and `NEXT` stays; else
`NEXT` goes up by one, and the lane works on the old value if it is an index of the batch, or retires. -/
def Obligations.LaneFetchStep : Prop :=
  ∀ (s : State) (k : Nat) (l : Lane), s.lanes[k]? = some l → l.lstate = .fetch →
    (s.batch.errv ≠ none →
      laneStep s k = .next { s with lanes := s.lanes.set k { l with lstate := .retired } }) ∧
    (s.batch.errv = none → s.batch.count ≤ s.batch.next →
      laneStep s k = .next { s with
        batch := { s.batch with next := s.batch.next + 1 }
        lanes := s.lanes.set k { l with lstate := .retired } }) ∧
    (s.batch.errv = none → s.batch.next < s.batch.count →
      laneStep s k = .next { s with
        batch := { s.batch with next := s.batch.next + 1 }
        lanes := s.lanes.set k { l with lstate := .work, idx := s.batch.next } })

/-- 43_batch.md R264: a lane's work step writes the digest of its message to its slot and the lane goes back to FETCH; no
trailer is stored beyond it (10_state.md R50). -/
def Obligations.LaneWorkStep : Prop :=
  ∀ (s : State) (k : Nat) (l : Lane), s.lanes[k]? = some l → l.lstate = .work →
    readable s (srcOp s + 16 * l.idx) 16 = true → descriptorMsgLen (descriptorBytes s l.idx) < 2 ^ 61 →
    messageReadable s (descriptorMsgAddr (descriptorBytes s l.idx)) (descriptorMsgLen (descriptorBytes s l.idx)) →
    writable s (dstOp s + 32 * l.idx) 32 = true →
    ∃ q, q.trailer = [] ∧ laneStep s k = .next { s with
      mem   := writeBytes s.mem (dstOp s + 32 * l.idx) (toDigestBytes (hashOf iv
        (readBytes s.mem (descriptorMsgAddr (descriptorBytes s l.idx)) (descriptorMsgLen (descriptorBytes s l.idx))) 0))
      lanes := s.lanes.set k { l with lstate := .fetch, path := q } }

/-- 43_batch.md R264, R267; 60_exceptions.md R302, R304: a lane's failures, in their order: the descriptor read, then the
length check, then the message's blocks in increasing address, then its tail, then the slot write; the lane retires, memory
is unchanged, and the first failure of the batch is latched, with the address of the request. The lane's HashState `V_k` is
what the rule had computed by then: untouched before the length check, else `CF` over the blocks before the failure, from
the IV. (A request that starts at `2^64` or more is left out: log entry 6.) -/
def Obligations.LaneFailureStep : Prop :=
  ∀ (s : State) (k : Nat) (l : Lane), s.lanes[k]? = some l → l.lstate = .work →
    ∀ (code : BitVec 8) (a : Nat) (v : HashState), a < 2 ^ 64 →
      ((code = 0x03#8 ∧ a = srcOp s + 16 * l.idx ∧ v = l.path.v ∧ admitted s.params .read a 16 = false) ∨
       (code = 0x02#8 ∧ a = 0 ∧ v = l.path.v ∧ readable s (srcOp s + 16 * l.idx) 16 = true ∧
         2 ^ 61 ≤ descriptorMsgLen (descriptorBytes s l.idx)) ∨
       (code = 0x03#8 ∧ readable s (srcOp s + 16 * l.idx) 16 = true ∧
         descriptorMsgLen (descriptorBytes s l.idx) < 2 ^ 61 ∧
         ∃ b, b < descriptorMsgLen (descriptorBytes s l.idx) / 64 ∧
           a = descriptorMsgAddr (descriptorBytes s l.idx) + 64 * b ∧ v = cfBlocks (batchMessage s l.idx) b 0 iv ∧
           (∀ j, j < b → readable s (descriptorMsgAddr (descriptorBytes s l.idx) + 64 * j) 64 = true) ∧
           admitted s.params .read a 64 = false) ∨
       (code = 0x03#8 ∧ readable s (srcOp s + 16 * l.idx) 16 = true ∧
         descriptorMsgLen (descriptorBytes s l.idx) < 2 ^ 61 ∧ 0 < descriptorMsgLen (descriptorBytes s l.idx) % 64 ∧
         a = descriptorMsgAddr (descriptorBytes s l.idx) + 64 * (descriptorMsgLen (descriptorBytes s l.idx) / 64) ∧
         v = cfBlocks (batchMessage s l.idx) (descriptorMsgLen (descriptorBytes s l.idx) / 64) 0 iv ∧
         (∀ j, j < descriptorMsgLen (descriptorBytes s l.idx) / 64 →
           readable s (descriptorMsgAddr (descriptorBytes s l.idx) + 64 * j) 64 = true) ∧
         admitted s.params .read a (descriptorMsgLen (descriptorBytes s l.idx) % 64) = false) ∨
       (code = 0x03#8 ∧ a = dstOp s + 32 * l.idx ∧ readable s (srcOp s + 16 * l.idx) 16 = true ∧
         descriptorMsgLen (descriptorBytes s l.idx) < 2 ^ 61 ∧ v = hashOf iv (batchMessage s l.idx) 0 ∧
         messageReadable s (descriptorMsgAddr (descriptorBytes s l.idx)) (descriptorMsgLen (descriptorBytes s l.idx)) ∧
         writable s a 32 = false)) →
      ∃ q, q.v = v ∧ laneStep s k = .next { s with
        lanes := s.lanes.set k { l with lstate := .retired, path := q }
        batch := { s.batch with errv := match s.batch.errv with
          | some e => some e
          | none   => some { code := code, faultAddr := BitVec.ofNat 64 a, faultIndex := BitVec.ofNat 64 l.idx } } }

/-- 43_batch.md R266: the join is enabled exactly when every started lane is RETIRED; it turns those lanes OFF, writes the
lane count to `RESULT`, and completes with the latched error or with none. That the batch controller keeps `N`, `NEXT`, `nl`
and `errv` after it is the model's choice (log entry 21), since 10_state.md R52 calls `NEXT` unspecified there, and so is that
the lanes keep their `idx` and path (log entry 22). -/
def Obligations.JoinReportsBatch : Prop :=
  ∀ s : State, s.ctl.phase = .batch →
    (Agent.control ∈ enabledAgents s ↔
      ∀ (k : Nat) (l : Lane), k < s.batch.used → s.lanes[k]? = some l → l.lstate = .retired) ∧
    ∃ t, controlStep s = .next t ∧ t.ctl = idleCtl s.ctl ∧ t.mem = s.mem ∧ t.batch = s.batch ∧ t.path = s.path ∧
      (∀ (k : Nat) (l : Lane), s.lanes[k]? = some l →
        t.lanes[k]? = some (if k < s.batch.used then { l with lstate := .off } else l)) ∧
      (s.batch.errv = none → t.regs = doneRegs { s.regs with result := BitVec.ofNat 64 s.batch.used }) ∧
      (∀ e, s.batch.errv = some e → e.code ≠ 0x00#8 →
        t.regs = failRegs { s.regs with result := BitVec.ofNat 64 s.batch.used, faultIndex := e.faultIndex }
          e.code e.faultAddr)

/-- 43_batch.md R262, R265: the number of lanes used is between 1 and `min(N, NLANES)`, is all of it for an unspecified
worker count and for as many workers as messages, and slots of different indices are disjoint. -/
def Obligations.LanesUsedAndSlots : Prop :=
  (∀ (p : Params) (w n : Nat), 0 < n →
    1 ≤ lanesUsed (nLanes p) w n ∧ lanesUsed (nLanes p) w n ≤ min n (nLanes p) ∧
    (w = 0 ∨ min n (nLanes p) ≤ w → lanesUsed (nLanes p) w n = min n (nLanes p)) ∧
    (1 ≤ w → w ≤ min n (nLanes p) → lanesUsed (nLanes p) w n = w)) ∧
  (∀ (s : State) (i j x : Nat), i ≠ j →
    ¬ ((slotAddr s i ≤ x ∧ x < slotAddr s i + 32) ∧ slotAddr s j ≤ x ∧ x < slotAddr s j + 32))

/-- 10_state.md R53: lanes share nothing but `NEXT` and the error latch. A lane's step leaves every other lane, the
registers, the control unit, the single-message datapath, the parameters and the host's side alone, and it changes no byte
of memory outside its own slot. -/
def Obligations.LanesArePrivate : Prop :=
  ∀ (s t : State) (k : Nat), laneStep s k = .next t →
    (∀ k', k' ≠ k → t.lanes[k']? = s.lanes[k']?) ∧ t.regs = s.regs ∧ t.ctl = s.ctl ∧ t.path = s.path ∧
    t.params = s.params ∧ t.host = s.host ∧ t.lastRead = s.lastRead ∧ t.schedule = s.schedule ∧ t.tick = s.tick ∧
    t.patience = s.patience ∧
    t.batch.count = s.batch.count ∧ t.batch.used = s.batch.used ∧ s.batch.next ≤ t.batch.next ∧
    (∀ e, s.batch.errv = some e → t.batch.errv = some e) ∧
    ∀ x, (∀ l, s.lanes[k]? = some l → ¬ (slotAddr s l.idx ≤ x ∧ x < slotAddr s l.idx + 32)) →
      readByte t.mem x = readByte s.mem x

/-- 43_batch.md R268: order and worker-count invariance. From a started batch, whatever the number of lanes, the worker
count, the schedule and what the host does meanwhile: if the batch completes with `ERR = 0`, every slot holds the digest of
its message as it stood at the start. (`DONE = 1` tells the completion from a reset.) -/
def Obligations.BatchDigestsInOrder : Prop :=
  ∀ u s t : State, CanStart u → lenOp u ≠ 0 → decode u.ctl.word = .command .hashBatch →
    exec .hashBatch u = .next s → BatchRun s t → t.ctl.phase = .idle → t.regs.done = true → t.regs.err = false →
    ∀ i, i < lenOp u → slotBytes t i = batchDigest u i

/-- 43_batch.md R267: after a batch that completes with an error, the failing message's slot is unchanged, and every other
slot holds its digest or what it held before. -/
def Obligations.FailedBatchSlots : Prop :=
  ∀ u s t : State, CanStart u → lenOp u ≠ 0 → decode u.ctl.word = .command .hashBatch →
    exec .hashBatch u = .next s → BatchRun s t → t.ctl.phase = .idle → t.regs.done = true → t.regs.err = true →
    t.regs.faultIndex.toNat < lenOp u ∧ slotBytes t t.regs.faultIndex.toNat = slotBytes u t.regs.faultIndex.toNat ∧
    ∀ i, i < lenOp u → slotBytes t i = batchDigest u i ∨ slotBytes t i = slotBytes u i

/-- 43_batch.md R270: a started batch of `N` messages on `nl` lanes reaches its join within `N + nl` fetch steps and `N`
work steps, whatever the schedule: with the host silent, at most `2 N + nl + 1` steps with the join itself. (A lane that
reads memory that is not plain ends the run, 20_memory.md R88.) -/
def Obligations.BatchReachesJoin : Prop :=
  ∀ u s : State, CanStart u → lenOp u ≠ 0 → decode u.ctl.word = .command .hashBatch → u.host = [] →
    exec .hashBatch u = .next s →
    ∃ k, k ≤ 2 * lenOp u + lanesUsed (nLanes u.params) (workersOp u) (lenOp u) + 1 ∧
      ((∃ t, runSteps k s = .next t ∧ t.ctl.phase = .idle ∧ t.regs.done = true) ∨
        runSteps k s = .refused .notPlainMemory)

/-! ### The whole machine -/

/-- The invariant holds after a reset with any parameters. -/
def Obligations.ResetMeetsInvariant : Prop := ∀ p : Params, (State.resetWith p).Inv

/-- Every step keeps the invariant: memory stays canonical, the status register stays consistent, what reads return while
busy, the accept-time copies, the lanes and the batch controller. -/
def Obligations.StepKeepsInvariant : Prop := ∀ s t : State, s.Inv → step s = .next t → t.Inv

/-- 00_scope.md R15, R17: no step changes a parameter; so `ID` and `CAP` always read the same. -/
def Obligations.StepKeepsParameters : Prop :=
  ∀ s t : State, step s = .next t →
    t.params = s.params ∧ readReg t .id = readReg s .id ∧ readReg t .cap = readReg s .cap

/-- 60_exceptions.md R316: an idle engine changes nothing until the host writes a register: with a host that does nothing
no step changes anything, and the host's reads, its polling and its accesses to host memory change no register and no
internal state of the engine. -/
def Obligations.IdleEngineRests : Prop :=
  ∀ s : State, s.ctl.phase = .idle →
    (s.host = [] → step s = .next s) ∧
    ∀ (act : HostAction) (rest : List HostAction) (t : State), s.host = act :: rest → (∀ o v, act ≠ .wr o v) →
      act ≠ .hardReset → step s = .next t →
      t.regs = s.regs ∧ t.ctl = s.ctl ∧ t.path = s.path ∧ t.batch = s.batch ∧ t.lanes = s.lanes ∧
        ((∀ a b, act ≠ .store a b) → t.mem = s.mem)

/-- 20_memory.md R87, R89: the engine's own steps (of the control unit and of the lanes) write no byte outside the
destination region of the running command. -/
def Obligations.EngineWritesDestinationOnly : Prop :=
  ∀ (s t : State) (a : Agent) (x : Nat), s.Inv → a ∈ enabledAgents s → a ≠ .host → agentStep (turn s) a = .next t →
    (∀ i, running s = some i → ¬ ((destRegion s i).lo ≤ x ∧ x < (destRegion s i).lo + (destRegion s i).len)) →
    readByte t.mem x = readByte s.mem x

/-- 10_state.md R35, R51; 60_exceptions.md R305: `BUSY` falls only by a completion, which sets `DONE`, or by a reset.
70_reset_and_hazards.md R351; 20_memory.md R98: every enabled step of the engine is taken within finite time, whatever the
schedule and whatever the host does: from every state that meets the invariant, a step that is enabled stays enabled until
it is taken, unless a reset intervenes or the run is outside the model; and so the running command completes. That the
host's turns before a step of the engine are counted down from a free number is the model's form of this (log entry
16). -/
def Obligations.BusyEndsByCompletionOrReset : Prop :=
  (∀ s t : State, busy s = true → step s = .next t → busy t = false →
    t.regs.done = true ∨ t.regs = (State.resetWith s.params).regs) ∧
  (∀ (s : State) (a : Agent), s.Inv → a ∈ engineAgents s →
    ∃ k t, runSteps k s = .next t ∧
      (∀ j, j ≤ k → ∃ u, runSteps j s = .next u ∧ a ∈ engineAgents u) ∧
      (pickAgent t = some a ∨ (pickAgent t = some .host ∧ ∃ u, step t = .next u ∧ busy u = false) ∨
        outsideModel (step t) = true)) ∧
  (∀ s : State, s.Inv → busy s = true →
    ∃ k, (∃ t, runSteps k s = .next t ∧ busy t = false ∧
        (t.regs.done = true ∨ t.regs = (State.resetWith s.params).regs)) ∨
      outsideModel (runSteps k s) = true)

/-- 10_state.md R46, R51; 42_engine_commands.md R228: while a command stays busy, no step changes its operands, neither the
accept-time copies nor the argument registers. -/
def Obligations.OperandsStableWhileBusy : Prop :=
  ∀ s t : State, busy s = true → step s = .next t → busy t = true →
    t.ctl.word = s.ctl.word ∧ t.ctl.src = s.ctl.src ∧ t.ctl.dst = s.ctl.dst ∧ t.ctl.len = s.ctl.len ∧
    t.ctl.prior = s.ctl.prior ∧ t.ctl.workers = s.ctl.workers ∧ t.ctl.stateIn = s.ctl.stateIn ∧
    t.regs.src = s.regs.src ∧ t.regs.dst = s.regs.dst ∧ t.regs.len = s.regs.len ∧ t.regs.prior = s.regs.prior ∧
    t.regs.workers = s.regs.workers ∧ t.regs.hash = s.regs.hash ∧ t.regs.cmd = s.regs.cmd
end

