-- ==== Sys2Proof/Laws/Memory.lean ====
section
/-! SUPPORT. The laws of host memory: a read after a write, what a write leaves alone, the canonical form. -/

namespace Sys2Proof.Machine

open Sys2Proof.Config

/-! ### One byte -/

/-- A write leaves every other byte alone. -/
theorem readByte_writeByte_ne (m : Memory) {a a' : Nat} (b : Byte) (h : a' ≠ a) :
    readByte (writeByte m a b) a' = readByte m a' := by
  induction m with
  | nil =>
    unfold writeByte
    split
    · rfl
    · simp [readByte, Ne.symm h]
  | cons c m ih =>
    obtain ⟨x, y⟩ := c
    unfold writeByte
    split
    · split
      · rfl
      · simp [readByte, Ne.symm h]
    · split
      · rename_i hx
        subst hx
        split
        · simp [readByte, Ne.symm h]
        · simp [readByte, Ne.symm h]
      · simp only [readByte, ih]

/-- An address below every listed one is unlisted. -/
theorem readByte_of_wfFrom {m : Memory} {low a : Nat} (hm : memWfFrom low m = true) (ha : a < low) :
    readByte m a = unlistedByte := by
  induction m generalizing low with
  | nil => rfl
  | cons c m ih =>
    obtain ⟨x, y⟩ := c
    simp only [memWfFrom, Bool.and_eq_true, decide_eq_true_eq] at hm
    obtain ⟨⟨⟨h1, _⟩, _⟩, h4⟩ := hm
    have hx : ¬ x = a := by omega
    simp only [readByte, hx, if_false]
    exact ih h4 (by omega)

/-- A read after a write to the same place gives the value written. -/
theorem readByte_writeByte_eq {m : Memory} {low : Nat} (hm : memWfFrom low m = true) (a : Nat) (b : Byte) :
    readByte (writeByte m a b) a = b := by
  induction m generalizing low with
  | nil =>
    unfold writeByte
    split
    · rename_i hb; simp [readByte, hb]
    · simp [readByte]
  | cons c m ih =>
    obtain ⟨x, y⟩ := c
    have hm' := hm
    simp only [memWfFrom, Bool.and_eq_true, decide_eq_true_eq] at hm'
    obtain ⟨⟨⟨h1, _⟩, _⟩, h4⟩ := hm'
    unfold writeByte
    split
    · rename_i hlt
      split
      · rename_i hb
        rw [hb]
        exact readByte_of_wfFrom (low := x) (by simp_all [memWfFrom]) hlt
      · simp [readByte]
    · rename_i hlt
      split
      · rename_i hx
        split
        · rename_i hb
          rw [hb]
          exact readByte_of_wfFrom h4 (by omega)
        · simp [readByte]
      · rename_i hx
        have hx' : ¬ x = a := fun h => hx h.symm
        simp only [readByte, hx', if_false]
        exact ih h4

/-- The canonical form may start lower. -/
theorem memWfFrom_mono {m : Memory} {low low' : Nat} (hm : memWfFrom low m = true) (h : low' ≤ low) :
    memWfFrom low' m = true := by
  cases m with
  | nil => rfl
  | cons c m =>
    simp only [memWfFrom, Bool.and_eq_true, decide_eq_true_eq] at hm ⊢
    exact ⟨⟨⟨by omega, hm.1.1.2⟩, hm.1.2⟩, hm.2⟩

/-- A write of one byte keeps the canonical form. -/
theorem writeByte_wfFrom {m : Memory} {low a : Nat} {b : Byte} (hm : memWfFrom low m = true) (hlo : low ≤ a)
    (ha : a < addressSpace) : memWfFrom low (writeByte m a b) = true := by
  induction m generalizing low with
  | nil =>
    unfold writeByte
    split
    · rfl
    · rename_i hb; simp [memWfFrom, hlo, ha, hb]
  | cons c m ih =>
    obtain ⟨x, y⟩ := c
    have hm' := hm
    simp only [memWfFrom, Bool.and_eq_true, decide_eq_true_eq] at hm'
    obtain ⟨⟨⟨h1, h2⟩, h3⟩, h4⟩ := hm'
    unfold writeByte
    split
    · rename_i hlt
      split
      · exact hm
      · rename_i hb
        simp only [memWfFrom, Bool.and_eq_true, decide_eq_true_eq]
        exact ⟨⟨⟨hlo, ha⟩, by simp [hb]⟩, ⟨⟨by omega, h2⟩, h3⟩, h4⟩
    · split
      · rename_i hx
        subst hx
        split
        · exact memWfFrom_mono h4 (by omega)
        · rename_i hb
          simp only [memWfFrom, Bool.and_eq_true, decide_eq_true_eq]
          exact ⟨⟨⟨hlo, ha⟩, by simp [hb]⟩, h4⟩
      · simp only [memWfFrom, Bool.and_eq_true, decide_eq_true_eq]
        exact ⟨⟨⟨h1, h2⟩, h3⟩, ih h4 (by omega)⟩

theorem writeByte_wf {m : Memory} {a : Nat} {b : Byte} (hm : m.wf = true) (ha : a < addressSpace) :
    Memory.wf (writeByte m a b) = true :=
  writeByte_wfFrom hm (Nat.zero_le _) ha

/-! ### Byte strings -/

@[simp] theorem readBytes_length (m : Memory) (a n : Nat) : (readBytes m a n).length = n := by
  induction n generalizing a with
  | zero => rfl
  | succ n ih => simp [readBytes, ih]

theorem readBytes_getD (m : Memory) (a n i : Nat) (h : i < n) (d : Byte) :
    (readBytes m a n).getD i d = readByte m (a + i) := by
  induction n generalizing a i with
  | zero => omega
  | succ n ih =>
    cases i with
    | zero => simp [readBytes]
    | succ i =>
      have := ih (a + 1) i (by omega)
      simp only [readBytes, List.getD_cons_succ, this]
      congr 1
      omega

/-- Two memories that agree on a range read the same there. -/
theorem readBytes_congr {m m' : Memory} {a n : Nat} (h : ∀ x, a ≤ x → x < a + n → readByte m x = readByte m' x) :
    readBytes m a n = readBytes m' a n := by
  induction n generalizing a with
  | zero => rfl
  | succ n ih =>
    simp only [readBytes, List.cons.injEq]
    exact ⟨h a (Nat.le_refl _) (by omega), ih fun x h1 h2 => h x (by omega) (by omega)⟩

theorem readBytes_add (m : Memory) (a n k : Nat) :
    readBytes m a (n + k) = readBytes m a n ++ readBytes m (a + n) k := by
  induction n generalizing a with
  | zero => simp [readBytes]
  | succ n ih =>
    have : n + 1 + k = (n + k) + 1 := by omega
    rw [this]
    simp only [readBytes, ih, List.cons_append]
    congr 3
    omega

theorem readBytes_drop (m : Memory) (a n k : Nat) (h : k ≤ n) :
    (readBytes m a n).drop k = readBytes m (a + k) (n - k) := by
  obtain ⟨j, rfl⟩ := Nat.exists_eq_add_of_le h
  rw [readBytes_add, List.drop_left' (by simp)]
  congr 1
  omega

theorem readBytes_take (m : Memory) (a n k : Nat) (h : k ≤ n) :
    (readBytes m a n).take k = readBytes m a k := by
  obtain ⟨j, rfl⟩ := Nat.exists_eq_add_of_le h
  rw [readBytes_add, List.take_left' (by simp)]

/-- Writing a byte string leaves every byte outside it alone. -/
theorem readByte_writeBytes_out (m : Memory) (a : Nat) (v : List Byte) {x : Nat} (h : x < a ∨ a + v.length ≤ x) :
    readByte (writeBytes m a v) x = readByte m x := by
  induction v generalizing m a with
  | nil => rfl
  | cons b v ih =>
    simp only [List.length_cons] at h
    simp only [writeBytes]
    rw [ih (writeByte m a b) (a + 1) (by omega), readByte_writeByte_ne _ _ (by omega)]

/-- A byte string written inside the address space keeps the canonical form. -/
theorem writeBytes_wf {m : Memory} {a : Nat} {v : List Byte} (hm : m.wf = true) (h : a + v.length ≤ addressSpace) :
    Memory.wf (writeBytes m a v) = true := by
  induction v generalizing m a with
  | nil => exact hm
  | cons b v ih =>
    simp only [List.length_cons] at h
    exact ih (writeByte_wf hm (by omega)) (by omega)

/-- A read after a write of the same byte string gives the byte string. -/
theorem readBytes_writeBytes_eq {m : Memory} {a : Nat} {v : List Byte} (hm : m.wf = true)
    (h : a + v.length ≤ addressSpace) : readBytes (writeBytes m a v) a v.length = v := by
  induction v generalizing m a with
  | nil => rfl
  | cons b v ih =>
    simp only [List.length_cons] at h
    have h1 : readByte (writeBytes (writeByte m a b) (a + 1) v) a = b := by
      rw [readByte_writeBytes_out _ _ _ (Or.inl (by omega))]
      exact readByte_writeByte_eq hm a b
    have h2 := ih (m := writeByte m a b) (a := a + 1) (writeByte_wf hm (by omega)) (by omega)
    simp only [writeBytes, List.length_cons, readBytes, h1, h2]

/-- Bytes disjoint from a written byte string read as before. -/
theorem readBytes_writeBytes_disjoint (m : Memory) (a : Nat) (v : List Byte) {x n : Nat}
    (h : x + n ≤ a ∨ a + v.length ≤ x) : readBytes (writeBytes m a v) x n = readBytes m x n :=
  readBytes_congr fun y h1 h2 => readByte_writeBytes_out m a v (by omega)

/-! ### Free bytes -/

/-- Free bytes are drawn inside their region only. -/
theorem readByte_drawBytes_out (tick : Nat) (m : Memory) (a n : Nat) {x : Nat} (h : x < a ∨ a + n ≤ x) :
    readByte (drawBytes tick m a n) x = readByte m x := by
  induction n generalizing m a with
  | zero => rfl
  | succ n ih =>
    simp only [drawBytes]
    rw [ih _ _ (by omega)]
    split
    · exact readByte_writeByte_ne _ _ (by omega)
    · rfl

theorem drawBytes_wf {tick : Nat} {m : Memory} {a n : Nat} (hm : m.wf = true) :
    Memory.wf (drawBytes tick m a n) = true := by
  induction n generalizing m a with
  | zero => exact hm
  | succ n ih =>
    simp only [drawBytes]
    refine ih ?_
    split
    · rename_i h; exact writeByte_wf hm h
    · exact hm

/-! ### Regions and requests -/

/-- Two regions overlap exactly when they have an address in common. -/
theorem overlaps_iff (r q : Region) :
    overlaps r q = true ↔ ∃ x, (r.lo ≤ x ∧ x < r.lo + r.len) ∧ q.lo ≤ x ∧ x < q.lo + q.len := by
  simp only [overlaps, decide_eq_true_eq]
  constructor
  · intro h; exact ⟨max r.lo q.lo, by omega, by omega⟩
  · rintro ⟨x, h1, h2⟩; omega

theorem overlaps_false_iff (r q : Region) :
    overlaps r q = false ↔ ∀ x, r.lo ≤ x → x < r.lo + r.len → ¬ (q.lo ≤ x ∧ x < q.lo + q.len) := by
  rw [← Bool.not_eq_true, overlaps_iff]
  constructor
  · rintro h x h1 h2 h3; exact h ⟨x, ⟨h1, h2⟩, h3⟩
  · rintro h ⟨x, ⟨h1, h2⟩, h3⟩; exact h x h1 h2 h3

theorem overlaps_comm (r q : Region) : overlaps r q = overlaps q r := by
  simp only [overlaps, Nat.max_comm, Nat.min_comm]

/-- A request that is admitted stays inside the address space (20_memory.md R85). -/
theorem admitted_inSpace {p : Params} {kind : RequestKind} {a n : Nat} (h : admitted p kind a n = true) :
    a + n ≤ addressSpace := by
  simp only [admitted, Bool.and_eq_true, decide_eq_true_eq] at h
  exact h.1

/-! ### The requests of the engine, each said once -/

/-- Everything a read request can do. -/
theorem memRead_cases (s : State) (a n : Nat) :
    (readable s a n = true ∧ memRead s a n = .ok (readBytes s.mem a n)) ∨
    (admitted s.params .read a n = true ∧ plain s.params a n = false ∧
      memRead s a n = .error (.refuse .notPlainMemory)) ∨
    (admitted s.params .read a n = false ∧ memRead s a n = .error (.raise .bus (faultAddrOf s.tick a))) := by
  unfold memRead readable
  cases h1 : admitted s.params .read a n <;> cases h2 : plain s.params a n <;> simp

theorem memRead_readable {s : State} {a n : Nat} (h : readable s a n = true) :
    memRead s a n = .ok (readBytes s.mem a n) := by
  simp only [readable, Bool.and_eq_true] at h
  simp [memRead, h.1, h.2]

theorem memRead_ok {s : State} {a n : Nat} {b : List Byte} (h : memRead s a n = .ok b) :
    readable s a n = true ∧ b = readBytes s.mem a n := by
  rcases memRead_cases s a n with ⟨h1, h2⟩ | ⟨_, _, h2⟩ | ⟨_, h2⟩
  · rw [h2] at h; exact ⟨h1, (Except.ok.inj h).symm⟩
  · rw [h2] at h; cases h
  · rw [h2] at h; cases h

theorem memRead_notAdmitted {s : State} {a n : Nat} (h : admitted s.params .read a n = false) :
    memRead s a n = .error (.raise .bus (faultAddrOf s.tick a)) := by
  simp [memRead, h]

/-- Everything a write request can do. -/
theorem memWrite_cases (s : State) (a : Nat) (v : List Byte) :
    (writable s a v.length = true ∧ memWrite s a v = .ok (setMem s (writeBytes s.mem a v))) ∨
    (writable s a v.length = false ∧ memWrite s a v = .error (.raise .bus (faultAddrOf s.tick a))) := by
  unfold memWrite writable
  cases h1 : admitted s.params .write a v.length <;> simp

theorem memWrite_writable {s : State} {a : Nat} {v : List Byte} (h : writable s a v.length = true) :
    memWrite s a v = .ok (setMem s (writeBytes s.mem a v)) := by
  simp only [writable] at h
  simp [memWrite, h]

theorem memWrite_notWritable {s : State} {a : Nat} {v : List Byte} (h : writable s a v.length = false) :
    memWrite s a v = .error (.raise .bus (faultAddrOf s.tick a)) := by
  simp only [writable] at h
  simp [memWrite, h]

theorem memWrite_ok {s u : State} {a : Nat} {v : List Byte} (h : memWrite s a v = .ok u) :
    writable s a v.length = true ∧ u = setMem s (writeBytes s.mem a v) := by
  rcases memWrite_cases s a v with ⟨h1, h2⟩ | ⟨_, h2⟩
  · rw [h2] at h; exact ⟨h1, (Except.ok.inj h).symm⟩
  · rw [h2] at h; cases h

/-- The length check passes exactly below the bound (60_exceptions.md R302). -/
theorem checkLength_ok {n : Nat} (h : n < lengthBound) : checkLength n = .ok () := by
  simp [checkLength, Nat.not_le.mpr h]

theorem checkLength_error {n : Nat} (h : lengthBound ≤ n) : checkLength n = .error (.raise .length 0#64) := by
  simp [checkLength, h]

end Sys2Proof.Machine
end

