-- ==== Sys2Proof/Laws/Hash.lean ====
section
/-! SUPPORT. The lengths of the byte strings, and what the compression paths compute: the pure hash sequence. -/

namespace Sys2Proof.Machine

/-! ### Lengths -/

theorem rem_lt (len : Nat) : rem len < 64 := Nat.mod_lt _ (by decide)

theorem count_eq (len : Nat) : count len = 1 ∧ rem len ≤ 55 ∨ count len = 2 ∧ 56 ≤ rem len := by
  unfold count; split <;> omega

@[simp] theorem be32bytes_length (w : Word) : (be32bytes w).length = 4 := rfl

@[simp] theorem be64bytes_length (v : Nat) : (be64bytes v).length = 8 := rfl

@[simp] theorem zeros_length (k : Nat) : (zeros k).length = k := by simp [zeros]

@[simp] theorem toDigestBytes_length (v : HashState) : (toDigestBytes v).length = 32 := rfl

theorem padSuffix_length (len prior : Nat) : (padSuffix len prior).length = padLen len := by
  have := rem_lt len
  rcases count_eq len with ⟨h, _⟩ | ⟨h, _⟩ <;>
    simp only [padSuffix, padLen, h, List.length_append, List.length_cons, zeros_length, be64bytes_length] <;> omega

theorem extendRev_length (n : Nat) (rev : List Word) : (extendRev n rev).length = rev.length + n := by
  induction n generalizing rev with
  | zero => rfl
  | succ n ih => simp only [extendRev, ih, List.length_cons]; omega

theorem expandW_length (b : List Byte) : (expandW b).length = 68 := by
  simp [expandW, extendRev_length, loadedRev]

theorem expandW1_length (w : List Word) : (expandW1 w).length = 64 := by simp [expandW1]

theorem flatMap_be32bytes_length (l : List Word) : (l.flatMap be32bytes).length = 4 * l.length := by
  induction l with
  | nil => rfl
  | cons w l ih => simp only [List.flatMap_cons, List.length_append, be32bytes_length, ih, List.length_cons]; omega

theorem expansionDump_length (b : List Byte) :
    (expansionDump (expandW b) (expandW1 (expandW b))).length = 528 := by
  simp [expansionDump, flatMap_be32bytes_length, expandW_length, expandW1_length, -List.length_flatMap]

/-- The tail and the padding suffix fill whole blocks. -/
theorem tail_padSuffix_length (t : List Byte) (len prior : Nat) (h : t.length = rem len) :
    (t ++ padSuffix len prior).length = 64 * count len := by
  have := rem_lt len
  rcases count_eq len with ⟨hc, _⟩ | ⟨hc, _⟩ <;>
    simp only [List.length_append, padSuffix_length, padLen, h, hc] <;> omega

/-! ### Blocks of host memory -/

theorem blockOf_readBytes (m : Memory) (a len k : Nat) (h : 64 * k + 64 ≤ len) :
    blockOf (readBytes m a len) k = readBytes m (a + 64 * k) 64 := by
  rw [blockOf, readBytes_drop _ _ _ _ (by omega), readBytes_take _ _ _ _ (by omega)]

theorem tail_readBytes (m : Memory) (a len : Nat) :
    (readBytes m a len).drop (64 * (len / 64)) = readBytes m (a + 64 * (len / 64)) (rem len) := by
  rw [readBytes_drop _ _ _ _ (Nat.mul_div_le _ _)]
  congr 1
  unfold rem
  omega

/-! ### Paths -/

/-- A path computes `CF`, whatever its working arrays held (40_compression.md R156). -/
@[simp] theorem compressInPath_v (p : Path) (k : Nat) (b : List Byte) : (compressInPath p k b).v = cf p.v b := rfl

@[simp] theorem expandInPath_w (p : Path) (b : List Byte) : (expandInPath p b).w = expandW b := rfl

@[simp] theorem expandInPath_w1 (p : Path) (b : List Byte) : (expandInPath p b).w1 = expandW1 (expandW b) := rfl

theorem compressRun_v (base : Nat) (t : List Byte) (n i : Nat) (p : Path) :
    (compressRun base t n i p).v = cfBlocks t n i p.v := by
  induction n generalizing i p with
  | zero => rfl
  | succ n ih => simp [compressRun, cfBlocks, ih]

theorem compressTrailer_v (p : Path) (t : List Byte) (len : Nat) :
    (compressTrailer p t len).v = cfBlocks t (count len) 0 p.v := compressRun_v _ _ _ _ _

/-- No trailer is stored beyond the call that consumes it (10_state.md R50). -/
@[simp] theorem compressTrailer_trailer (p : Path) (t : List Byte) (len : Nat) : (compressTrailer p t len).trailer = [] :=
  rfl

/-! ### Requests in a path -/

@[simp] theorem haltAt_ok {α : Type} (p : Path) (x : α) : haltAt p (.ok x) = .ok x := rfl

@[simp] theorem haltAt_error {α : Type} (p : Path) (e : Stop) :
    haltAt p (.error e : Except Stop α) = .error { path := p, stop := e } := rfl

theorem haltAt_eq_ok {α : Type} {p : Path} {x : Except Stop α} {y : α} : haltAt p x = .ok y ↔ x = .ok y := by
  cases x <;> simp

theorem haltAt_eq_error {α : Type} {p : Path} {x : Except Stop α} {h : Halted} :
    haltAt p x = .error h ↔ x = .error h.stop ∧ h.path = p := by
  cases x with
  | ok _ => simp
  | error e =>
    simp only [haltAt_error, Except.error.injEq]
    constructor
    · rintro rfl; exact ⟨rfl, rfl⟩
    · rintro ⟨rfl, rfl⟩; rfl

/-! ### Reading and compressing a message -/

/-- With every block readable, the blocks are compressed in order. -/
theorem readBlocks_ok (s : State) (src len n k : Nat) (p : Path) (hlen : 64 * (k + n) ≤ len)
    (h : ∀ j, k ≤ j → j < k + n → readable s (src + 64 * j) 64 = true) :
    ∃ q, readBlocks s src n k p = .ok q ∧ q.v = cfBlocks (readBytes s.mem src len) n k p.v := by
  induction n generalizing k p with
  | zero => exact ⟨p, rfl, rfl⟩
  | succ n ih =>
    obtain ⟨q, hq, hv⟩ := ih (k + 1) (compressInPath p k (readBytes s.mem (src + 64 * k) 64)) (by omega)
      fun j h1 h2 => h j (by omega) (by omega)
    refine ⟨q, ?_, ?_⟩
    · simp only [readBlocks, memRead_readable (h k (Nat.le_refl _) (by omega)), haltAt_ok, hq]
    · rw [hv, compressInPath_v, cfBlocks, blockOf_readBytes _ _ _ _ (by omega)]

/-- Blocks that were all read are all readable, and were compressed in order. -/
theorem readBlocks_inv (s : State) (src len n k : Nat) (p q : Path) (hlen : 64 * (k + n) ≤ len)
    (h : readBlocks s src n k p = .ok q) :
    (∀ j, k ≤ j → j < k + n → readable s (src + 64 * j) 64 = true) ∧
      q.v = cfBlocks (readBytes s.mem src len) n k p.v := by
  induction n generalizing k p with
  | zero => simp only [readBlocks, Except.ok.injEq] at h; exact ⟨fun j h1 h2 => by omega, by rw [h]; rfl⟩
  | succ n ih =>
    simp only [readBlocks] at h
    split at h
    · cases h
    · rename_i b hb
      obtain ⟨h1, h2⟩ := memRead_ok (haltAt_eq_ok.mp hb)
      obtain ⟨h3, h4⟩ := ih (k + 1) _ (by omega) h
      refine ⟨fun j hj1 hj2 => ?_, ?_⟩
      · rcases Nat.eq_or_lt_of_le hj1 with rfl | hj
        · exact h1
        · exact h3 j (by omega) (by omega)
      · rw [h4, compressInPath_v, cfBlocks, blockOf_readBytes _ _ _ _ (by omega), h2]

/-- The tail, when it can be read or is empty. -/
theorem readTail_ok (s : State) (src len : Nat)
    (h : 0 < rem len → readable s (src + 64 * (len / 64)) (rem len) = true) :
    readTail s src len = .ok (readBytes s.mem (src + 64 * (len / 64)) (rem len)) := by
  unfold readTail
  split
  · rename_i h0; exact memRead_readable (h h0)
  · rename_i h0
    have : rem len = 0 := by omega
    rw [this]
    rfl

theorem readTail_inv {s : State} {src len : Nat} {t : List Byte} (h : readTail s src len = .ok t) :
    (0 < rem len → readable s (src + 64 * (len / 64)) (rem len) = true) ∧
      t = readBytes s.mem (src + 64 * (len / 64)) (rem len) := by
  unfold readTail at h
  split at h
  · obtain ⟨h1, h2⟩ := memRead_ok h; exact ⟨fun _ => h1, h2⟩
  · rename_i h0
    have : rem len = 0 := by omega
    simp only [Except.ok.injEq] at h
    exact ⟨fun h1 => absurd h1 h0, by rw [← h, this]; rfl⟩

/-- The trailer of a message in host memory. -/
theorem trailer_readBytes (m : Memory) (a len prior : Nat) :
    trailer (readBytes m a len) prior = readBytes m (a + 64 * (len / 64)) (rem len) ++ padSuffix len prior := by
  rw [trailer, readBytes_length, tail_readBytes]

/-- With a readable message the hash sequence in a path gives `Hash` (42_engine_commands.md R210, R226), and leaves the
trailer buffer empty (10_state.md R50). -/
theorem hashMessage_ok (s : State) (p : Path) (v0 : HashState) (src len prior : Nat)
    (h : messageReadable s src len) :
    ∃ q, hashMessage s p v0 src len prior = .ok q ∧ q.v = hashOf v0 (readBytes s.mem src len) prior ∧
      q.trailer = [] := by
  have hlen : 64 * (0 + len / 64) ≤ len := by omega
  obtain ⟨q, hq, hv⟩ := readBlocks_ok s src len (len / 64) 0 { p with v := v0 } hlen
    fun j _ h2 => h.1 j (by omega)
  refine ⟨compressTrailer q (readBytes s.mem (src + 64 * (len / 64)) (rem len) ++ padSuffix len prior) len, ?_, ?_, rfl⟩
  · simp only [hashMessage, hq, readTail_ok s src len h.2, haltAt_ok]
  · rw [compressTrailer_v, hv, hashOf, trailer_readBytes, readBytes_length]

/-- The blocks are read up to the first request that ends early, and the blocks before it are compressed (20_memory.md R86;
60_exceptions.md R303; 43_batch.md R264). -/
theorem readBlocks_stops (s : State) (src len n k j : Nat) (p : Path) (e : Stop) (hkj : k ≤ j) (hj : j < k + n)
    (hlen : 64 * j ≤ len) (h : ∀ i, k ≤ i → i < j → readable s (src + 64 * i) 64 = true)
    (he : memRead s (src + 64 * j) 64 = .error e) :
    ∃ q, readBlocks s src n k p = .error { path := q, stop := e } ∧
      q.v = cfBlocks (readBytes s.mem src len) (j - k) k p.v := by
  induction n generalizing k p with
  | zero => omega
  | succ n ih =>
    rcases Nat.eq_or_lt_of_le hkj with rfl | h1
    · exact ⟨p, by simp only [readBlocks, he, haltAt_error], by rw [Nat.sub_self]; rfl⟩
    · obtain ⟨q, hq, hv⟩ := ih (k + 1) (compressInPath p k (readBytes s.mem (src + 64 * k) 64)) h1 (by omega)
        fun i a b => h i (by omega) b
      refine ⟨q, by simp only [readBlocks, memRead_readable (h k (Nat.le_refl _) h1), haltAt_ok, hq], ?_⟩
      rw [hv, compressInPath_v, show j - k = (j - (k + 1)) + 1 by omega, cfBlocks, blockOf_readBytes _ _ _ _ (by omega)]

/-- The hash sequence stops at the first block whose read ends early. -/
theorem hashMessage_blockStops (s : State) (p : Path) (v0 : HashState) (src len prior b : Nat) (e : Stop)
    (hb : b < len / 64) (h : ∀ j, j < b → readable s (src + 64 * j) 64 = true)
    (he : memRead s (src + 64 * b) 64 = .error e) :
    ∃ q, hashMessage s p v0 src len prior = .error { path := q, stop := e } ∧
      q.v = cfBlocks (readBytes s.mem src len) b 0 v0 := by
  obtain ⟨q, hq, hv⟩ := readBlocks_stops s src len (len / 64) 0 b { p with v := v0 } e (Nat.zero_le _) (by omega)
    (by omega) (fun i _ hi => h i hi) he
  exact ⟨q, by simp only [hashMessage, hq], hv⟩

/-- A tail that is not empty stops where its read does. -/
theorem readTail_stops (s : State) (src len : Nat) (e : Stop) (hr : 0 < rem len)
    (he : memRead s (src + 64 * (len / 64)) (rem len) = .error e) : readTail s src len = .error e := by
  simp only [readTail, hr, if_true, he]

/-- With its blocks readable, the hash sequence stops at a tail whose read ends early. -/
theorem hashMessage_tailStops (s : State) (p : Path) (v0 : HashState) (src len prior : Nat) (e : Stop)
    (h : ∀ j, j < len / 64 → readable s (src + 64 * j) 64 = true) (hr : 0 < rem len)
    (he : memRead s (src + 64 * (len / 64)) (rem len) = .error e) :
    ∃ q, hashMessage s p v0 src len prior = .error { path := q, stop := e } ∧
      q.v = cfBlocks (readBytes s.mem src len) (len / 64) 0 v0 := by
  obtain ⟨q, hq, hv⟩ := readBlocks_ok s src len (len / 64) 0 { p with v := v0 } (by omega) fun j _ h2 => h j (by omega)
  exact ⟨q, by simp only [hashMessage, hq, readTail_stops s src len e hr he, haltAt_error], hv⟩

/-- A message that was hashed was readable, and the path holds `Hash` of it. -/
theorem hashMessage_inv {s : State} {p q : Path} {v0 : HashState} {src len prior : Nat}
    (h : hashMessage s p v0 src len prior = .ok q) :
    messageReadable s src len ∧ q.v = hashOf v0 (readBytes s.mem src len) prior := by
  simp only [hashMessage] at h
  split at h
  · cases h
  · rename_i p1 hp1
    split at h
    · cases h
    · rename_i tail htail
      have hlen : 64 * (0 + len / 64) ≤ len := by omega
      obtain ⟨h1, h2⟩ := readBlocks_inv s src len (len / 64) 0 _ _ hlen hp1
      obtain ⟨h3, h4⟩ := readTail_inv (haltAt_eq_ok.mp htail)
      refine ⟨⟨fun k hk => h1 k (Nat.zero_le _) (by omega), h3⟩, ?_⟩
      rw [← Except.ok.inj h, compressTrailer_v, h2, hashOf, trailer_readBytes, readBytes_length, h4]

theorem memRead_error {s : State} {a n : Nat} {e : Stop} (h : memRead s a n = .error e) :
    (∃ a, e = .raise .bus a) ∨ e = .refuse .notPlainMemory := by
  rcases memRead_cases s a n with ⟨_, h2⟩ | ⟨_, _, h2⟩ | ⟨_, h2⟩
  · rw [h2] at h; cases h
  · rw [h2] at h; exact .inr (Except.error.inj h).symm
  · rw [h2] at h; exact .inl ⟨_, (Except.error.inj h).symm⟩

theorem memWrite_error {s : State} {a : Nat} {v : List Byte} {e : Stop} (h : memWrite s a v = .error e) :
    ∃ a, e = .raise .bus a := by
  rcases memWrite_cases s a v with ⟨_, h2⟩ | ⟨_, h2⟩
  · rw [h2] at h; cases h
  · rw [h2] at h; exact ⟨_, (Except.error.inj h).symm⟩

theorem readTail_error {s : State} {src len : Nat} {e : Stop} (h : readTail s src len = .error e) :
    (∃ a, e = .raise .bus a) ∨ e = .refuse .notPlainMemory := by
  unfold readTail at h
  split at h
  · exact memRead_error h
  · cases h

/-- How reading the blocks of a message can end early: at a read request (60_exceptions.md R303), or because the model
says nothing of the run. -/
theorem readBlocks_error {s : State} {src n k : Nat} {p : Path} {h : Halted} (hh : readBlocks s src n k p = .error h) :
    (∃ a, h.stop = .raise .bus a) ∨ h.stop = .refuse .notPlainMemory := by
  induction n generalizing k p with
  | zero => simp [readBlocks] at hh
  | succ n ih =>
    simp only [readBlocks] at hh
    split at hh
    · rename_i h' h0
      cases hh
      exact memRead_error (haltAt_eq_error.mp h0).1
    · exact ih hh

theorem hashMessage_error {s : State} {p : Path} {v0 : HashState} {src len prior : Nat} {h : Halted}
    (hh : hashMessage s p v0 src len prior = .error h) :
    (∃ a, h.stop = .raise .bus a) ∨ h.stop = .refuse .notPlainMemory := by
  simp only [hashMessage] at hh
  split at hh
  · rename_i h' h0; cases hh; exact readBlocks_error h0
  · split at hh
    · rename_i h' h0; cases hh; exact readTail_error (haltAt_eq_error.mp h0).1
    · cases hh

/-! ### The requests see the parameters, the memory and the counter only -/

theorem memRead_congr {s t : State} (hp : s.params = t.params) (hm : s.mem = t.mem) (ht : s.tick = t.tick) (a n : Nat) :
    memRead s a n = memRead t a n := by
  simp only [memRead, hp, hm, ht]

theorem readBlocks_congr {s t : State} (hp : s.params = t.params) (hm : s.mem = t.mem) (ht : s.tick = t.tick)
    (src n k : Nat) (p : Path) : readBlocks s src n k p = readBlocks t src n k p := by
  induction n generalizing k p with
  | zero => rfl
  | succ n ih => simp only [readBlocks, memRead_congr hp hm ht, ih]

theorem hashMessage_congr {s t : State} (hp : s.params = t.params) (hm : s.mem = t.mem) (ht : s.tick = t.tick)
    (p : Path) (v0 : HashState) (src len prior : Nat) :
    hashMessage s p v0 src len prior = hashMessage t p v0 src len prior := by
  simp only [hashMessage, readBlocks_congr hp hm ht, readTail, memRead_congr hp hm ht]

/-- Two runs of the same work in different paths end alike: with the same HashState, or for the same reason. -/
def SameEnd : Except Halted Path → Except Halted Path → Prop
  | .ok q, .ok q'       => q.v = q'.v
  | .error h, .error h' => h.stop = h'.stop ∧ h.path.v = h'.path.v
  | .ok _, .error _     => False
  | .error _, .ok _     => False

/-- Reading blocks sees of its path the HashState only. -/
theorem readBlocks_sameEnd (s : State) (src n k : Nat) {p p' : Path} (hv : p.v = p'.v) :
    SameEnd (readBlocks s src n k p) (readBlocks s src n k p') := by
  induction n generalizing k p p' with
  | zero => exact hv
  | succ n ih =>
    simp only [readBlocks]
    cases memRead s (src + 64 * k) 64 with
    | error e => exact ⟨rfl, hv⟩
    | ok b => exact ih (k + 1) (by rw [compressInPath_v, compressInPath_v, hv])

/-- The hash sequence sees nothing of the path it runs in (42_engine_commands.md R211). -/
theorem hashMessage_sameEnd (s : State) (p p' : Path) (v0 : HashState) (src len prior : Nat) :
    SameEnd (hashMessage s p v0 src len prior) (hashMessage s p' v0 src len prior) := by
  have h := readBlocks_sameEnd s src (len / 64) 0 (p := { p with v := v0 }) (p' := { p' with v := v0 }) rfl
  simp only [hashMessage]
  generalize readBlocks s src (len / 64) 0 { p with v := v0 } = x at h
  generalize readBlocks s src (len / 64) 0 { p' with v := v0 } = x' at h
  cases x with
  | error e => cases x' with
    | error e' => exact h
    | ok q' => exact h.elim
  | ok q => cases x' with
    | error e' => exact h.elim
    | ok q' =>
      cases readTail s src len with
      | error e => exact ⟨rfl, h⟩
      | ok tail =>
        show (compressTrailer q _ len).v = (compressTrailer q' _ len).v
        rw [compressTrailer_v, compressTrailer_v, show q.v = q'.v from h]

end Sys2Proof.Machine
end

