-- ==== Sys2Proof/Laws/State.lean ====
section
/-! SUPPORT. What each update of the state does to each field, one lemma a field, so that no later proof unfolds a record
update. -/

namespace Sys2Proof.Machine

/-! ### `setHash` -/

@[simp] theorem setHash_params (s : State) (v : HashState) : (setHash s v).params = s.params := rfl
@[simp] theorem setHash_regs_irqEn (s : State) (v : HashState) : (setHash s v).regs.irqEn = s.regs.irqEn := rfl
@[simp] theorem setHash_regs_cmd (s : State) (v : HashState) : (setHash s v).regs.cmd = s.regs.cmd := rfl
@[simp] theorem setHash_regs_err (s : State) (v : HashState) : (setHash s v).regs.err = s.regs.err := rfl
@[simp] theorem setHash_regs_errCode (s : State) (v : HashState) : (setHash s v).regs.errCode = s.regs.errCode := rfl
@[simp] theorem setHash_regs_overrun (s : State) (v : HashState) : (setHash s v).regs.overrun = s.regs.overrun := rfl
@[simp] theorem setHash_regs_done (s : State) (v : HashState) : (setHash s v).regs.done = s.regs.done := rfl
@[simp] theorem setHash_regs_result (s : State) (v : HashState) : (setHash s v).regs.result = s.regs.result := rfl
@[simp] theorem setHash_regs_src (s : State) (v : HashState) : (setHash s v).regs.src = s.regs.src := rfl
@[simp] theorem setHash_regs_dst (s : State) (v : HashState) : (setHash s v).regs.dst = s.regs.dst := rfl
@[simp] theorem setHash_regs_len (s : State) (v : HashState) : (setHash s v).regs.len = s.regs.len := rfl
@[simp] theorem setHash_regs_prior (s : State) (v : HashState) : (setHash s v).regs.prior = s.regs.prior := rfl
@[simp] theorem setHash_regs_workers (s : State) (v : HashState) : (setHash s v).regs.workers = s.regs.workers := rfl
@[simp] theorem setHash_regs_faultAddr (s : State) (v : HashState) : (setHash s v).regs.faultAddr = s.regs.faultAddr := rfl
@[simp] theorem setHash_regs_faultIndex (s : State) (v : HashState) : (setHash s v).regs.faultIndex = s.regs.faultIndex := rfl
@[simp] theorem setHash_regs_hash (s : State) (v : HashState) : (setHash s v).regs.hash = v := rfl
@[simp] theorem setHash_ctl (s : State) (v : HashState) : (setHash s v).ctl = s.ctl := rfl
@[simp] theorem setHash_path (s : State) (v : HashState) : (setHash s v).path = s.path := rfl
@[simp] theorem setHash_batch (s : State) (v : HashState) : (setHash s v).batch = s.batch := rfl
@[simp] theorem setHash_lanes (s : State) (v : HashState) : (setHash s v).lanes = s.lanes := rfl
@[simp] theorem setHash_mem (s : State) (v : HashState) : (setHash s v).mem = s.mem := rfl
@[simp] theorem setHash_host (s : State) (v : HashState) : (setHash s v).host = s.host := rfl
@[simp] theorem setHash_lastRead (s : State) (v : HashState) : (setHash s v).lastRead = s.lastRead := rfl
@[simp] theorem setHash_schedule (s : State) (v : HashState) : (setHash s v).schedule = s.schedule := rfl
@[simp] theorem setHash_patience (s : State) (v : HashState) : (setHash s v).patience = s.patience := rfl
@[simp] theorem setHash_tick (s : State) (v : HashState) : (setHash s v).tick = s.tick := rfl

/-! ### `setResult` -/

@[simp] theorem setResult_params (s : State) (n : Nat) : (setResult s n).params = s.params := rfl
@[simp] theorem setResult_regs_irqEn (s : State) (n : Nat) : (setResult s n).regs.irqEn = s.regs.irqEn := rfl
@[simp] theorem setResult_regs_cmd (s : State) (n : Nat) : (setResult s n).regs.cmd = s.regs.cmd := rfl
@[simp] theorem setResult_regs_err (s : State) (n : Nat) : (setResult s n).regs.err = s.regs.err := rfl
@[simp] theorem setResult_regs_errCode (s : State) (n : Nat) : (setResult s n).regs.errCode = s.regs.errCode := rfl
@[simp] theorem setResult_regs_overrun (s : State) (n : Nat) : (setResult s n).regs.overrun = s.regs.overrun := rfl
@[simp] theorem setResult_regs_done (s : State) (n : Nat) : (setResult s n).regs.done = s.regs.done := rfl
@[simp] theorem setResult_regs_result (s : State) (n : Nat) : (setResult s n).regs.result = BitVec.ofNat 64 n := rfl
@[simp] theorem setResult_regs_src (s : State) (n : Nat) : (setResult s n).regs.src = s.regs.src := rfl
@[simp] theorem setResult_regs_dst (s : State) (n : Nat) : (setResult s n).regs.dst = s.regs.dst := rfl
@[simp] theorem setResult_regs_len (s : State) (n : Nat) : (setResult s n).regs.len = s.regs.len := rfl
@[simp] theorem setResult_regs_prior (s : State) (n : Nat) : (setResult s n).regs.prior = s.regs.prior := rfl
@[simp] theorem setResult_regs_workers (s : State) (n : Nat) : (setResult s n).regs.workers = s.regs.workers := rfl
@[simp] theorem setResult_regs_faultAddr (s : State) (n : Nat) : (setResult s n).regs.faultAddr = s.regs.faultAddr := rfl
@[simp] theorem setResult_regs_faultIndex (s : State) (n : Nat) : (setResult s n).regs.faultIndex = s.regs.faultIndex := rfl
@[simp] theorem setResult_regs_hash (s : State) (n : Nat) : (setResult s n).regs.hash = s.regs.hash := rfl
@[simp] theorem setResult_ctl (s : State) (n : Nat) : (setResult s n).ctl = s.ctl := rfl
@[simp] theorem setResult_path (s : State) (n : Nat) : (setResult s n).path = s.path := rfl
@[simp] theorem setResult_batch (s : State) (n : Nat) : (setResult s n).batch = s.batch := rfl
@[simp] theorem setResult_lanes (s : State) (n : Nat) : (setResult s n).lanes = s.lanes := rfl
@[simp] theorem setResult_mem (s : State) (n : Nat) : (setResult s n).mem = s.mem := rfl
@[simp] theorem setResult_host (s : State) (n : Nat) : (setResult s n).host = s.host := rfl
@[simp] theorem setResult_lastRead (s : State) (n : Nat) : (setResult s n).lastRead = s.lastRead := rfl
@[simp] theorem setResult_schedule (s : State) (n : Nat) : (setResult s n).schedule = s.schedule := rfl
@[simp] theorem setResult_patience (s : State) (n : Nat) : (setResult s n).patience = s.patience := rfl
@[simp] theorem setResult_tick (s : State) (n : Nat) : (setResult s n).tick = s.tick := rfl

/-! ### `setMem` -/

@[simp] theorem setMem_params (s : State) (m : Memory) : (setMem s m).params = s.params := rfl
@[simp] theorem setMem_regs (s : State) (m : Memory) : (setMem s m).regs = s.regs := rfl
@[simp] theorem setMem_ctl (s : State) (m : Memory) : (setMem s m).ctl = s.ctl := rfl
@[simp] theorem setMem_path (s : State) (m : Memory) : (setMem s m).path = s.path := rfl
@[simp] theorem setMem_batch (s : State) (m : Memory) : (setMem s m).batch = s.batch := rfl
@[simp] theorem setMem_lanes (s : State) (m : Memory) : (setMem s m).lanes = s.lanes := rfl
@[simp] theorem setMem_mem (s : State) (m : Memory) : (setMem s m).mem = m := rfl
@[simp] theorem setMem_host (s : State) (m : Memory) : (setMem s m).host = s.host := rfl
@[simp] theorem setMem_lastRead (s : State) (m : Memory) : (setMem s m).lastRead = s.lastRead := rfl
@[simp] theorem setMem_schedule (s : State) (m : Memory) : (setMem s m).schedule = s.schedule := rfl
@[simp] theorem setMem_patience (s : State) (m : Memory) : (setMem s m).patience = s.patience := rfl
@[simp] theorem setMem_tick (s : State) (m : Memory) : (setMem s m).tick = s.tick := rfl

/-! ### `setPath` -/

@[simp] theorem setPath_params (s : State) (p : Path) : (setPath s p).params = s.params := rfl
@[simp] theorem setPath_regs (s : State) (p : Path) : (setPath s p).regs = s.regs := rfl
@[simp] theorem setPath_ctl (s : State) (p : Path) : (setPath s p).ctl = s.ctl := rfl
@[simp] theorem setPath_path (s : State) (p : Path) : (setPath s p).path = p := rfl
@[simp] theorem setPath_batch (s : State) (p : Path) : (setPath s p).batch = s.batch := rfl
@[simp] theorem setPath_lanes (s : State) (p : Path) : (setPath s p).lanes = s.lanes := rfl
@[simp] theorem setPath_mem (s : State) (p : Path) : (setPath s p).mem = s.mem := rfl
@[simp] theorem setPath_host (s : State) (p : Path) : (setPath s p).host = s.host := rfl
@[simp] theorem setPath_lastRead (s : State) (p : Path) : (setPath s p).lastRead = s.lastRead := rfl
@[simp] theorem setPath_schedule (s : State) (p : Path) : (setPath s p).schedule = s.schedule := rfl
@[simp] theorem setPath_patience (s : State) (p : Path) : (setPath s p).patience = s.patience := rfl
@[simp] theorem setPath_tick (s : State) (p : Path) : (setPath s p).tick = s.tick := rfl

/-! ### `setPhase` -/

@[simp] theorem setPhase_params (s : State) (ph : Phase) : (setPhase s ph).params = s.params := rfl
@[simp] theorem setPhase_regs (s : State) (ph : Phase) : (setPhase s ph).regs = s.regs := rfl
@[simp] theorem setPhase_ctl_phase (s : State) (ph : Phase) : (setPhase s ph).ctl.phase = ph := rfl
@[simp] theorem setPhase_ctl_word (s : State) (ph : Phase) : (setPhase s ph).ctl.word = s.ctl.word := rfl
@[simp] theorem setPhase_ctl_src (s : State) (ph : Phase) : (setPhase s ph).ctl.src = s.ctl.src := rfl
@[simp] theorem setPhase_ctl_dst (s : State) (ph : Phase) : (setPhase s ph).ctl.dst = s.ctl.dst := rfl
@[simp] theorem setPhase_ctl_len (s : State) (ph : Phase) : (setPhase s ph).ctl.len = s.ctl.len := rfl
@[simp] theorem setPhase_ctl_prior (s : State) (ph : Phase) : (setPhase s ph).ctl.prior = s.ctl.prior := rfl
@[simp] theorem setPhase_ctl_workers (s : State) (ph : Phase) : (setPhase s ph).ctl.workers = s.ctl.workers := rfl
@[simp] theorem setPhase_ctl_stateIn (s : State) (ph : Phase) : (setPhase s ph).ctl.stateIn = s.ctl.stateIn := rfl
@[simp] theorem setPhase_path (s : State) (ph : Phase) : (setPhase s ph).path = s.path := rfl
@[simp] theorem setPhase_batch (s : State) (ph : Phase) : (setPhase s ph).batch = s.batch := rfl
@[simp] theorem setPhase_lanes (s : State) (ph : Phase) : (setPhase s ph).lanes = s.lanes := rfl
@[simp] theorem setPhase_mem (s : State) (ph : Phase) : (setPhase s ph).mem = s.mem := rfl
@[simp] theorem setPhase_host (s : State) (ph : Phase) : (setPhase s ph).host = s.host := rfl
@[simp] theorem setPhase_lastRead (s : State) (ph : Phase) : (setPhase s ph).lastRead = s.lastRead := rfl
@[simp] theorem setPhase_schedule (s : State) (ph : Phase) : (setPhase s ph).schedule = s.schedule := rfl
@[simp] theorem setPhase_patience (s : State) (ph : Phase) : (setPhase s ph).patience = s.patience := rfl
@[simp] theorem setPhase_tick (s : State) (ph : Phase) : (setPhase s ph).tick = s.tick := rfl

/-! ### `setLane` -/

@[simp] theorem setLane_params (s : State) (k : Nat) (l : Lane) : (setLane s k l).params = s.params := rfl
@[simp] theorem setLane_regs (s : State) (k : Nat) (l : Lane) : (setLane s k l).regs = s.regs := rfl
@[simp] theorem setLane_ctl (s : State) (k : Nat) (l : Lane) : (setLane s k l).ctl = s.ctl := rfl
@[simp] theorem setLane_path (s : State) (k : Nat) (l : Lane) : (setLane s k l).path = s.path := rfl
@[simp] theorem setLane_batch (s : State) (k : Nat) (l : Lane) : (setLane s k l).batch = s.batch := rfl
@[simp] theorem setLane_lanes (s : State) (k : Nat) (l : Lane) : (setLane s k l).lanes = s.lanes.set k l := rfl
@[simp] theorem setLane_mem (s : State) (k : Nat) (l : Lane) : (setLane s k l).mem = s.mem := rfl
@[simp] theorem setLane_host (s : State) (k : Nat) (l : Lane) : (setLane s k l).host = s.host := rfl
@[simp] theorem setLane_lastRead (s : State) (k : Nat) (l : Lane) : (setLane s k l).lastRead = s.lastRead := rfl
@[simp] theorem setLane_schedule (s : State) (k : Nat) (l : Lane) : (setLane s k l).schedule = s.schedule := rfl
@[simp] theorem setLane_patience (s : State) (k : Nat) (l : Lane) : (setLane s k l).patience = s.patience := rfl
@[simp] theorem setLane_tick (s : State) (k : Nat) (l : Lane) : (setLane s k l).tick = s.tick := rfl

/-! ### `setOverrun` -/

@[simp] theorem setOverrun_params (s : State) : (setOverrun s).params = s.params := rfl
@[simp] theorem setOverrun_regs_irqEn (s : State) : (setOverrun s).regs.irqEn = s.regs.irqEn := rfl
@[simp] theorem setOverrun_regs_cmd (s : State) : (setOverrun s).regs.cmd = s.regs.cmd := rfl
@[simp] theorem setOverrun_regs_err (s : State) : (setOverrun s).regs.err = s.regs.err := rfl
@[simp] theorem setOverrun_regs_errCode (s : State) : (setOverrun s).regs.errCode = s.regs.errCode := rfl
@[simp] theorem setOverrun_regs_overrun (s : State) : (setOverrun s).regs.overrun = true := rfl
@[simp] theorem setOverrun_regs_done (s : State) : (setOverrun s).regs.done = s.regs.done := rfl
@[simp] theorem setOverrun_regs_result (s : State) : (setOverrun s).regs.result = s.regs.result := rfl
@[simp] theorem setOverrun_regs_src (s : State) : (setOverrun s).regs.src = s.regs.src := rfl
@[simp] theorem setOverrun_regs_dst (s : State) : (setOverrun s).regs.dst = s.regs.dst := rfl
@[simp] theorem setOverrun_regs_len (s : State) : (setOverrun s).regs.len = s.regs.len := rfl
@[simp] theorem setOverrun_regs_prior (s : State) : (setOverrun s).regs.prior = s.regs.prior := rfl
@[simp] theorem setOverrun_regs_workers (s : State) : (setOverrun s).regs.workers = s.regs.workers := rfl
@[simp] theorem setOverrun_regs_faultAddr (s : State) : (setOverrun s).regs.faultAddr = s.regs.faultAddr := rfl
@[simp] theorem setOverrun_regs_faultIndex (s : State) : (setOverrun s).regs.faultIndex = s.regs.faultIndex := rfl
@[simp] theorem setOverrun_regs_hash (s : State) : (setOverrun s).regs.hash = s.regs.hash := rfl
@[simp] theorem setOverrun_ctl (s : State) : (setOverrun s).ctl = s.ctl := rfl
@[simp] theorem setOverrun_path (s : State) : (setOverrun s).path = s.path := rfl
@[simp] theorem setOverrun_batch (s : State) : (setOverrun s).batch = s.batch := rfl
@[simp] theorem setOverrun_lanes (s : State) : (setOverrun s).lanes = s.lanes := rfl
@[simp] theorem setOverrun_mem (s : State) : (setOverrun s).mem = s.mem := rfl
@[simp] theorem setOverrun_host (s : State) : (setOverrun s).host = s.host := rfl
@[simp] theorem setOverrun_lastRead (s : State) : (setOverrun s).lastRead = s.lastRead := rfl
@[simp] theorem setOverrun_schedule (s : State) : (setOverrun s).schedule = s.schedule := rfl
@[simp] theorem setOverrun_patience (s : State) : (setOverrun s).patience = s.patience := rfl
@[simp] theorem setOverrun_tick (s : State) : (setOverrun s).tick = s.tick := rfl

/-! ### `writeStatus` -/

@[simp] theorem writeStatus_params (s : State) (v : Word) : (writeStatus s v).params = s.params := rfl
@[simp] theorem writeStatus_regs_irqEn (s : State) (v : Word) : (writeStatus s v).regs.irqEn = s.regs.irqEn := rfl
@[simp] theorem writeStatus_regs_cmd (s : State) (v : Word) : (writeStatus s v).regs.cmd = s.regs.cmd := rfl
@[simp] theorem writeStatus_regs_err (s : State) (v : Word) : (writeStatus s v).regs.err = s.regs.err := rfl
@[simp] theorem writeStatus_regs_errCode (s : State) (v : Word) : (writeStatus s v).regs.errCode = s.regs.errCode := rfl
@[simp] theorem writeStatus_regs_overrun (s : State) (v : Word) : (writeStatus s v).regs.overrun = (s.regs.overrun && !v.getLsbD 2) := rfl
@[simp] theorem writeStatus_regs_done (s : State) (v : Word) : (writeStatus s v).regs.done = s.regs.done := rfl
@[simp] theorem writeStatus_regs_result (s : State) (v : Word) : (writeStatus s v).regs.result = s.regs.result := rfl
@[simp] theorem writeStatus_regs_src (s : State) (v : Word) : (writeStatus s v).regs.src = s.regs.src := rfl
@[simp] theorem writeStatus_regs_dst (s : State) (v : Word) : (writeStatus s v).regs.dst = s.regs.dst := rfl
@[simp] theorem writeStatus_regs_len (s : State) (v : Word) : (writeStatus s v).regs.len = s.regs.len := rfl
@[simp] theorem writeStatus_regs_prior (s : State) (v : Word) : (writeStatus s v).regs.prior = s.regs.prior := rfl
@[simp] theorem writeStatus_regs_workers (s : State) (v : Word) : (writeStatus s v).regs.workers = s.regs.workers := rfl
@[simp] theorem writeStatus_regs_faultAddr (s : State) (v : Word) : (writeStatus s v).regs.faultAddr = s.regs.faultAddr := rfl
@[simp] theorem writeStatus_regs_faultIndex (s : State) (v : Word) : (writeStatus s v).regs.faultIndex = s.regs.faultIndex := rfl
@[simp] theorem writeStatus_regs_hash (s : State) (v : Word) : (writeStatus s v).regs.hash = s.regs.hash := rfl
@[simp] theorem writeStatus_ctl (s : State) (v : Word) : (writeStatus s v).ctl = s.ctl := rfl
@[simp] theorem writeStatus_path (s : State) (v : Word) : (writeStatus s v).path = s.path := rfl
@[simp] theorem writeStatus_batch (s : State) (v : Word) : (writeStatus s v).batch = s.batch := rfl
@[simp] theorem writeStatus_lanes (s : State) (v : Word) : (writeStatus s v).lanes = s.lanes := rfl
@[simp] theorem writeStatus_mem (s : State) (v : Word) : (writeStatus s v).mem = s.mem := rfl
@[simp] theorem writeStatus_host (s : State) (v : Word) : (writeStatus s v).host = s.host := rfl
@[simp] theorem writeStatus_lastRead (s : State) (v : Word) : (writeStatus s v).lastRead = s.lastRead := rfl
@[simp] theorem writeStatus_schedule (s : State) (v : Word) : (writeStatus s v).schedule = s.schedule := rfl
@[simp] theorem writeStatus_patience (s : State) (v : Word) : (writeStatus s v).patience = s.patience := rfl
@[simp] theorem writeStatus_tick (s : State) (v : Word) : (writeStatus s v).tick = s.tick := rfl

/-! ### `writeIrqStatus` -/

@[simp] theorem writeIrqStatus_params (s : State) (v : Word) : (writeIrqStatus s v).params = s.params := rfl
@[simp] theorem writeIrqStatus_regs_irqEn (s : State) (v : Word) : (writeIrqStatus s v).regs.irqEn = s.regs.irqEn := rfl
@[simp] theorem writeIrqStatus_regs_cmd (s : State) (v : Word) : (writeIrqStatus s v).regs.cmd = s.regs.cmd := rfl
@[simp] theorem writeIrqStatus_regs_err (s : State) (v : Word) : (writeIrqStatus s v).regs.err = s.regs.err := rfl
@[simp] theorem writeIrqStatus_regs_errCode (s : State) (v : Word) : (writeIrqStatus s v).regs.errCode = s.regs.errCode := rfl
@[simp] theorem writeIrqStatus_regs_overrun (s : State) (v : Word) : (writeIrqStatus s v).regs.overrun = s.regs.overrun := rfl
@[simp] theorem writeIrqStatus_regs_done (s : State) (v : Word) : (writeIrqStatus s v).regs.done = (s.regs.done && !v.getLsbD 0) := rfl
@[simp] theorem writeIrqStatus_regs_result (s : State) (v : Word) : (writeIrqStatus s v).regs.result = s.regs.result := rfl
@[simp] theorem writeIrqStatus_regs_src (s : State) (v : Word) : (writeIrqStatus s v).regs.src = s.regs.src := rfl
@[simp] theorem writeIrqStatus_regs_dst (s : State) (v : Word) : (writeIrqStatus s v).regs.dst = s.regs.dst := rfl
@[simp] theorem writeIrqStatus_regs_len (s : State) (v : Word) : (writeIrqStatus s v).regs.len = s.regs.len := rfl
@[simp] theorem writeIrqStatus_regs_prior (s : State) (v : Word) : (writeIrqStatus s v).regs.prior = s.regs.prior := rfl
@[simp] theorem writeIrqStatus_regs_workers (s : State) (v : Word) : (writeIrqStatus s v).regs.workers = s.regs.workers := rfl
@[simp] theorem writeIrqStatus_regs_faultAddr (s : State) (v : Word) : (writeIrqStatus s v).regs.faultAddr = s.regs.faultAddr := rfl
@[simp] theorem writeIrqStatus_regs_faultIndex (s : State) (v : Word) : (writeIrqStatus s v).regs.faultIndex = s.regs.faultIndex := rfl
@[simp] theorem writeIrqStatus_regs_hash (s : State) (v : Word) : (writeIrqStatus s v).regs.hash = s.regs.hash := rfl
@[simp] theorem writeIrqStatus_ctl (s : State) (v : Word) : (writeIrqStatus s v).ctl = s.ctl := rfl
@[simp] theorem writeIrqStatus_path (s : State) (v : Word) : (writeIrqStatus s v).path = s.path := rfl
@[simp] theorem writeIrqStatus_batch (s : State) (v : Word) : (writeIrqStatus s v).batch = s.batch := rfl
@[simp] theorem writeIrqStatus_lanes (s : State) (v : Word) : (writeIrqStatus s v).lanes = s.lanes := rfl
@[simp] theorem writeIrqStatus_mem (s : State) (v : Word) : (writeIrqStatus s v).mem = s.mem := rfl
@[simp] theorem writeIrqStatus_host (s : State) (v : Word) : (writeIrqStatus s v).host = s.host := rfl
@[simp] theorem writeIrqStatus_lastRead (s : State) (v : Word) : (writeIrqStatus s v).lastRead = s.lastRead := rfl
@[simp] theorem writeIrqStatus_schedule (s : State) (v : Word) : (writeIrqStatus s v).schedule = s.schedule := rfl
@[simp] theorem writeIrqStatus_patience (s : State) (v : Word) : (writeIrqStatus s v).patience = s.patience := rfl
@[simp] theorem writeIrqStatus_tick (s : State) (v : Word) : (writeIrqStatus s v).tick = s.tick := rfl

/-! ### `writeIrqEn` -/

@[simp] theorem writeIrqEn_params (s : State) (v : Word) : (writeIrqEn s v).params = s.params := rfl
@[simp] theorem writeIrqEn_regs_irqEn (s : State) (v : Word) : (writeIrqEn s v).regs.irqEn = v.getLsbD 0 := rfl
@[simp] theorem writeIrqEn_regs_cmd (s : State) (v : Word) : (writeIrqEn s v).regs.cmd = s.regs.cmd := rfl
@[simp] theorem writeIrqEn_regs_err (s : State) (v : Word) : (writeIrqEn s v).regs.err = s.regs.err := rfl
@[simp] theorem writeIrqEn_regs_errCode (s : State) (v : Word) : (writeIrqEn s v).regs.errCode = s.regs.errCode := rfl
@[simp] theorem writeIrqEn_regs_overrun (s : State) (v : Word) : (writeIrqEn s v).regs.overrun = s.regs.overrun := rfl
@[simp] theorem writeIrqEn_regs_done (s : State) (v : Word) : (writeIrqEn s v).regs.done = s.regs.done := rfl
@[simp] theorem writeIrqEn_regs_result (s : State) (v : Word) : (writeIrqEn s v).regs.result = s.regs.result := rfl
@[simp] theorem writeIrqEn_regs_src (s : State) (v : Word) : (writeIrqEn s v).regs.src = s.regs.src := rfl
@[simp] theorem writeIrqEn_regs_dst (s : State) (v : Word) : (writeIrqEn s v).regs.dst = s.regs.dst := rfl
@[simp] theorem writeIrqEn_regs_len (s : State) (v : Word) : (writeIrqEn s v).regs.len = s.regs.len := rfl
@[simp] theorem writeIrqEn_regs_prior (s : State) (v : Word) : (writeIrqEn s v).regs.prior = s.regs.prior := rfl
@[simp] theorem writeIrqEn_regs_workers (s : State) (v : Word) : (writeIrqEn s v).regs.workers = s.regs.workers := rfl
@[simp] theorem writeIrqEn_regs_faultAddr (s : State) (v : Word) : (writeIrqEn s v).regs.faultAddr = s.regs.faultAddr := rfl
@[simp] theorem writeIrqEn_regs_faultIndex (s : State) (v : Word) : (writeIrqEn s v).regs.faultIndex = s.regs.faultIndex := rfl
@[simp] theorem writeIrqEn_regs_hash (s : State) (v : Word) : (writeIrqEn s v).regs.hash = s.regs.hash := rfl
@[simp] theorem writeIrqEn_ctl (s : State) (v : Word) : (writeIrqEn s v).ctl = s.ctl := rfl
@[simp] theorem writeIrqEn_path (s : State) (v : Word) : (writeIrqEn s v).path = s.path := rfl
@[simp] theorem writeIrqEn_batch (s : State) (v : Word) : (writeIrqEn s v).batch = s.batch := rfl
@[simp] theorem writeIrqEn_lanes (s : State) (v : Word) : (writeIrqEn s v).lanes = s.lanes := rfl
@[simp] theorem writeIrqEn_mem (s : State) (v : Word) : (writeIrqEn s v).mem = s.mem := rfl
@[simp] theorem writeIrqEn_host (s : State) (v : Word) : (writeIrqEn s v).host = s.host := rfl
@[simp] theorem writeIrqEn_lastRead (s : State) (v : Word) : (writeIrqEn s v).lastRead = s.lastRead := rfl
@[simp] theorem writeIrqEn_schedule (s : State) (v : Word) : (writeIrqEn s v).schedule = s.schedule := rfl
@[simp] theorem writeIrqEn_patience (s : State) (v : Word) : (writeIrqEn s v).patience = s.patience := rfl
@[simp] theorem writeIrqEn_tick (s : State) (v : Word) : (writeIrqEn s v).tick = s.tick := rfl

/-! ### `complete` -/

@[simp] theorem complete_params (s : State) (e : BitVec 8) : (complete s e).params = s.params := rfl
@[simp] theorem complete_regs_irqEn (s : State) (e : BitVec 8) : (complete s e).regs.irqEn = s.regs.irqEn := rfl
@[simp] theorem complete_regs_cmd (s : State) (e : BitVec 8) : (complete s e).regs.cmd = s.regs.cmd := rfl
@[simp] theorem complete_regs_err (s : State) (e : BitVec 8) : (complete s e).regs.err = (e != 0x00#8) := rfl
@[simp] theorem complete_regs_errCode (s : State) (e : BitVec 8) : (complete s e).regs.errCode = e := rfl
@[simp] theorem complete_regs_overrun (s : State) (e : BitVec 8) : (complete s e).regs.overrun = s.regs.overrun := rfl
@[simp] theorem complete_regs_done (s : State) (e : BitVec 8) : (complete s e).regs.done = true := rfl
@[simp] theorem complete_regs_result (s : State) (e : BitVec 8) : (complete s e).regs.result = s.regs.result := rfl
@[simp] theorem complete_regs_src (s : State) (e : BitVec 8) : (complete s e).regs.src = s.regs.src := rfl
@[simp] theorem complete_regs_dst (s : State) (e : BitVec 8) : (complete s e).regs.dst = s.regs.dst := rfl
@[simp] theorem complete_regs_len (s : State) (e : BitVec 8) : (complete s e).regs.len = s.regs.len := rfl
@[simp] theorem complete_regs_prior (s : State) (e : BitVec 8) : (complete s e).regs.prior = s.regs.prior := rfl
@[simp] theorem complete_regs_workers (s : State) (e : BitVec 8) : (complete s e).regs.workers = s.regs.workers := rfl
@[simp] theorem complete_regs_faultAddr (s : State) (e : BitVec 8) : (complete s e).regs.faultAddr = s.regs.faultAddr := rfl
@[simp] theorem complete_regs_faultIndex (s : State) (e : BitVec 8) : (complete s e).regs.faultIndex = s.regs.faultIndex := rfl
@[simp] theorem complete_regs_hash (s : State) (e : BitVec 8) : (complete s e).regs.hash = s.regs.hash := rfl
@[simp] theorem complete_ctl_phase (s : State) (e : BitVec 8) : (complete s e).ctl.phase = .idle := rfl
@[simp] theorem complete_ctl_word (s : State) (e : BitVec 8) : (complete s e).ctl.word = s.ctl.word := rfl
@[simp] theorem complete_ctl_src (s : State) (e : BitVec 8) : (complete s e).ctl.src = s.ctl.src := rfl
@[simp] theorem complete_ctl_dst (s : State) (e : BitVec 8) : (complete s e).ctl.dst = s.ctl.dst := rfl
@[simp] theorem complete_ctl_len (s : State) (e : BitVec 8) : (complete s e).ctl.len = s.ctl.len := rfl
@[simp] theorem complete_ctl_prior (s : State) (e : BitVec 8) : (complete s e).ctl.prior = s.ctl.prior := rfl
@[simp] theorem complete_ctl_workers (s : State) (e : BitVec 8) : (complete s e).ctl.workers = s.ctl.workers := rfl
@[simp] theorem complete_ctl_stateIn (s : State) (e : BitVec 8) : (complete s e).ctl.stateIn = s.ctl.stateIn := rfl
@[simp] theorem complete_path (s : State) (e : BitVec 8) : (complete s e).path = s.path := rfl
@[simp] theorem complete_batch (s : State) (e : BitVec 8) : (complete s e).batch = s.batch := rfl
@[simp] theorem complete_lanes (s : State) (e : BitVec 8) : (complete s e).lanes = s.lanes := rfl
@[simp] theorem complete_mem (s : State) (e : BitVec 8) : (complete s e).mem = s.mem := rfl
@[simp] theorem complete_host (s : State) (e : BitVec 8) : (complete s e).host = s.host := rfl
@[simp] theorem complete_lastRead (s : State) (e : BitVec 8) : (complete s e).lastRead = s.lastRead := rfl
@[simp] theorem complete_schedule (s : State) (e : BitVec 8) : (complete s e).schedule = s.schedule := rfl
@[simp] theorem complete_patience (s : State) (e : BitVec 8) : (complete s e).patience = s.patience := rfl
@[simp] theorem complete_tick (s : State) (e : BitVec 8) : (complete s e).tick = s.tick := rfl

/-! ### `raise` -/

@[simp] theorem raise_params (s : State) (c : ErrorCode) (a : DWord) : (raise s c a).params = s.params := rfl
@[simp] theorem raise_regs_irqEn (s : State) (c : ErrorCode) (a : DWord) : (raise s c a).regs.irqEn = s.regs.irqEn := rfl
@[simp] theorem raise_regs_cmd (s : State) (c : ErrorCode) (a : DWord) : (raise s c a).regs.cmd = s.regs.cmd := rfl
@[simp] theorem raise_regs_err (s : State) (c : ErrorCode) (a : DWord) : (raise s c a).regs.err = (errorByte c != 0x00#8) := rfl
@[simp] theorem raise_regs_errCode (s : State) (c : ErrorCode) (a : DWord) : (raise s c a).regs.errCode = errorByte c := rfl
@[simp] theorem raise_regs_overrun (s : State) (c : ErrorCode) (a : DWord) : (raise s c a).regs.overrun = s.regs.overrun := rfl
@[simp] theorem raise_regs_done (s : State) (c : ErrorCode) (a : DWord) : (raise s c a).regs.done = true := rfl
@[simp] theorem raise_regs_result (s : State) (c : ErrorCode) (a : DWord) : (raise s c a).regs.result = s.regs.result := rfl
@[simp] theorem raise_regs_src (s : State) (c : ErrorCode) (a : DWord) : (raise s c a).regs.src = s.regs.src := rfl
@[simp] theorem raise_regs_dst (s : State) (c : ErrorCode) (a : DWord) : (raise s c a).regs.dst = s.regs.dst := rfl
@[simp] theorem raise_regs_len (s : State) (c : ErrorCode) (a : DWord) : (raise s c a).regs.len = s.regs.len := rfl
@[simp] theorem raise_regs_prior (s : State) (c : ErrorCode) (a : DWord) : (raise s c a).regs.prior = s.regs.prior := rfl
@[simp] theorem raise_regs_workers (s : State) (c : ErrorCode) (a : DWord) : (raise s c a).regs.workers = s.regs.workers := rfl
@[simp] theorem raise_regs_faultAddr (s : State) (c : ErrorCode) (a : DWord) : (raise s c a).regs.faultAddr = a := rfl
@[simp] theorem raise_regs_faultIndex (s : State) (c : ErrorCode) (a : DWord) : (raise s c a).regs.faultIndex = s.regs.faultIndex := rfl
@[simp] theorem raise_regs_hash (s : State) (c : ErrorCode) (a : DWord) : (raise s c a).regs.hash = s.regs.hash := rfl
@[simp] theorem raise_ctl_phase (s : State) (c : ErrorCode) (a : DWord) : (raise s c a).ctl.phase = .idle := rfl
@[simp] theorem raise_ctl_word (s : State) (c : ErrorCode) (a : DWord) : (raise s c a).ctl.word = s.ctl.word := rfl
@[simp] theorem raise_ctl_src (s : State) (c : ErrorCode) (a : DWord) : (raise s c a).ctl.src = s.ctl.src := rfl
@[simp] theorem raise_ctl_dst (s : State) (c : ErrorCode) (a : DWord) : (raise s c a).ctl.dst = s.ctl.dst := rfl
@[simp] theorem raise_ctl_len (s : State) (c : ErrorCode) (a : DWord) : (raise s c a).ctl.len = s.ctl.len := rfl
@[simp] theorem raise_ctl_prior (s : State) (c : ErrorCode) (a : DWord) : (raise s c a).ctl.prior = s.ctl.prior := rfl
@[simp] theorem raise_ctl_workers (s : State) (c : ErrorCode) (a : DWord) : (raise s c a).ctl.workers = s.ctl.workers := rfl
@[simp] theorem raise_ctl_stateIn (s : State) (c : ErrorCode) (a : DWord) : (raise s c a).ctl.stateIn = s.ctl.stateIn := rfl
@[simp] theorem raise_path (s : State) (c : ErrorCode) (a : DWord) : (raise s c a).path = s.path := rfl
@[simp] theorem raise_batch (s : State) (c : ErrorCode) (a : DWord) : (raise s c a).batch = s.batch := rfl
@[simp] theorem raise_lanes (s : State) (c : ErrorCode) (a : DWord) : (raise s c a).lanes = s.lanes := rfl
@[simp] theorem raise_mem (s : State) (c : ErrorCode) (a : DWord) : (raise s c a).mem = s.mem := rfl
@[simp] theorem raise_host (s : State) (c : ErrorCode) (a : DWord) : (raise s c a).host = s.host := rfl
@[simp] theorem raise_lastRead (s : State) (c : ErrorCode) (a : DWord) : (raise s c a).lastRead = s.lastRead := rfl
@[simp] theorem raise_schedule (s : State) (c : ErrorCode) (a : DWord) : (raise s c a).schedule = s.schedule := rfl
@[simp] theorem raise_patience (s : State) (c : ErrorCode) (a : DWord) : (raise s c a).patience = s.patience := rfl
@[simp] theorem raise_tick (s : State) (c : ErrorCode) (a : DWord) : (raise s c a).tick = s.tick := rfl

/-! ### `startBatch` -/

@[simp] theorem freshLane_lstate : freshLane.lstate = .fetch := rfl
@[simp] theorem startBatch_params (s : State) (nl : Nat) : (startBatch s nl).params = s.params := rfl
@[simp] theorem startBatch_regs (s : State) (nl : Nat) : (startBatch s nl).regs = s.regs := rfl
@[simp] theorem startBatch_ctl_phase (s : State) (nl : Nat) : (startBatch s nl).ctl.phase = .batch := rfl
@[simp] theorem startBatch_ctl_word (s : State) (nl : Nat) : (startBatch s nl).ctl.word = s.ctl.word := rfl
@[simp] theorem startBatch_ctl_src (s : State) (nl : Nat) : (startBatch s nl).ctl.src = s.ctl.src := rfl
@[simp] theorem startBatch_ctl_dst (s : State) (nl : Nat) : (startBatch s nl).ctl.dst = s.ctl.dst := rfl
@[simp] theorem startBatch_ctl_len (s : State) (nl : Nat) : (startBatch s nl).ctl.len = s.ctl.len := rfl
@[simp] theorem startBatch_ctl_prior (s : State) (nl : Nat) : (startBatch s nl).ctl.prior = s.ctl.prior := rfl
@[simp] theorem startBatch_ctl_workers (s : State) (nl : Nat) : (startBatch s nl).ctl.workers = s.ctl.workers := rfl
@[simp] theorem startBatch_ctl_stateIn (s : State) (nl : Nat) : (startBatch s nl).ctl.stateIn = s.ctl.stateIn := rfl
@[simp] theorem startBatch_path (s : State) (nl : Nat) : (startBatch s nl).path = s.path := rfl
@[simp] theorem startBatch_batch (s : State) (nl : Nat) : (startBatch s nl).batch = { count := lenOp s, next := 0, used := nl, errv := none } := rfl
@[simp] theorem startBatch_lanes (s : State) (nl : Nat) : (startBatch s nl).lanes = startLanes nl s.lanes := rfl
@[simp] theorem startBatch_mem (s : State) (nl : Nat) : (startBatch s nl).mem = s.mem := rfl
@[simp] theorem startBatch_host (s : State) (nl : Nat) : (startBatch s nl).host = s.host := rfl
@[simp] theorem startBatch_lastRead (s : State) (nl : Nat) : (startBatch s nl).lastRead = s.lastRead := rfl
@[simp] theorem startBatch_schedule (s : State) (nl : Nat) : (startBatch s nl).schedule = s.schedule := rfl
@[simp] theorem startBatch_patience (s : State) (nl : Nat) : (startBatch s nl).patience = s.patience := rfl
@[simp] theorem startBatch_tick (s : State) (nl : Nat) : (startBatch s nl).tick = s.tick := rfl

/-! ### `latchCommand` -/

@[simp] theorem latchCommand_params (s : State) (c : Word) : (latchCommand s c).params = s.params := rfl
@[simp] theorem latchCommand_regs_irqEn (s : State) (c : Word) : (latchCommand s c).regs.irqEn = s.regs.irqEn := rfl
@[simp] theorem latchCommand_regs_cmd (s : State) (c : Word) : (latchCommand s c).regs.cmd = c := rfl
@[simp] theorem latchCommand_regs_err (s : State) (c : Word) : (latchCommand s c).regs.err = false := rfl
@[simp] theorem latchCommand_regs_errCode (s : State) (c : Word) : (latchCommand s c).regs.errCode = 0x00#8 := rfl
@[simp] theorem latchCommand_regs_overrun (s : State) (c : Word) : (latchCommand s c).regs.overrun = s.regs.overrun := rfl
@[simp] theorem latchCommand_regs_done (s : State) (c : Word) : (latchCommand s c).regs.done = false := rfl
@[simp] theorem latchCommand_regs_result (s : State) (c : Word) : (latchCommand s c).regs.result = 0#64 := rfl
@[simp] theorem latchCommand_regs_src (s : State) (c : Word) : (latchCommand s c).regs.src = s.regs.src := rfl
@[simp] theorem latchCommand_regs_dst (s : State) (c : Word) : (latchCommand s c).regs.dst = s.regs.dst := rfl
@[simp] theorem latchCommand_regs_len (s : State) (c : Word) : (latchCommand s c).regs.len = s.regs.len := rfl
@[simp] theorem latchCommand_regs_prior (s : State) (c : Word) : (latchCommand s c).regs.prior = s.regs.prior := rfl
@[simp] theorem latchCommand_regs_workers (s : State) (c : Word) : (latchCommand s c).regs.workers = s.regs.workers := rfl
@[simp] theorem latchCommand_regs_faultAddr (s : State) (c : Word) : (latchCommand s c).regs.faultAddr = 0#64 := rfl
@[simp] theorem latchCommand_regs_faultIndex (s : State) (c : Word) : (latchCommand s c).regs.faultIndex = 0#64 := rfl
@[simp] theorem latchCommand_regs_hash (s : State) (c : Word) : (latchCommand s c).regs.hash = s.regs.hash := rfl
@[simp] theorem latchCommand_ctl_phase (s : State) (c : Word) : (latchCommand s c).ctl.phase = s.ctl.phase := rfl
@[simp] theorem latchCommand_ctl_word (s : State) (c : Word) : (latchCommand s c).ctl.word = c := rfl
@[simp] theorem latchCommand_ctl_src (s : State) (c : Word) : (latchCommand s c).ctl.src = s.regs.src := rfl
@[simp] theorem latchCommand_ctl_dst (s : State) (c : Word) : (latchCommand s c).ctl.dst = s.regs.dst := rfl
@[simp] theorem latchCommand_ctl_len (s : State) (c : Word) : (latchCommand s c).ctl.len = s.regs.len := rfl
@[simp] theorem latchCommand_ctl_prior (s : State) (c : Word) : (latchCommand s c).ctl.prior = s.regs.prior := rfl
@[simp] theorem latchCommand_ctl_workers (s : State) (c : Word) : (latchCommand s c).ctl.workers = s.regs.workers := rfl
@[simp] theorem latchCommand_ctl_stateIn (s : State) (c : Word) : (latchCommand s c).ctl.stateIn = s.regs.hash := rfl
@[simp] theorem latchCommand_path (s : State) (c : Word) : (latchCommand s c).path = s.path := rfl
@[simp] theorem latchCommand_batch (s : State) (c : Word) : (latchCommand s c).batch = s.batch := rfl
@[simp] theorem latchCommand_lanes (s : State) (c : Word) : (latchCommand s c).lanes = s.lanes := rfl
@[simp] theorem latchCommand_mem (s : State) (c : Word) : (latchCommand s c).mem = s.mem := rfl
@[simp] theorem latchCommand_host (s : State) (c : Word) : (latchCommand s c).host = s.host := rfl
@[simp] theorem latchCommand_lastRead (s : State) (c : Word) : (latchCommand s c).lastRead = s.lastRead := rfl
@[simp] theorem latchCommand_schedule (s : State) (c : Word) : (latchCommand s c).schedule = s.schedule := rfl
@[simp] theorem latchCommand_patience (s : State) (c : Word) : (latchCommand s c).patience = s.patience := rfl
@[simp] theorem latchCommand_tick (s : State) (c : Word) : (latchCommand s c).tick = s.tick := rfl

/-! ### `resetEngine` -/

@[simp] theorem resetEngine_regs (s : State) : (resetEngine s).regs = .reset := rfl
@[simp] theorem resetEngine_ctl (s : State) : (resetEngine s).ctl = .reset := rfl
@[simp] theorem resetEngine_params (s : State) : (resetEngine s).params = s.params := rfl
@[simp] theorem resetEngine_path (s : State) : (resetEngine s).path = .reset := rfl
@[simp] theorem resetEngine_batch (s : State) : (resetEngine s).batch = .reset := rfl
@[simp] theorem resetEngine_lanes (s : State) : (resetEngine s).lanes = List.replicate (nLanes s.params) .reset := rfl
@[simp] theorem resetEngine_mem (s : State) : (resetEngine s).mem = abandonedMem s := rfl
@[simp] theorem resetEngine_host (s : State) : (resetEngine s).host = s.host := rfl
@[simp] theorem resetEngine_lastRead (s : State) : (resetEngine s).lastRead = s.lastRead := rfl
@[simp] theorem resetEngine_schedule (s : State) : (resetEngine s).schedule = s.schedule := rfl
@[simp] theorem resetEngine_patience (s : State) : (resetEngine s).patience = s.patience := rfl
@[simp] theorem resetEngine_tick (s : State) : (resetEngine s).tick = s.tick := rfl

/-! ### `turn`: only the choice and the counter move -/

@[simp] theorem turn_params (s : State) : (turn s).params = s.params := by unfold turn; split <;> rfl
@[simp] theorem turn_regs (s : State) : (turn s).regs = s.regs := by unfold turn; split <;> rfl
@[simp] theorem turn_ctl (s : State) : (turn s).ctl = s.ctl := by unfold turn; split <;> rfl
@[simp] theorem turn_path (s : State) : (turn s).path = s.path := by unfold turn; split <;> rfl
@[simp] theorem turn_batch (s : State) : (turn s).batch = s.batch := by unfold turn; split <;> rfl
@[simp] theorem turn_lanes (s : State) : (turn s).lanes = s.lanes := by unfold turn; split <;> rfl
@[simp] theorem turn_mem (s : State) : (turn s).mem = s.mem := by unfold turn; split <;> rfl
@[simp] theorem turn_host (s : State) : (turn s).host = s.host := by unfold turn; split <;> rfl
@[simp] theorem turn_lastRead (s : State) : (turn s).lastRead = s.lastRead := by unfold turn; split <;> rfl

/-! ### Operands depend on the accept-time copies only -/

@[simp] theorem srcOp_turn (s : State) : srcOp (turn s) = srcOp s := by simp [srcOp]
@[simp] theorem dstOp_turn (s : State) : dstOp (turn s) = dstOp s := by simp [dstOp]
@[simp] theorem lenOp_turn (s : State) : lenOp (turn s) = lenOp s := by simp [lenOp]
@[simp] theorem priorOp_turn (s : State) : priorOp (turn s) = priorOp s := by simp [priorOp]
@[simp] theorem workersOp_turn (s : State) : workersOp (turn s) = workersOp s := by simp [workersOp]

end Sys2Proof.Machine
end

