-- ==== Sys2Proof/Laws/Exec.lean ====
section
/-! SUPPORT. What each shared operation and each agent's step can do, said once: inversion lemmas that later proofs cite
instead of unfolding. -/

namespace Sys2Proof.Machine

open Sys2Proof.Config

/-! ### Single-message commands -/

/-- What a successful single-message command leaves, before completion: the datapath, one written region, `STATE` and
`RESULT` (20_memory.md R86). -/
def singleResult (s : State) (i : Instr) (p : Path) (v : List Byte) (h : HashState) (r : DWord) : State :=
  { s with
    path := p
    mem  := writeBytes s.mem (destRegion s i).lo v
    regs := { s.regs with hash := h, result := r } }

@[simp] theorem settle_ok (s t : State) : settle s (.ok t) = .next (complete t 0x00#8) := rfl

@[simp] theorem settle_raise (s : State) (p : Path) (c : ErrorCode) (a : DWord) :
    settle s (.error { path := p, stop := .raise c a }) = .next (raise (setPath s p) c a) := rfl

@[simp] theorem settle_refuse (s : State) (p : Path) (r : Refusal) :
    settle s (.error { path := p, stop := .refuse r }) = .refused r := rfl

/-- How a request or a check of a command can end early. -/
def CanStop (e : Stop) : Prop := e = .raise .length 0#64 ∨ (∃ a, e = .raise .bus a) ∨ e = .refuse .notPlainMemory

theorem checkLength_canStop {n : Nat} {p : Path} {h : Halted} (hh : haltAt p (checkLength n) = .error h) :
    CanStop h.stop := by
  have := (haltAt_eq_error.mp hh).1
  unfold checkLength at this
  split at this
  · exact .inl (Except.error.inj this).symm
  · cases this

theorem memRead_canStop {s : State} {p : Path} {a n : Nat} {h : Halted} (hh : haltAt p (memRead s a n) = .error h) :
    CanStop h.stop := .inr (memRead_error (haltAt_eq_error.mp hh).1)

theorem readTail_canStop {s : State} {p : Path} {src len : Nat} {h : Halted}
    (hh : haltAt p (readTail s src len) = .error h) : CanStop h.stop := .inr (readTail_error (haltAt_eq_error.mp hh).1)

theorem memWrite_canStop {s : State} {p : Path} {a : Nat} {v : List Byte} {h : Halted}
    (hh : haltAt p (memWrite s a v) = .error h) : CanStop h.stop :=
  .inr (.inl (memWrite_error (haltAt_eq_error.mp hh).1))

/-- Everything a single-message command can do: it succeeds, with one admitted write at most and `STATE` and `RESULT` kept
by the commands that do not write them, or completes with ERR_LENGTH or ERR_BUS and leaves the rest but the datapath
alone, or reads memory that is not plain. -/
theorem exec_single_cases (i : Instr) (hi : i ≠ .hashBatch) (s : State) :
    (∃ p v h r, exec i s = .next (complete (singleResult s i p v h r) 0x00#8) ∧ v.length = (destRegion s i).len ∧
      (v = [] ∨ writable s (destRegion s i).lo v.length = true) ∧
      (i ∈ [Instr.expand, .pad, .toDigest] → h = s.regs.hash) ∧
      (i ∈ [Instr.init, .compress, .expand, .toDigest, .fromDigest] → r = s.regs.result)) ∨
    (∃ c a p, exec i s = .next (raise (setPath s p) c a) ∧ (c = .length ∨ c = .bus)) ∨
    exec i s = .refused .notPlainMemory := by
  have herr : ∀ h : Halted, CanStop h.stop →
      (∃ c a p, settle s (.error h) = .next (raise (setPath s p) c a) ∧ (c = .length ∨ c = .bus)) ∨
      settle s (.error h) = .refused .notPlainMemory := by
    rintro ⟨p, e⟩ (h | ⟨a, h⟩ | h) <;> dsimp only at h <;> subst h
    · exact .inl ⟨.length, 0#64, p, rfl, .inl rfl⟩
    · exact .inl ⟨.bus, a, p, rfl, .inr rfl⟩
    · exact .inr rfl
  have hinto : ∀ (j : Instr) (v0 : HashState) (prior : Nat), destRegion s j = { lo := dstOp s, len := 32 } →
      j ∉ [Instr.expand, .pad, .toDigest] → j ∉ [Instr.init, .compress, .expand, .toDigest, .fromDigest] →
      (∃ p v h r, settle s (hashInto s v0 prior) = .next (complete (singleResult s j p v h r) 0x00#8) ∧
        v.length = (destRegion s j).len ∧ (v = [] ∨ writable s (destRegion s j).lo v.length = true) ∧
        (j ∈ [Instr.expand, .pad, .toDigest] → h = s.regs.hash) ∧
        (j ∈ [Instr.init, .compress, .expand, .toDigest, .fromDigest] → r = s.regs.result)) ∨
      (∃ c a p, settle s (hashInto s v0 prior) = .next (raise (setPath s p) c a) ∧ (c = .length ∨ c = .bus)) ∨
      settle s (hashInto s v0 prior) = .refused .notPlainMemory := by
    intro j v0 prior hj hn1 hn2
    unfold hashInto
    split
    · rename_i h hh; exact .inr (herr h (checkLength_canStop hh))
    · split
      · rename_i h hh; exact .inr (herr h (.inr (hashMessage_error hh)))
      · rename_i p hp
        split
        · rename_i h hh; exact .inr (herr h (memWrite_canStop hh))
        · rename_i u hu
          obtain ⟨h1, rfl⟩ := memWrite_ok (haltAt_eq_ok.mp hu)
          refine .inl ⟨p, toDigestBytes p.v, p.v, BitVec.ofNat 64 (lenOp s / 64 + count (lenOp s)), ?_, ?_, .inr ?_,
            fun h => absurd h hn1, fun h => absurd h hn2⟩
          · simp only [settle_ok, singleResult, hj, setResult, setHash, setPath, setMem]
          · rw [hj, toDigestBytes_length]
          · rw [hj]
            exact h1
  cases i with
  | init => exact .inl ⟨s.path, [], iv, s.regs.result, rfl, rfl, .inl rfl, by simp, fun _ => rfl⟩
  | compress =>
    simp only [exec, execCompress]
    split
    · rename_i h hh; exact .inr (herr h (memRead_canStop hh))
    · exact .inl ⟨_, [], _, s.regs.result, rfl, rfl, .inl rfl, by simp, fun _ => rfl⟩
  | expand =>
    simp only [exec, execExpand]
    split
    · rename_i h hh; exact .inr (herr h (memRead_canStop hh))
    · rename_i b hb
      simp only [expandInPath_w, expandInPath_w1]
      cases hw : haltAt (expandInPath s.path b) (memWrite (setPath s (expandInPath s.path b)) (dstOp s)
        (expansionDump (expandW b) (expandW1 (expandW b)))) with
      | error h => exact .inr (herr h (memWrite_canStop hw))
      | ok u =>
        obtain ⟨h1, rfl⟩ := memWrite_ok (haltAt_eq_ok.mp hw)
        refine .inl ⟨expandInPath s.path b, expansionDump (expandW b) (expandW1 (expandW b)), s.regs.hash,
          s.regs.result, ?_, expansionDump_length b, .inr h1, fun _ => rfl, fun _ => rfl⟩
        simp only [settle_ok, singleResult, destRegion, setPath, setMem]
  | pad =>
    simp only [exec, execPad]
    split
    · rename_i h hh; exact .inr (herr h (checkLength_canStop hh))
    · split
      · rename_i h hh; exact .inr (herr h (readTail_canStop hh))
      · rename_i tail ht
        split
        · rename_i h hh; exact .inr (herr h (memWrite_canStop hh))
        · rename_i u hu
          obtain ⟨h1, rfl⟩ := memWrite_ok (haltAt_eq_ok.mp hu)
          refine .inl ⟨emptyTrailer s.path, tail ++ padSuffix (lenOp s) (priorOp s), s.regs.hash,
            BitVec.ofNat 64 (count (lenOp s)), ?_, ?_, .inr h1, fun _ => rfl, by simp⟩
          · simp only [settle_ok, singleResult, destRegion, setPath, setResult, setMem, fillTrailer, emptyTrailer]
          exact tail_padSuffix_length _ _ _ (by rw [(readTail_inv (haltAt_eq_ok.mp ht)).2]; simp)
  | toDigest =>
    simp only [exec, execToDigest]
    cases hw : haltAt s.path (memWrite s (dstOp s) (toDigestBytes s.ctl.stateIn)) with
    | error h => exact .inr (herr h (memWrite_canStop hw))
    | ok u =>
      obtain ⟨h1, rfl⟩ := memWrite_ok (haltAt_eq_ok.mp hw)
      refine .inl ⟨s.path, toDigestBytes s.ctl.stateIn, s.regs.hash, s.regs.result, ?_, toDigestBytes_length _, .inr h1,
        fun _ => rfl, fun _ => rfl⟩
      simp only [settle_ok, singleResult, destRegion, setMem]
  | fromDigest =>
    simp only [exec, execFromDigest]
    split
    · rename_i h hh; exact .inr (herr h (memRead_canStop hh))
    · exact .inl ⟨_, [], _, s.regs.result, rfl, rfl, .inl rfl, by simp, fun _ => rfl⟩
  | hash => exact hinto .hash iv 0 rfl (by simp) (by simp)
  | hashContinue => exact hinto .hashContinue s.ctl.stateIn (priorOp s) rfl (by simp) (by simp)
  | hashBatch => exact absurd rfl hi

/-! ### HASH_BATCH's start -/

/-- Everything the start of a batch can do (43_batch.md R260, R269; 70_reset_and_hazards.md R355). -/
theorem execHashBatch_cases (s : State) :
    (lenOp s = 0 ∧ execHashBatch s =
      .next (complete (setResult { s with batch := { s.batch with count := 0 } } 0) 0x00#8)) ∨
    (lenOp s ≠ 0 ∧ batchOverlap s = true ∧ execHashBatch s = .refused .batchOverlapDuty) ∨
    (lenOp s ≠ 0 ∧ batchOverlap s = false ∧ execHashBatch s =
      .next (startBatch s (lanesUsed (nLanes s.params) (workersOp s) (lenOp s)))) := by
  unfold execHashBatch
  by_cases h : lenOp s = 0
  · simp [h]
  · cases hb : batchOverlap s <;> simp [h]

/-! ### Accept and register writes -/

/-- Everything accept can do (30_encoding.md R113). -/
theorem accept_cases (s : State) (c : Word) :
    (∃ why, decode c = .illegal why ∧ accept s c = .next (raise (latchCommand s c) .illegalCmd 0#64)) ∨
    (decode c = .command .hashBatch ∧ accept s c = execHashBatch (latchCommand s c)) ∨
    (∃ i, decode c = .command i ∧ i ≠ .hashBatch ∧ accept s c = .next (setPhase (latchCommand s c) .single)) := by
  unfold accept
  cases h : decode c with
  | illegal why => exact .inl ⟨why, rfl, rfl⟩
  | command i =>
    cases i with
    | hashBatch => exact .inr (.inl ⟨rfl, rfl⟩)
    | init => exact .inr (.inr ⟨.init, rfl, by decide, rfl⟩)
    | compress => exact .inr (.inr ⟨.compress, rfl, by decide, rfl⟩)
    | expand => exact .inr (.inr ⟨.expand, rfl, by decide, rfl⟩)
    | pad => exact .inr (.inr ⟨.pad, rfl, by decide, rfl⟩)
    | toDigest => exact .inr (.inr ⟨.toDigest, rfl, by decide, rfl⟩)
    | fromDigest => exact .inr (.inr ⟨.fromDigest, rfl, by decide, rfl⟩)
    | hash => exact .inr (.inr ⟨.hash, rfl, by decide, rfl⟩)
    | hashContinue => exact .inr (.inr ⟨.hashContinue, rfl, by decide, rfl⟩)

/-- What a write of an argument register leaves alone: every register but the arguments (10_state.md R46). -/
theorem writeArg_frame {g g' : RegFile} {v : Word} {r : Reg} (h : writeArg g v r = some g') :
    g'.irqEn = g.irqEn ∧ g'.cmd = g.cmd ∧ g'.err = g.err ∧ g'.errCode = g.errCode ∧ g'.overrun = g.overrun ∧
      g'.done = g.done ∧ g'.result = g.result ∧ g'.faultAddr = g.faultAddr ∧ g'.faultIndex = g.faultIndex := by
  cases r <;> simp only [writeArg, Option.some.injEq, reduceCtorEq] at h <;> subst h <;> simp

/-- Everything a host write of a register can do (70_reset_and_hazards.md R344). -/
theorem writeReg_cases (s : State) (r : Reg) (v : Word) :
    (r = .ctrl ∧ writeReg s r v = .next (writeCtrl s v)) ∨
    (r = .status ∧ writeReg s r v = .next (writeStatus s v)) ∨
    (r = .irqStatus ∧ writeReg s r v = .next (writeIrqStatus s v)) ∨
    (busy s = true ∧ writeReg s r v = .next (setOverrun s)) ∨
    (r = .cmd ∧ busy s = false ∧ writeReg s r v = accept s v) ∨
    (∃ g, writeArg s.regs v r = some g ∧ busy s = false ∧ writeReg s r v = .next { s with regs := g }) ∨
    (writeArg s.regs v r = none ∧ writeReg s r v = .next s) := by
  cases r with
  | ctrl => exact .inl ⟨rfl, rfl⟩
  | status => exact .inr (.inl ⟨rfl, rfl⟩)
  | irqStatus => exact .inr (.inr (.inl ⟨rfl, rfl⟩))
  | cmd => cases h : busy s <;> simp [writeReg, h]
  | id => simp [writeReg, writeArg]
  | cap => simp [writeReg, writeArg]
  | resultLo => simp [writeReg, writeArg]
  | resultHi => simp [writeReg, writeArg]
  | faultAddrLo => simp [writeReg, writeArg]
  | faultAddrHi => simp [writeReg, writeArg]
  | faultIndexLo => simp [writeReg, writeArg]
  | faultIndexHi => simp [writeReg, writeArg]
  | srcLo => cases h : busy s <;> simp [writeReg, writeArg, h]
  | srcHi => cases h : busy s <;> simp [writeReg, writeArg, h]
  | dstLo => cases h : busy s <;> simp [writeReg, writeArg, h]
  | dstHi => cases h : busy s <;> simp [writeReg, writeArg, h]
  | lenLo => cases h : busy s <;> simp [writeReg, writeArg, h]
  | lenHi => cases h : busy s <;> simp [writeReg, writeArg, h]
  | priorLo => cases h : busy s <;> simp [writeReg, writeArg, h]
  | priorHi => cases h : busy s <;> simp [writeReg, writeArg, h]
  | workers => cases h : busy s <;> simp [writeReg, writeArg, h]
  | state k => cases h : busy s <;> simp [writeReg, writeArg, h]

/-! ### The host -/

/-- Everything the host's turn can do, when it answers a next state. -/
theorem hostStep_cases {s t : State} (h : hostStep s = .next t) :
    (s.host = [] ∧ t = s) ∨
    (∃ rest rd, t = { s with host := rest, lastRead := rd }) ∨
    (∃ rest offset v r, regAt offset = some r ∧ s.host = .wr offset v :: rest ∧
      writeReg { s with host := rest } r v = .next t) ∨
    (∃ rest a v, s.host = .store a v :: rest ∧ a.toNat + v.length ≤ addressSpace ∧
      writeBreaksDuty { s with host := rest } { lo := a.toNat, len := v.length } = false ∧
      t = setMem { s with host := rest } (writeBytes s.mem a.toNat v)) ∨
    (∃ rest, s.host = .hardReset :: rest ∧ t = resetEngine { s with host := rest }) := by
  unfold hostStep at h
  split at h
  · rename_i h0; exact .inl ⟨h0, (Host.Outcome.next.inj h).symm⟩
  · rename_i act rest h0
    right
    cases act with
    | rd offset =>
      simp only [hostDo, hostRead] at h
      split at h
      · exact .inl ⟨rest, _, (Host.Outcome.next.inj h).symm⟩
      · cases h
    | wr offset v =>
      simp only [hostDo, hostWrite, writeOffset] at h
      split at h
      · split at h
        · exact .inl ⟨rest, s.lastRead, (Host.Outcome.next.inj h).symm⟩
        · rename_i r hr; exact .inr (.inl ⟨rest, offset, v, r, hr, h0, h⟩)
      · cases h
    | load a n =>
      simp only [hostDo, hostLoad] at h
      split at h
      · cases h
      · split at h
        · cases h
        · split at h
          · cases h
          · exact .inl ⟨rest, _, (Host.Outcome.next.inj h).symm⟩
    | store a v =>
      simp only [hostDo, hostStore] at h
      split at h
      · cases h
      · rename_i h1
        split at h
        · cases h
        · split at h
          · cases h
          · rename_i h2
            exact .inr (.inr (.inl ⟨rest, a, v, h0, by omega, by simpa using h2, (Host.Outcome.next.inj h).symm⟩))
    | wait => exact .inl ⟨_, _, (Host.Outcome.next.inj h).symm⟩
    | hardReset => exact .inr (.inr (.inr ⟨rest, h0, (Host.Outcome.next.inj h).symm⟩))

/-! ### Lanes and the join -/

/-- Everything a lane's work on a message can do (43_batch.md R264): it reads the descriptor and the message, and writes
the digest to the slot; or it fails, or it reads memory that is not plain. -/
theorem messageWork_cases (s : State) (p : Path) (i : Nat) :
    (∃ q, messageWork s p i = .ok (q, setMem s (writeBytes s.mem (slotAddr s i) (batchDigest s i))) ∧
      readable s (descriptorAddr s i) 16 = true ∧ descriptorMsgLen (descriptorBytes s i) < lengthBound ∧
      messageReadable s (descriptorMsgAddr (descriptorBytes s i)) (descriptorMsgLen (descriptorBytes s i)) ∧
      writable s (slotAddr s i) 32 = true) ∨
    (∃ q c a, messageWork s p i = .error { path := q, stop := .raise c a } ∧ (c = .length ∨ c = .bus)) ∨
    ∃ q, messageWork s p i = .error { path := q, stop := .refuse .notPlainMemory } := by
  have herr : ∀ h : Halted, CanStop h.stop →
      (∃ q c a, (.error h : Except Halted (Path × State)) = .error { path := q, stop := .raise c a } ∧
        (c = .length ∨ c = .bus)) ∨
      ∃ q, (.error h : Except Halted (Path × State)) = .error { path := q, stop := .refuse .notPlainMemory } := by
    rintro ⟨p, e⟩ (h | ⟨a, h⟩ | h) <;> dsimp only at h <;> subst h
    · exact .inl ⟨p, .length, 0#64, rfl, .inl rfl⟩
    · exact .inl ⟨p, .bus, a, rfl, .inr rfl⟩
    · exact .inr ⟨p, rfl⟩
  unfold messageWork
  split
  · rename_i h hh; exact .inr (herr h (memRead_canStop hh))
  · rename_i d hd
    obtain ⟨h1, rfl⟩ := memRead_ok (haltAt_eq_ok.mp hd)
    split
    · rename_i h hh; exact .inr (herr h (checkLength_canStop hh))
    · rename_i hl
      have hl := haltAt_eq_ok.mp hl
      split
      · rename_i h hh; exact .inr (herr h (.inr (hashMessage_error hh)))
      · rename_i q hq
        obtain ⟨h2, h3⟩ := hashMessage_inv hq
        split
        · rename_i h hh; exact .inr (herr h (memWrite_canStop hh))
        · rename_i u hu
          obtain ⟨h4, rfl⟩ := memWrite_ok (haltAt_eq_ok.mp hu)
          refine .inl ⟨q, ?_, h1, ?_, h2, h4⟩
          · rw [h3]; rfl
          · unfold checkLength at hl
            split at hl
            · cases hl
            · rename_i h5; exact Nat.not_le.mp h5

/-- Everything a step of an enabled lane can do (43_batch.md R263, R264). -/
theorem laneStep_cases {s t : State} {k : Nat} (he : laneEnabled s k = true) (h : laneStep s k = .next t) :
    ∃ l, s.lanes[k]? = some l ∧
      ((l.lstate = .fetch ∧ s.batch.errv.isSome = true ∧ t = setLane s k { l with lstate := .retired }) ∨
       (l.lstate = .fetch ∧ s.batch.errv = none ∧ s.batch.count ≤ s.batch.next ∧
         t = setLane { s with batch := { s.batch with next := s.batch.next + 1 } } k { l with lstate := .retired }) ∨
       (l.lstate = .fetch ∧ s.batch.errv = none ∧ s.batch.next < s.batch.count ∧
         t = setLane { s with batch := { s.batch with next := s.batch.next + 1 } } k
           { l with lstate := .work, idx := s.batch.next }) ∨
       (l.lstate = .work ∧ readable s (descriptorAddr s l.idx) 16 = true ∧ writable s (slotAddr s l.idx) 32 = true ∧
         ∃ q, t = setLane (setMem s (writeBytes s.mem (slotAddr s l.idx) (batchDigest s l.idx))) k
           { l with lstate := .fetch, path := q }) ∨
       (l.lstate = .work ∧ ∃ c a q, (c = .length ∨ c = .bus) ∧
         t = setLane (latchError s c a l.idx) k { l with lstate := .retired, path := q })) := by
  unfold laneEnabled at he
  unfold laneStep at h
  cases hl : s.lanes[k]? with
  | none => rw [hl] at he; cases he
  | some l =>
    rw [hl] at he h
    refine ⟨l, rfl, ?_⟩
    simp only at he h
    cases hs : l.lstate with
    | off => rw [hs] at he; cases he
    | retired => rw [hs] at he; cases he
    | fetch =>
      rw [hs] at h
      simp only [laneFetch] at h
      split at h
      · rename_i hv; exact .inl ⟨rfl, hv, (Host.Outcome.next.inj h).symm⟩
      · rename_i hv0
        have hv : s.batch.errv = none := by simpa using hv0
        split at h
        · rename_i hc; exact .inr (.inl ⟨rfl, hv, hc, (Host.Outcome.next.inj h).symm⟩)
        · rename_i hc; exact .inr (.inr (.inl ⟨rfl, hv, by omega, (Host.Outcome.next.inj h).symm⟩))
    | work =>
      rw [hs] at h
      simp only [laneWork] at h
      rcases messageWork_cases s l.path l.idx with ⟨q, h1, h2, _, _, h5⟩ | ⟨q, c, a, h1, h2⟩ | ⟨q, h1⟩
      · rw [h1] at h
        exact .inr (.inr (.inr (.inl ⟨rfl, h2, h5, q, (Host.Outcome.next.inj h).symm⟩)))
      · rw [h1] at h
        exact .inr (.inr (.inr (.inr ⟨rfl, c, a, q, h2, (Host.Outcome.next.inj h).symm⟩)))
      · rw [h1] at h; cases h

/-! ### The scheduler and the step -/

/-- The agent that moves is an enabled one. -/
theorem pickAgent_mem {s : State} {a : Agent} (h : pickAgent s = some a) : a ∈ enabledAgents s := by
  unfold pickAgent at h
  split at h
  · cases h
  · rename_i b hb; rw [hb, ← Option.some.inj h]; exact List.mem_singleton.mpr rfl
  · rename_i heq
    rw [heq]
    exact List.mem_of_getElem? h

/-- With an enabled agent there is one that moves. -/
theorem pickAgent_isSome {s : State} (h : enabledAgents s ≠ []) : ∃ a, pickAgent s = some a := by
  unfold pickAgent
  split
  · rename_i h0; exact absurd h0 h
  · exact ⟨_, rfl⟩
  · rename_i a b rest _
    have hlt : nextChoice s % (a :: b :: rest).length < (a :: b :: rest).length :=
      Nat.mod_lt _ (by simp)
    exact ⟨_, List.getElem?_eq_getElem hlt⟩

theorem pickAgent_none_iff (s : State) : pickAgent s = none ↔ enabledAgents s = [] := by
  constructor
  · intro h
    by_contra h0
    obtain ⟨a, ha⟩ := pickAgent_isSome h0
    rw [ha] at h
    cases h
  · intro h; simp [pickAgent, h]

/-- Everything a step can do, when it answers a next state: nothing with no agent enabled, else one enabled agent's
step. -/
theorem step_cases {s t : State} (h : step s = .next t) :
    (enabledAgents s = [] ∧ t = s) ∨ ∃ a ∈ enabledAgents s, agentStep (turn s) a = .next t := by
  unfold step at h
  cases hp : pickAgent s with
  | none =>
    rw [hp] at h
    exact .inl ⟨(pickAgent_none_iff s).mp hp, (Host.Outcome.next.inj h).symm⟩
  | some a => rw [hp] at h; exact .inr ⟨a, pickAgent_mem hp, h⟩

/-- Which agents can be enabled, and when. -/
theorem mem_enabledAgents {s : State} {a : Agent} (h : a ∈ enabledAgents s) :
    (a = .host ∧ s.host ≠ []) ∨
    (a = .control ∧ s.ctl.phase = .single) ∨
    (a = .control ∧ s.ctl.phase = .batch ∧ allRetired s = true) ∨
    (∃ k, a = .lane k ∧ s.ctl.phase = .batch ∧ k < s.batch.used ∧ laneEnabled s k = true) := by
  unfold enabledAgents at h
  rcases List.mem_append.mp h with h | h
  · unfold hostAgents at h
    split at h
    · cases h
    · rename_i h0
      split at h
      · cases h
      · exact .inl ⟨List.mem_singleton.mp h, by simpa using h0⟩
  · unfold engineAgents at h
    split at h
    · cases h
    · rename_i hp; exact .inr (.inl ⟨List.mem_singleton.mp h, hp⟩)
    · rename_i hp
      split at h
      · rename_i hr; exact .inr (.inr (.inl ⟨List.mem_singleton.mp h, hp, hr⟩))
      · obtain ⟨k, hk, rfl⟩ := List.mem_map.mp h
        obtain ⟨h1, h2⟩ := List.mem_filter.mp hk
        exact .inr (.inr (.inr ⟨k, rfl, hp, List.mem_range.mp h1, h2⟩))

@[simp] theorem laneEnabled_turn (s : State) (k : Nat) : laneEnabled (turn s) k = laneEnabled s k := by
  simp [laneEnabled]

@[simp] theorem allRetired_turn (s : State) : allRetired (turn s) = allRetired s := by simp [allRetired]

end Sys2Proof.Machine
end

