-- ==== Sys2Proof/Laws/Invariant.lean ====
section
/-! SUPPORT. What each agent's step does to the parts of the invariant, said once per agent. -/

namespace Sys2Proof.Machine

open Sys2Proof.Config

/-! ### Which parts of the state the invariant sees -/

theorem BusyOk.of_same {s t : State} (h : BusyOk s) (hctl : t.ctl = s.ctl) (hcmd : t.regs.cmd = s.regs.cmd)
    (herr : t.regs.err = s.regs.err) (hcode : t.regs.errCode = s.regs.errCode) (hdone : t.regs.done = false)
    (hres : t.regs.result = s.regs.result) (hfa : t.regs.faultAddr = s.regs.faultAddr)
    (hfi : t.regs.faultIndex = s.regs.faultIndex) (hsrc : t.regs.src = s.regs.src) (hdst : t.regs.dst = s.regs.dst)
    (hlen : t.regs.len = s.regs.len) (hprior : t.regs.prior = s.regs.prior)
    (hworkers : t.regs.workers = s.regs.workers) (hhash : t.regs.hash = s.regs.hash) : BusyOk t := by
  obtain ⟨a1, a2, a3, a4, a5, a6, a7, a8, a9, a10, a11, a12, a13⟩ := h
  constructor <;> simp_all

theorem BatchOk.of_same {s t : State} (h : BatchOk s) (hctl : t.ctl = s.ctl) (hparams : t.params = s.params)
    (hbatch : t.batch = s.batch) (hlanes : t.lanes = s.lanes) : BatchOk t := by
  obtain ⟨a1, a2, a3, a4, a5, a6, a7, a8, a9⟩ := h
  refine ⟨by rw [hctl]; exact a1, by rw [hbatch, lenOp, hctl]; exact a2, by rw [hbatch]; exact a3, ?_,
    by rw [hbatch, hlanes]; exact a5, by rw [hbatch, hlanes]; exact a6, by rw [hlanes]; exact a7,
    by rw [hbatch, retiredCount, hlanes]; exact a8, by rw [hbatch]; exact a9⟩
  rw [hbatch, hparams, workersOp, hctl]
  exact a4

/-- The invariant sees neither the datapath nor the model's own fields, and of memory only its form. -/
theorem State.Inv.of_same {s t : State} (h : s.Inv) (hparams : t.params = s.params) (hregs : t.regs = s.regs)
    (hctl : t.ctl = s.ctl) (hbatch : t.batch = s.batch) (hlanes : t.lanes = s.lanes) (hm : t.mem.wf = true) :
    t.Inv := by
  obtain ⟨a1, a2, a3, a4, a5, a6, a7, a8⟩ := h
  refine ⟨hm, by rw [hlanes, hparams]; exact a2, by rw [hregs]; exact a3, by rw [hregs]; exact a4,
    by rw [hctl, hlanes]; exact a5, by rw [hctl]; exact a6, ?_, ?_⟩
  · rw [hctl]
    intro h
    have := a7 h
    apply this.of_same hctl <;> rw [hregs]
    exact this.done
  · rw [hctl]
    intro h
    exact (a8 h).of_same hctl hparams hbatch hlanes

/-- A change of registers other than `ERR` and `ERRCODE`. -/
theorem State.Inv.of_regs {s t : State} (h : s.Inv) (hparams : t.params = s.params) (hctl : t.ctl = s.ctl)
    (hbatch : t.batch = s.batch) (hlanes : t.lanes = s.lanes) (hmem : t.mem = s.mem)
    (herr : t.regs.err = s.regs.err) (hcode : t.regs.errCode = s.regs.errCode)
    (hbusy : s.ctl.phase ≠ .idle → BusyOk s → BusyOk t) : t.Inv := by
  obtain ⟨a1, a2, a3, a4, a5, a6, a7, a8⟩ := h
  refine ⟨by rw [hmem]; exact a1, by rw [hlanes, hparams]; exact a2, by rw [herr, hcode]; exact a3,
    by rw [hcode]; exact a4, by rw [hctl, hlanes]; exact a5, by rw [hctl]; exact a6, ?_, ?_⟩
  · rw [hctl]; intro h; exact hbusy h (a7 h)
  · rw [hctl]; intro h; exact (a8 h).of_same hctl hparams hbatch hlanes

/-- What is left of the invariant in an idle state. -/
theorem State.Inv.of_idle {t : State} (hm : t.mem.wf = true) (hlanes : t.lanes.length = nLanes t.params)
    (herr : t.regs.err = (t.regs.errCode != 0x00#8)) (hcode : t.regs.errCode ≤ 0x03#8)
    (hoff : ∀ l ∈ t.lanes, l.lstate = .off) (hi : t.ctl.phase = .idle) : t.Inv :=
  ⟨hm, hlanes, herr, hcode, fun _ => hoff, fun h => by (rw [hi] at h; cases h), fun h => absurd hi h,
    fun h => by (rw [hi] at h; cases h)⟩

theorem errorByte_known (c : ErrorCode) : true = (errorByte c != 0x00#8) ∧ errorByte c ≤ 0x03#8 := by
  cases c <;> decide

theorem busy_eq_false {s : State} (h : busy s = false) : s.ctl.phase = .idle := by simpa [busy] using h

theorem turn_inv {s : State} (h : s.Inv) : (turn s).Inv := by
  apply h.of_same <;> simp [h.memWf]

/-! ### Reset, accept and host writes -/

theorem resetEngine_inv {s : State} (h : s.mem.wf = true) : (resetEngine s).Inv := by
  apply State.Inv.of_idle
  · simp only [resetEngine, abandonedMem]
    split
    · exact h
    · exact drawBytes_wf h
  · simp [resetEngine, State.resetWith, nLanes]
  · rfl
  · exact (by decide : (0x00#8 : BitVec 8) ≤ 0x03#8)
  · intro l hl
    simp [resetEngine, State.resetWith] at hl
    subst hl
    rfl
  · rfl

theorem lanesUsed_bounds (nl w n : Nat) (hn : 0 < n) (hl : 0 < nl) :
    1 ≤ lanesUsed nl w n ∧ lanesUsed nl w n ≤ nl := by
  unfold lanesUsed
  split <;> omega

/-- The started lanes, one by one. -/
theorem startLanes_getElem? {nl : Nat} {L : List Lane} (hoff : ∀ l ∈ L, l.lstate = .off) {k : Nat} {l : Lane}
    (hk : (startLanes nl L)[k]? = some l) : (k < nl ∧ l.lstate = .fetch) ∨ (¬ k < nl ∧ l.lstate = .off) := by
  simp only [startLanes, List.getElem?_mapIdx, Option.map_eq_some_iff] at hk
  obtain ⟨l0, h0, rfl⟩ := hk
  split
  · exact .inl ⟨‹_›, rfl⟩
  · exact .inr ⟨‹_›, hoff _ (List.mem_of_getElem? h0)⟩

theorem startBatch_batchOk {s : State} (hoff : ∀ l ∈ s.lanes, l.lstate = .off) (hn : lenOp s ≠ 0)
    (hd : decode s.ctl.word = .command .hashBatch) :
    BatchOk (startBatch s (lanesUsed (nLanes s.params) (workersOp s) (lenOp s))) := by
  constructor
  · exact hd
  · rfl
  · exact Nat.pos_of_ne_zero hn
  · rfl
  · intro k l hk
    rcases startLanes_getElem? hoff hk with ⟨h, h'⟩ | ⟨h, h'⟩ <;> simp [startBatch, h, h']
  · intro k l hk hw
    rcases startLanes_getElem? hoff hk with ⟨_, h'⟩ | ⟨_, h'⟩ <;> rw [h'] at hw <;> cases hw
  · intro k k' l l' hk _ hw
    rcases startLanes_getElem? hoff hk with ⟨_, h'⟩ | ⟨_, h'⟩ <;> rw [h'] at hw <;> cases hw
  · exact Nat.zero_le _
  · intro e he
    cases he

theorem startBatch_inv {s : State} (hm : s.mem.wf = true) (hl : s.lanes.length = nLanes s.params)
    (hoff : ∀ l ∈ s.lanes, l.lstate = .off) (hn : lenOp s ≠ 0) (hd : decode s.ctl.word = .command .hashBatch)
    (hb : BusyOk s) (herr : s.regs.err = (s.regs.errCode != 0x00#8)) (hcode : s.regs.errCode ≤ 0x03#8) :
    (startBatch s (lanesUsed (nLanes s.params) (workersOp s) (lenOp s))).Inv := by
  refine ⟨hm, by simp [startBatch, startLanes, hl], herr, hcode, fun h => absurd rfl h, fun h => by (cases h),
    fun _ => ?_, fun _ => startBatch_batchOk hoff hn hd⟩
  obtain ⟨a1, a2, a3, a4, a5, a6, a7, a8, a9, a10, a11, a12, a13⟩ := hb
  constructor <;> assumption

theorem accept_inv {s t : State} {c : Word} (h : s.Inv) (hb : busy s = false) (ht : accept s c = .next t) :
    t.Inv := by
  have hp := busy_eq_false hb
  have hoff := h.lanesOff (by rw [hp]; decide)
  have hbo : BusyOk (latchCommand s c) := by constructor <;> rfl
  rcases accept_cases s c with ⟨w, h1, h2⟩ | ⟨h1, h2⟩ | ⟨j, h1, h2, h3⟩
  · rw [h2] at ht
    cases ht
    exact State.Inv.of_idle h.memWf h.laneCount rfl (errorByte_known .illegalCmd).2 hoff rfl
  · rw [h2] at ht
    rcases execHashBatch_cases (latchCommand s c) with ⟨_, h3⟩ | ⟨_, _, h3⟩ | ⟨h0, _, h3⟩ <;> rw [h3] at ht <;>
      cases ht
    · exact State.Inv.of_idle h.memWf h.laneCount rfl (by simp [complete, setResult]) hoff rfl
    · exact startBatch_inv h.memWf h.laneCount hoff h0 h1 hbo rfl (by simp [latchCommand])
  · rw [h3] at ht
    cases ht
    refine ⟨h.memWf, h.laneCount, rfl, by simp [latchCommand, setPhase], fun _ => hoff, fun _ => ⟨j, h1, h2⟩,
      fun _ => ?_, fun h => by (cases h)⟩
    constructor <;> rfl

theorem writeReg_inv {s t : State} {r : Reg} {v : Word} (h : s.Inv) (ht : writeReg s r v = .next t) : t.Inv := by
  rcases writeReg_cases s r v with ⟨_, h1⟩ | ⟨_, h1⟩ | ⟨_, h1⟩ | ⟨_, h1⟩ | ⟨_, hb, h1⟩ | ⟨g, hg, hb, h1⟩ | ⟨_, h1⟩ <;>
    rw [h1] at ht
  · cases ht
    unfold writeCtrl
    split
    · exact resetEngine_inv h.memWf
    · apply h.of_regs <;> try rfl
      intro _ hbo
      apply hbo.of_same <;> first | rfl | exact hbo.done
  · cases ht
    apply h.of_regs <;> try rfl
    intro _ hbo
    apply hbo.of_same <;> first | rfl | exact hbo.done
  · cases ht
    apply h.of_regs <;> try rfl
    intro _ hbo
    apply hbo.of_same <;> first | rfl | simp [hbo.done]
  · cases ht
    apply h.of_regs <;> try rfl
    intro _ hbo
    apply hbo.of_same <;> first | rfl | exact hbo.done
  · exact accept_inv h hb ht
  · cases ht
    have hf := writeArg_frame hg
    apply h.of_regs <;> try rfl
    · exact hf.2.2.1
    · exact hf.2.2.2.1
    · intro hi; exact absurd (busy_eq_false hb) hi
  · cases ht; exact h

theorem hostStep_inv {s t : State} (h : s.Inv) (ht : hostStep s = .next t) : t.Inv := by
  rcases hostStep_cases ht with ⟨_, rfl⟩ | ⟨rest, rd, rfl⟩ | ⟨rest, o, v, r, _, _, h1⟩ | ⟨rest, a, v, _, h1, _, rfl⟩ |
    ⟨rest, _, rfl⟩
  · exact h
  · exact h.of_same rfl rfl rfl rfl rfl h.memWf
  · exact writeReg_inv (h.of_same (t := { s with host := rest }) rfl rfl rfl rfl rfl h.memWf) h1
  · exact h.of_same rfl rfl rfl rfl rfl (writeBytes_wf h.memWf h1)
  · exact resetEngine_inv h.memWf

/-! ### The control unit -/

theorem executeLatched_inv {s t : State} (h : s.Inv) (hp : s.ctl.phase = .single) (ht : executeLatched s = .next t) :
    t.Inv := by
  obtain ⟨i, hd, hi⟩ := h.singleWord hp
  have hoff := h.lanesOff (by rw [hp]; decide)
  unfold executeLatched at ht
  rw [hd] at ht
  rcases exec_single_cases i hi s with ⟨p, v, hh, r, h1, h2, h3, _, _⟩ | ⟨c, a, p, h1, h2⟩ | h1 <;>
    simp only [h1] at ht <;> cases ht
  · refine State.Inv.of_idle ?_ h.laneCount rfl (by simp [complete, singleResult]) hoff rfl
    rcases h3 with rfl | h3
    · exact h.memWf
    · exact writeBytes_wf h.memWf (admitted_inSpace h3)
  · exact State.Inv.of_idle h.memWf h.laneCount rfl (errorByte_known c).2 hoff rfl

theorem joinStep_inv {s t : State} (h : s.Inv) (hp : s.ctl.phase = .batch) (ht : joinStep s = .next t) : t.Inv := by
  have hB := h.batchOk hp
  have hoff : ∀ l ∈ stopLanes s.batch.used s.lanes, l.lstate = .off := by
    intro l hl
    obtain ⟨k, hk⟩ := List.mem_iff_getElem?.mp hl
    simp only [stopLanes, List.getElem?_mapIdx, Option.map_eq_some_iff] at hk
    obtain ⟨l0, h0, rfl⟩ := hk
    split
    · rfl
    · rename_i hlt
      by_contra hne
      exact hlt ((hB.started k l0 h0).mpr hne)
  have hlen : (stopLanes s.batch.used s.lanes).length = nLanes s.params := by simp [stopLanes, h.laneCount]
  unfold joinStep at ht
  split at ht
  · cases ht
    exact State.Inv.of_idle h.memWf hlen rfl (by simp [complete, setResult]) hoff rfl
  · rename_i e he
    cases ht
    refine State.Inv.of_idle h.memWf hlen rfl ?_ hoff rfl
    rcases (hB.latch e he).1 with hc | hc <;> simp [complete, hc]

/-! ### Lanes -/

/-- Replacing one lane moves a count by that lane's share. -/
theorem countP_set_lane (L : List Lane) (k : Nat) (l l' : Lane) (hk : L[k]? = some l) (P : Lane → Bool) :
    (L.set k l').countP P + (if P l then 1 else 0) = L.countP P + (if P l' then 1 else 0) := by
  induction L generalizing k with
  | nil => simp at hk
  | cons a L ih =>
    cases k with
    | zero =>
      simp at hk
      subst hk
      simp [List.countP_cons]
      omega
    | succ k =>
      simp at hk
      have := ih k hk
      simp [List.countP_cons]
      omega

/-- A lane of the list with one lane replaced is the new lane or another old one. -/
theorem getElem?_set_lane {L : List Lane} {k k' : Nat} {l' l0 : Lane} (h : (L.set k l')[k']? = some l0) :
    (k' = k ∧ l0 = l') ∨ (k' ≠ k ∧ L[k']? = some l0) := by
  rw [List.getElem?_set] at h
  split at h
  · rename_i e
    subst e
    split at h
    · cases h; exact .inl ⟨rfl, rfl⟩
    · cases h
  · rename_i e; exact .inr ⟨Ne.symm e, h⟩

/-- One lane replaced, with the batch controller moved on consistently. -/
theorem BatchOk.of_lane {s t : State} {k : Nat} {l l' : Lane} (hB : BatchOk s) (hk : s.lanes[k]? = some l)
    (hne : l.lstate ≠ .off) (hne' : l'.lstate ≠ .off) (hctl : t.ctl = s.ctl) (hparams : t.params = s.params)
    (hlanes : t.lanes = s.lanes.set k l') (hcount : t.batch.count = s.batch.count)
    (hused : t.batch.used = s.batch.used) (hnext : s.batch.next ≤ t.batch.next)
    (hwork : l'.lstate = .work → l'.idx < t.batch.next ∧ l'.idx < s.batch.count ∧
      ∀ k' l0, k' ≠ k → s.lanes[k']? = some l0 → l0.lstate = .work → l0.idx ≠ l'.idx)
    (hbound : t.batch.next ≤ s.batch.count + (s.lanes.set k l').countP fun l => l.lstate == .retired)
    (hlatch : ∀ e, t.batch.errv = some e →
      (e.code = 0x02#8 ∨ e.code = 0x03#8) ∧ e.faultIndex.toNat < s.batch.count) : BatchOk t := by
  constructor
  · rw [hctl]; exact hB.word
  · rw [hcount, hB.count]; simp [lenOp, hctl]
  · rw [hcount]; exact hB.nonempty
  · rw [hused, hB.used, hcount]; simp [workersOp, hctl, hparams]
  · rw [hlanes, hused]
    intro k' l0 h
    rcases getElem?_set_lane h with ⟨e, rfl⟩ | ⟨_, h⟩
    · have := hB.started k l hk
      rw [e]
      tauto
    · exact hB.started k' l0 h
  · rw [hlanes, hcount]
    intro k' l0 h hw
    rcases getElem?_set_lane h with ⟨_, rfl⟩ | ⟨_, h⟩
    · exact ⟨(hwork hw).1, (hwork hw).2.1⟩
    · have := hB.inWork k' l0 h hw
      omega
  · rw [hlanes]
    intro k1 k2 l1 l2 h1 h2 w1 w2 hidx
    rcases getElem?_set_lane h1 with ⟨e1, e1'⟩ | ⟨n1, g1⟩ <;> rcases getElem?_set_lane h2 with ⟨e2, e2'⟩ | ⟨n2, g2⟩
    · rw [e1, e2]
    · subst e1'; exact absurd hidx.symm ((hwork w1).2.2 k2 l2 n2 g2 w2)
    · subst e2'; exact absurd hidx ((hwork w2).2.2 k1 l1 n1 g1 w1)
    · exact hB.distinct k1 k2 l1 l2 g1 g2 w1 w2 hidx
  · unfold retiredCount; rw [hlanes, hcount]; exact hbound
  · rw [hcount]; exact hlatch

/-- The error latch after a failure of a batch message: what was there, or the failure. -/
theorem latchError_eq {s : State} {c : ErrorCode} {a : DWord} {i : Nat} (hi : i < 2 ^ 64) :
    ∃ ev, latchError s c a i = { s with batch := { s.batch with errv := ev } } ∧ ev ≠ none ∧
      (s.batch.errv ≠ none → ev = s.batch.errv) ∧
      ∀ e, ev = some e → s.batch.errv = some e ∨
        (s.batch.errv = none ∧ e.code = errorByte c ∧ e.faultIndex.toNat = i) := by
  unfold latchError
  cases hv : s.batch.errv with
  | some e0 => exact ⟨s.batch.errv, by simp only, by simp [hv], fun _ => hv, fun e he => .inl (by rw [← he, hv])⟩
  | none =>
    refine ⟨_, rfl, by simp, fun h => absurd rfl h, fun e he => .inr ⟨rfl, ?_⟩⟩
    cases he
    exact ⟨rfl, Nat.mod_eq_of_lt hi⟩

/-- A lane's step touches its own lane, the batch controller and memory, and keeps memory canonical. -/
theorem laneStep_frame {s t : State} {k : Nat} (hm : s.mem.wf = true) (he : laneEnabled s k = true)
    (ht : laneStep s k = .next t) :
    t.params = s.params ∧ t.regs = s.regs ∧ t.ctl = s.ctl ∧ t.host = s.host ∧ (∃ l', t.lanes = s.lanes.set k l') ∧
      t.mem.wf = true := by
  have hlatch : ∀ c a i, ∃ b, latchError s c a i = { s with batch := b } := by
    intro c a i
    unfold latchError
    split
    · exact ⟨s.batch, rfl⟩
    · exact ⟨_, rfl⟩
  obtain ⟨l, hk, ⟨_, _, rfl⟩ | ⟨_, _, _, rfl⟩ | ⟨_, _, _, rfl⟩ | ⟨_, _, hw, q, rfl⟩ | ⟨_, c, a, q, _, rfl⟩⟩ :=
    laneStep_cases he ht
  · exact ⟨rfl, rfl, rfl, rfl, ⟨_, rfl⟩, hm⟩
  · exact ⟨rfl, rfl, rfl, rfl, ⟨_, rfl⟩, hm⟩
  · exact ⟨rfl, rfl, rfl, rfl, ⟨_, rfl⟩, hm⟩
  · have hmw : Memory.wf (writeBytes s.mem (slotAddr s l.idx) (batchDigest s l.idx)) = true :=
      writeBytes_wf hm (by simpa [batchDigest] using admitted_inSpace hw)
    generalize writeBytes s.mem (slotAddr s l.idx) (batchDigest s l.idx) = m at hmw ⊢
    exact ⟨rfl, rfl, rfl, rfl, ⟨_, rfl⟩, hmw⟩
  · obtain ⟨b, hb⟩ := hlatch c a l.idx
    rw [hb]
    exact ⟨rfl, rfl, rfl, rfl, ⟨_, rfl⟩, hm⟩

theorem lenOp_lt (s : State) : lenOp s < 2 ^ 64 := s.ctl.len.isLt

theorem laneStep_batchOk {s t : State} {k : Nat} (hB : BatchOk s) (he : laneEnabled s k = true)
    (ht : laneStep s k = .next t) : BatchOk t := by
  have hcnt := fun l l' hk => countP_set_lane s.lanes k l l' hk (fun l => l.lstate == .retired)
  have hnb := hB.nextBound
  unfold retiredCount at hnb
  obtain ⟨l, hk, ⟨hl, hv, rfl⟩ | ⟨hl, hv, hge, rfl⟩ | ⟨hl, hv, hlt, rfl⟩ | ⟨hl, hr, hw, q, rfl⟩ | ⟨hl, c, a, q, hc, rfl⟩⟩ :=
    laneStep_cases he ht
  · refine BatchOk.of_lane hB hk (by simp [hl]) (by simp) rfl rfl rfl rfl rfl (Nat.le_refl _) (by simp) ?_ hB.latch
    have := hcnt l { l with lstate := .retired } hk
    simp [hl] at this
    simp
    omega
  · refine BatchOk.of_lane hB hk (by simp [hl]) (by simp) rfl rfl rfl rfl rfl (by simp) (by simp) ?_ hB.latch
    have := hcnt l { l with lstate := .retired } hk
    simp [hl] at this
    simp
    omega
  · refine BatchOk.of_lane hB hk (by simp [hl]) (by simp) rfl rfl rfl rfl rfl (by simp) ?_ ?_ hB.latch
    · intro _
      refine ⟨by simp, hlt, fun k' l0 _ h0 hw0 => ?_⟩
      have := (hB.inWork k' l0 h0 hw0).1
      simp
      omega
    · simp
      omega
  · generalize writeBytes s.mem (slotAddr s l.idx) (batchDigest s l.idx) = m
    refine BatchOk.of_lane hB hk (by simp [hl]) (by simp) rfl rfl rfl rfl rfl (by simp) (by simp) ?_ hB.latch
    have := hcnt l { l with lstate := .fetch, path := q } hk
    simp [hl] at this
    simp
    omega
  · have hidx := (hB.inWork k l hk hl).2
    have h64 := lenOp_lt s
    rw [← hB.count] at h64
    obtain ⟨ev, e1, _, _, e2⟩ := latchError_eq (s := s) (c := c) (a := a) (i := l.idx) (by omega)
    rw [e1]
    refine BatchOk.of_lane hB hk (by simp [hl]) (by simp) rfl rfl rfl rfl rfl (by simp) (by simp) ?_ ?_
    · have := hcnt l { l with lstate := .retired, path := q } hk
      simp [hl] at this
      simp
      omega
    · intro e he
      rcases e2 e he with h | ⟨_, h1, h2⟩
      · exact hB.latch e h
      · rw [h1, h2]
        exact ⟨by rcases hc with rfl | rfl <;> simp [errorByte], hidx⟩

theorem laneStep_inv {s t : State} {k : Nat} (h : s.Inv) (hp : s.ctl.phase = .batch) (he : laneEnabled s k = true)
    (ht : laneStep s k = .next t) : t.Inv := by
  obtain ⟨e1, e2, e3, _, ⟨l', e4⟩, e5⟩ := laneStep_frame h.memWf he ht
  have hbo := h.busyOk (by rw [hp]; decide)
  refine ⟨e5, by rw [e4, e1]; simp [h.laneCount], by rw [e2]; exact h.errAgrees, by rw [e2]; exact h.errKnown, ?_, ?_,
    ?_, fun _ => laneStep_batchOk (h.batchOk hp) he ht⟩
  · rw [e3, hp]; intro h; exact absurd rfl h
  · rw [e3, hp]; intro h; cases h
  · intro _
    apply hbo.of_same e3 <;> rw [e2]
    exact hbo.done

end Sys2Proof.Machine
end

