-- ==== Sys2Proof/Laws/Batch.lean ====
section
/-! SUPPORT. What holds at every state of a running batch, compared with the state `u` in which HASH_BATCH was launched,
and what each agent's step does to it. -/

namespace Sys2Proof.Machine

open Sys2Proof.Config

/-- An address of the descriptor table or of a message of the batch launched in `u`. -/
def IsSource (u : State) (x : Nat) : Prop := SourceByte u x .hashBatch

/-- No lane works on message `i`. -/
def NoneWorks (s : State) (i : Nat) : Prop :=
  ∀ (k : Nat) (l : Lane), s.lanes[k]? = some l → l.lstate = .work → l.idx ≠ i

/-- A running batch: the sources are as they were at launch, a slot no lane has finished is as it was, and with no error
latched every message taken and not at work is done. -/
structure RunOk (u s : State) : Prop where
  ctl       : s.ctl = { u.ctl with phase := .batch }
  params    : s.params = u.params
  memWf     : s.mem.wf = true
  laneCount : s.lanes.length = nLanes s.params
  batchOk   : BatchOk s
  sources   : ∀ x, IsSource u x → readByte s.mem x = readByte u.mem x
  waiting   : ∀ i, i < lenOp u → s.batch.next ≤ i ∨ ¬ NoneWorks s i → slotBytes s i = slotBytes u i
  settled   : ∀ i, i < lenOp u → slotBytes s i = batchDigest u i ∨ slotBytes s i = slotBytes u i
  finished  : s.batch.errv = none → ∀ i, i < lenOp u → i < s.batch.next → NoneWorks s i →
                slotBytes s i = batchDigest u i
  exhausted : s.batch.errv = none → (∃ l ∈ s.lanes, l.lstate = .retired) → s.batch.count ≤ s.batch.next
  failed    : ∀ e, s.batch.errv = some e → e.faultIndex.toNat < s.batch.next ∧
                slotBytes s e.faultIndex.toNat = slotBytes u e.faultIndex.toNat ∧ NoneWorks s e.faultIndex.toNat

/-! ### The operands and the slots are those of the launch -/

theorem RunOk.lenOp_eq {u s : State} (h : RunOk u s) : lenOp s = lenOp u := by simp [lenOp, h.ctl]

theorem RunOk.srcOp_eq {u s : State} (h : RunOk u s) : srcOp s = srcOp u := by simp [srcOp, h.ctl]

theorem RunOk.dstOp_eq {u s : State} (h : RunOk u s) : dstOp s = dstOp u := by simp [dstOp, h.ctl]

theorem RunOk.count_eq {u s : State} (h : RunOk u s) : s.batch.count = lenOp u := by
  rw [h.batchOk.count, h.lenOp_eq]

theorem RunOk.slotAddr_eq {u s : State} (h : RunOk u s) (i : Nat) : slotAddr s i = slotAddr u i := by
  simp [slotAddr, h.dstOp_eq]

theorem RunOk.phase {u s : State} (h : RunOk u s) : s.ctl.phase = .batch := by simp [h.ctl]

theorem RunOk.busy {u s : State} (h : RunOk u s) : Machine.busy s = true := by simp [Machine.busy, h.phase]

theorem RunOk.running {u s : State} (h : RunOk u s) : running s = some .hashBatch := by
  simp [Machine.running, h.busy, h.batchOk.word, Decoded.instr?]

theorem RunOk.descriptorBytes_eq {u s : State} (h : RunOk u s) {i : Nat} (hi : i < lenOp u) :
    descriptorBytes s i = descriptorBytes u i := by
  unfold descriptorBytes descriptorAddr
  rw [h.srcOp_eq]
  exact readBytes_congr fun x h1 h2 => h.sources x (.inl ⟨by omega, by omega⟩)

/-- A message whose descriptor can be read is as it was at launch. -/
theorem RunOk.batchDigest_eq {u s : State} (h : RunOk u s) {i : Nat} (hi : i < lenOp u)
    (ha : admitted s.params .read (descriptorAddr s i) 16 = true) : batchDigest s i = batchDigest u i := by
  have ha' : admitted u.params .read (descriptorAddr u i) 16 = true := by
    simpa [descriptorAddr, h.srcOp_eq, h.params] using ha
  have : batchMessage s i = batchMessage u i := by
    unfold batchMessage
    rw [h.descriptorBytes_eq hi]
    exact readBytes_congr fun x h1 h2 => h.sources x (.inr ⟨i, hi, ha', h1, h2⟩)
  unfold batchDigest
  rw [this]

theorem touchesMessages_iff (s : State) (r : Region) (n : Nat) :
    touchesMessages s r n = true ↔ ∃ i, i < n ∧ ∃ q, messageRegion s i = some q ∧ overlaps r q = true := by
  induction n with
  | zero => simp [touchesMessages]
  | succ n ih =>
    simp only [touchesMessages, Bool.or_eq_true, ih, Option.any_eq_true]
    constructor
    · rintro (⟨q, h1, h2⟩ | ⟨i, h1, h2⟩)
      · exact ⟨n, by omega, q, h1, h2⟩
      · exact ⟨i, by omega, h2⟩
    · rintro ⟨i, h1, q, h2⟩
      by_cases hi : i = n
      · subst hi; exact .inl ⟨q, h2⟩
      · exact .inr ⟨i, by omega, q, h2⟩

/-- A region touches the messages of a batch exactly when it has a message byte. -/
theorem touchesMessages_iff_byte (s : State) (r : Region) :
    touchesMessages s r (lenOp s) = true ↔ ∃ x, (r.lo ≤ x ∧ x < r.lo + r.len) ∧ MessageByte s x := by
  rw [touchesMessages_iff]
  unfold messageRegion
  constructor
  · rintro ⟨i, hi, q, hq, ho⟩
    split at hq
    · rename_i ha
      cases hq
      obtain ⟨x, h1, h2⟩ := (overlaps_iff _ _).mp ho
      exact ⟨x, h1, i, hi, ha, h2⟩
    · cases hq
  · rintro ⟨x, h1, i, hi, ha, h2⟩
    exact ⟨i, hi, _, if_pos ha, (overlaps_iff _ _).mpr ⟨x, h1, h2⟩⟩

/-- A region touches the source of a command exactly when it has a source byte. -/
theorem touchesSource_iff (s : State) (r : Region) (i : Instr) :
    touchesSource s r i = true ↔ ∃ x, (r.lo ≤ x ∧ x < r.lo + r.len) ∧ SourceByte s x i := by
  cases i with
  | init => simp [touchesSource, SourceByte]
  | compress => exact overlaps_iff _ _
  | expand => exact overlaps_iff _ _
  | pad => exact overlaps_iff _ _
  | toDigest => simp [touchesSource, SourceByte]
  | fromDigest => exact overlaps_iff _ _
  | hash => exact overlaps_iff _ _
  | hashContinue => exact overlaps_iff _ _
  | hashBatch =>
    simp only [touchesSource, Bool.or_eq_true, overlaps_iff, touchesMessages_iff_byte, SourceByte, and_or_left,
      exists_or, tableRegion]

/-- A region touches the destination of a command exactly when it has a destination byte. -/
theorem overlaps_destRegion_iff (s : State) (r : Region) (i : Instr) :
    overlaps r (destRegion s i) = true ↔ ∃ x, (r.lo ≤ x ∧ x < r.lo + r.len) ∧ DestByte s x i := by
  rw [overlaps_iff]
  cases i <;> simp [destRegion, DestByte, arrayRegion]

/-- A region that does not touch the table or a message has no source address in it. -/
theorem not_isSource {u : State} {r : Region} (h : touchesSource u r .hashBatch = false) {x : Nat} (h1 : r.lo ≤ x)
    (h2 : x < r.lo + r.len) : ¬ IsSource u x := fun hx => by
  rw [(touchesSource_iff u r .hashBatch).mpr ⟨x, ⟨h1, h2⟩, hx⟩] at h
  cases h

/-- A launch that keeps the batch overlap duty has no source address in its digest array. -/
theorem batchOverlap_eq (u : State) : batchOverlap u = touchesSource u (arrayRegion u) .hashBatch := rfl

/-! ### One byte string is written -/

/-- A slot away from a written byte string stays. -/
theorem slotBytes_setMem_out (s : State) (i a : Nat) (v : List Byte)
    (h : slotAddr s i + 32 ≤ a ∨ a + v.length ≤ slotAddr s i) :
    slotBytes (setMem s (writeBytes s.mem a v)) i = slotBytes s i := by
  unfold slotBytes
  exact readBytes_writeBytes_disjoint s.mem a v h

/-! ### Launch -/

theorem startBatch_runOk {u : State} (hc : CanStart u) (hn : lenOp u ≠ 0)
    (hd : decode u.ctl.word = .command .hashBatch) :
    RunOk u (startBatch u (lanesUsed (nLanes u.params) (workersOp u) (lenOp u))) where
  ctl       := rfl
  params    := rfl
  memWf     := hc.memWf
  laneCount := by simp [startBatch, startLanes, hc.laneCount]
  batchOk   := startBatch_batchOk hc.lanesOff hn hd
  sources   := fun _ _ => rfl
  waiting   := fun _ _ _ => rfl
  settled   := fun _ _ => .inr rfl
  finished  := fun _ i _ h => absurd h (Nat.not_lt_zero i)
  exhausted := by
    rintro _ ⟨l, hl, hr⟩
    obtain ⟨k, hk⟩ := List.mem_iff_getElem?.mp hl
    rcases startLanes_getElem? hc.lanesOff hk with ⟨_, h⟩ | ⟨_, h⟩ <;> rw [h] at hr <;> cases hr
  failed    := fun e he => by (cases he)

/-! ### Steps that leave the batch alone -/

theorem RunOk.of_same {u s t : State} (h : RunOk u s) (hctl : t.ctl = s.ctl) (hparams : t.params = s.params)
    (hbatch : t.batch = s.batch) (hlanes : t.lanes = s.lanes) (hmem : t.mem = s.mem) : RunOk u t := by
  have hslot : ∀ i, slotBytes t i = slotBytes s i := by
    intro i; simp [slotBytes, slotAddr, dstOp, hmem, hctl]
  have hwork : ∀ i, NoneWorks t i ↔ NoneWorks s i := by intro i; simp [NoneWorks, hlanes]
  refine ⟨by rw [hctl, h.ctl], by rw [hparams, h.params], by rw [hmem]; exact h.memWf,
    by rw [hlanes, hparams]; exact h.laneCount, h.batchOk.of_same hctl hparams hbatch hlanes,
    by rw [hmem]; exact h.sources, ?_, ?_, ?_, by rw [hbatch, hlanes]; exact h.exhausted, ?_⟩
  · intro i; rw [hslot, hwork, hbatch]; exact h.waiting i
  · intro i; rw [hslot]; exact h.settled i
  · rw [hbatch]; intro hv i; rw [hslot, hwork]; exact h.finished hv i
  · rw [hbatch]; intro e he; rw [hslot, hwork]; exact h.failed e he

/-- A store of the host that keeps the buffer duty. -/
theorem RunOk.of_store {u s : State} (h : RunOk u s) {a : Nat} {v : List Byte} (hs : a + v.length ≤ addressSpace)
    (hduty : writeBreaksDuty s { lo := a, len := v.length } = false) :
    RunOk u (setMem s (writeBytes s.mem a v)) := by
  simp only [writeBreaksDuty, h.running, Bool.or_eq_false_iff] at hduty
  have hout : ∀ x, IsSource s x → readByte (writeBytes s.mem a v) x = readByte s.mem x := by
    intro x hx
    apply readByte_writeBytes_out
    by_contra hc
    exact not_isSource hduty.1 (x := x) (show a ≤ x by omega) (show x < a + v.length by omega) hx
  have hsrc : ∀ x, IsSource u x → IsSource s x := by
    rintro x (hx | ⟨i, hi, ha, hx⟩)
    · left; rw [h.srcOp_eq, h.lenOp_eq]; exact hx
    · right
      refine ⟨i, by rw [h.lenOp_eq]; exact hi, ?_, by rw [h.descriptorBytes_eq hi]; exact hx⟩
      simpa [descriptorAddr, h.srcOp_eq, h.params] using ha
  have hslot : ∀ i, i < lenOp u → slotBytes (setMem s (writeBytes s.mem a v)) i = slotBytes s i := by
    intro i hi
    have h1 := (overlaps_false_iff _ _).mp hduty.2
    simp only [destRegion, arrayRegion] at h1
    unfold slotBytes
    refine readBytes_congr fun x h2 h3 => readByte_writeBytes_out _ _ _ ?_
    by_contra hc
    refine h1 x (by omega) (by omega) ?_
    have h2 : slotAddr s i ≤ x := h2
    have h3 : x < slotAddr s i + 32 := h3
    have := h.lenOp_eq
    unfold slotAddr at h2 h3
    omega
  refine ⟨h.ctl, h.params, writeBytes_wf h.memWf hs, h.laneCount, h.batchOk.of_same rfl rfl rfl rfl,
    fun x hx => (hout x (hsrc x hx)).trans (h.sources x hx), ?_, ?_, ?_, h.exhausted, ?_⟩
  · intro i hi; rw [hslot i hi]; exact h.waiting i hi
  · intro i hi; rw [hslot i hi]; exact h.settled i hi
  · intro hv i hi; rw [hslot i hi]; exact h.finished hv i hi
  · intro e he
    rw [hslot _ (by have := (h.batchOk.latch e he).2; rw [h.count_eq] at this; exact this)]
    exact h.failed e he

theorem RunOk.of_turn {u s : State} (h : RunOk u s) : RunOk u (turn s) := by apply h.of_same <;> simp

/-- The host's turn leaves a running batch running, or resets the engine. -/
theorem RunOk.of_hostStep {u s t : State} (h : RunOk u s) (ht : hostStep s = .next t) :
    RunOk u t ∨ (t.ctl.phase = .idle ∧ t.regs.done = false) := by
  rcases hostStep_cases ht with ⟨_, rfl⟩ | ⟨rest, rd, rfl⟩ | ⟨rest, o, v, r, _, _, h1⟩ | ⟨rest, a, v, _, h1, h2, rfl⟩ |
    ⟨rest, _, rfl⟩
  · exact .inl h
  · exact .inl (h.of_same rfl rfl rfl rfl rfl)
  · have h0 : RunOk u { s with host := rest } := h.of_same rfl rfl rfl rfl rfl
    rcases writeReg_cases { s with host := rest } r v with ⟨_, e⟩ | ⟨_, e⟩ | ⟨_, e⟩ | ⟨_, e⟩ | ⟨_, hb, e⟩ |
      ⟨g, _, hb, e⟩ | ⟨_, e⟩
    · rw [e] at h1
      cases h1
      unfold writeCtrl
      split
      · exact .inr ⟨rfl, rfl⟩
      · exact .inl (h0.of_same rfl rfl rfl rfl rfl)
    · rw [e] at h1; cases h1; exact .inl (h0.of_same rfl rfl rfl rfl rfl)
    · rw [e] at h1; cases h1; exact .inl (h0.of_same rfl rfl rfl rfl rfl)
    · rw [e] at h1; cases h1; exact .inl (h0.of_same rfl rfl rfl rfl rfl)
    · rw [h0.busy] at hb; cases hb
    · rw [h0.busy] at hb; cases hb
    · rw [e] at h1; cases h1; exact .inl h0
  · have h0 : RunOk u { s with host := rest } := h.of_same rfl rfl rfl rfl rfl
    exact .inl (h0.of_store h1 h2)
  · exact .inr ⟨rfl, rfl⟩

/-! ### A lane's step -/

theorem NoneWorks.of_set {s t : State} {k i : Nat} {l l' : Lane} (hk : s.lanes[k]? = some l)
    (hlanes : t.lanes = s.lanes.set k l') (h : NoneWorks t i) (hl : l.lstate = .work → l.idx ≠ i) : NoneWorks s i := by
  intro k0 l0 h0 hw
  by_cases hkk : k0 = k
  · subst hkk
    rw [hk] at h0
    cases h0
    exact hl hw
  · exact h k0 l0 (by rw [hlanes, List.getElem?_set_ne (Ne.symm hkk)]; exact h0) hw

theorem NoneWorks.set {s t : State} {k i : Nat} {l' : Lane} (hlanes : t.lanes = s.lanes.set k l')
    (h : NoneWorks s i) (hl : l'.lstate = .work → l'.idx ≠ i) : NoneWorks t i := by
  intro k0 l0 h0 hw
  rw [hlanes] at h0
  rcases getElem?_set_lane h0 with ⟨_, rfl⟩ | ⟨_, h0⟩
  · exact hl hw
  · exact h k0 l0 h0 hw

/-- A lane's step keeps a running batch as it should be. -/
theorem RunOk.of_laneStep {u s t : State} {k : Nat} (h : RunOk u s) (hover : batchOverlap u = false)
    (he : laneEnabled s k = true) (ht : laneStep s k = .next t) : RunOk u t := by
  have hB := laneStep_batchOk h.batchOk he ht
  obtain ⟨e1, _, e3, _, ⟨l', e4⟩, e5⟩ := laneStep_frame h.memWf he ht
  have hlen : t.lanes.length = nLanes t.params := by rw [e4, e1]; simp [h.laneCount]
  have hctl : t.ctl = { u.ctl with phase := .batch } := by rw [e3, h.ctl]
  have hpar : t.params = u.params := by rw [e1, h.params]
  clear e1 e3 e4 l'
  obtain ⟨l, hk, ⟨hl, hv, rfl⟩ | ⟨hl, hv, hge, rfl⟩ | ⟨hl, hv, hlt, rfl⟩ | ⟨hl, hr, hw, q, rfl⟩ | ⟨hl, c, a, q, hc, rfl⟩⟩ :=
    laneStep_cases he ht
  · have hnw : ∀ i, NoneWorks (setLane s k { l with lstate := .retired }) i ↔ NoneWorks s i := fun i =>
      ⟨fun h0 => h0.of_set hk rfl (by simp [hl]), fun h0 => h0.set rfl (by simp)⟩
    refine ⟨hctl, hpar, e5, hlen, hB, h.sources, ?_, h.settled, ?_, ?_, ?_⟩
    · intro i hi h0; rw [hnw] at h0; exact h.waiting i hi h0
    · intro h0; rw [show s.batch.errv = none from h0] at hv; cases hv
    · intro h0; rw [show s.batch.errv = none from h0] at hv; cases hv
    · intro e he; rw [hnw]; exact h.failed e he
  · have hnw : ∀ i, NoneWorks (setLane { s with batch := { s.batch with next := s.batch.next + 1 } } k
        { l with lstate := .retired }) i ↔ NoneWorks s i := fun i =>
      ⟨fun h0 => h0.of_set hk rfl (by simp [hl]), fun h0 => h0.set rfl (by simp)⟩
    have hcnt := h.count_eq
    refine ⟨hctl, hpar, e5, hlen, hB, h.sources, ?_, h.settled, ?_, ?_, ?_⟩
    · intro i hi h0
      rw [hnw] at h0
      refine h.waiting i hi (h0.imp_left fun (h1 : s.batch.next + 1 ≤ i) => by omega)
    · intro _ i hi _ h0; rw [hnw] at h0; exact h.finished hv i hi (by omega) h0
    · intro _ _; exact Nat.le_succ_of_le hge
    · intro e he; rw [show s.batch.errv = some e from he] at hv; cases hv
  · have hcnt := h.count_eq
    refine ⟨hctl, hpar, e5, hlen, hB, h.sources, ?_, h.settled, ?_, ?_, ?_⟩
    · intro i hi h0
      refine h.waiting i hi ?_
      rcases h0 with h0 | h0
      · exact .inl (Nat.le_of_succ_le h0)
      · by_cases hin : i = s.batch.next
        · exact .inl (Nat.le_of_eq hin.symm)
        · exact .inr fun h1 => h0 (h1.set rfl fun _ => Ne.symm hin)
    · intro _ i hi h1 h0
      have hne : i ≠ s.batch.next := by
        rintro rfl
        have hkl : k < s.lanes.length := by
          by_contra hc
          rw [List.getElem?_eq_none (by omega)] at hk
          cases hk
        exact h0 k { l with lstate := .work, idx := s.batch.next } (by simp [hkl]) rfl rfl
      have h1 : i < s.batch.next + 1 := h1
      exact h.finished hv i hi (by omega) (h0.of_set hk rfl (by simp [hl]))
    · rintro _ ⟨l0, h0, hr⟩
      obtain ⟨k0, h0⟩ := List.mem_iff_getElem?.mp h0
      rcases getElem?_set_lane h0 with ⟨_, rfl⟩ | ⟨_, h0⟩
      · cases hr
      · have := h.exhausted hv ⟨l0, List.mem_of_getElem? h0, hr⟩
        omega
    · intro e he; rw [show s.batch.errv = some e from he] at hv; cases hv
  · obtain ⟨hi1, hi2⟩ := h.batchOk.inWork k l hk hl
    rw [h.count_eq] at hi2
    have hdig := h.batchDigest_eq hi2 (by simp only [readable, Bool.and_eq_true] at hr; exact hr.1)
    have h32 : (batchDigest s l.idx).length = 32 := toDigestBytes_length _
    have hsp := admitted_inSpace hw
    have hother : ∀ i, i ≠ l.idx →
        readBytes (writeBytes s.mem (slotAddr s l.idx) (batchDigest s l.idx)) (slotAddr s i) 32 = slotBytes s i := by
      intro i hi
      unfold slotBytes
      exact readBytes_writeBytes_disjoint _ _ _ (by rw [h32]; unfold slotAddr; omega)
    have hown : readBytes (writeBytes s.mem (slotAddr s l.idx) (batchDigest s l.idx)) (slotAddr s l.idx) 32 =
        batchDigest u l.idx := by
      have := readBytes_writeBytes_eq (v := batchDigest s l.idx) (a := slotAddr s l.idx) h.memWf (by rw [h32]; exact hsp)
      rw [h32] at this
      rw [this, hdig]
    have hsrc : ∀ x, IsSource u x →
        readByte (writeBytes s.mem (slotAddr s l.idx) (batchDigest s l.idx)) x = readByte s.mem x := by
      intro x hx
      apply readByte_writeBytes_out
      rw [h32, h.slotAddr_eq]
      by_contra hc
      rw [batchOverlap_eq] at hover
      refine not_isSource hover (x := x) ?_ ?_ hx <;> simp only [arrayRegion, slotAddr] at * <;> omega
    generalize writeBytes s.mem (slotAddr s l.idx) (batchDigest s l.idx) = m at hother hown hsrc e5 hB hlen hctl hpar ⊢
    have hnw : ∀ i, NoneWorks (setLane (setMem s m) k { l with lstate := .fetch, path := q }) i ↔
        (NoneWorks s i ∨ i = l.idx) := by
      intro i
      constructor
      · intro h0
        by_cases hi : i = l.idx
        · exact .inr hi
        · exact .inl (h0.of_set hk rfl fun _ => Ne.symm hi)
      · rintro (h0 | rfl)
        · exact h0.set rfl (by simp)
        · intro k0 l0 h0 hw0 hidx
          rcases getElem?_set_lane h0 with ⟨_, rfl⟩ | ⟨hne, h0⟩
          · cases hw0
          · exact hne (h.batchOk.distinct k0 k l0 l h0 hk hw0 hl hidx)
    have hslot : ∀ i, slotBytes (setLane (setMem s m) k { l with lstate := .fetch, path := q }) i =
        readBytes m (slotAddr s i) 32 := fun i => rfl
    refine ⟨hctl, hpar, e5, hlen, hB, fun x hx => (hsrc x hx).trans (h.sources x hx), ?_, ?_, ?_, ?_, ?_⟩
    · intro i hi h0
      rw [hnw] at h0
      have h0 : s.batch.next ≤ i ∨ ¬ (NoneWorks s i ∨ i = l.idx) := h0
      have hne : i ≠ l.idx := by
        rintro rfl
        rcases h0 with h0 | h0
        · omega
        · exact h0 (.inr rfl)
      rw [hslot, hother i hne]
      exact h.waiting i hi (h0.imp_right fun h1 h2 => h1 (.inl h2))
    · intro i hi
      rw [hslot]
      by_cases hne : i = l.idx
      · subst hne; exact .inl hown
      · rw [hother i hne]; exact h.settled i hi
    · intro hv i hi h1 h0
      rw [hslot]
      by_cases hne : i = l.idx
      · subst hne; exact hown
      · rw [hother i hne]
        rw [hnw] at h0
        exact h.finished hv i hi h1 (h0.resolve_right hne)
    · rintro hv ⟨l0, h0, hr⟩
      obtain ⟨k0, h0⟩ := List.mem_iff_getElem?.mp h0
      rcases getElem?_set_lane h0 with ⟨_, rfl⟩ | ⟨_, h0⟩
      · cases hr
      · exact h.exhausted hv ⟨l0, List.mem_of_getElem? h0, hr⟩
    · intro e he
      obtain ⟨f1, f2, f3⟩ := h.failed e he
      have hne : e.faultIndex.toNat ≠ l.idx := fun h0 => f3 k l hk hl h0.symm
      rw [hslot, hother _ hne, hnw]
      exact ⟨f1, f2, .inl f3⟩
  · obtain ⟨hi1, hi2⟩ := h.batchOk.inWork k l hk hl
    have h64 := lenOp_lt s
    rw [← h.batchOk.count] at h64
    obtain ⟨ev, x1, x2, x3, x4⟩ := latchError_eq (s := s) (c := c) (a := a) (i := l.idx) (by omega)
    rw [x1] at hctl hpar e5 hlen hB ⊢
    have hnw : ∀ i, NoneWorks (setLane { s with batch := { s.batch with errv := ev } } k
        { l with lstate := .retired, path := q }) i ↔ (NoneWorks s i ∨ i = l.idx) := by
      intro i
      constructor
      · intro h0
        by_cases hi : i = l.idx
        · exact .inr hi
        · exact .inl (h0.of_set hk rfl fun _ => Ne.symm hi)
      · rintro (h0 | rfl)
        · exact h0.set rfl (by simp)
        · intro k0 l0 h0 hw0 hidx
          rcases getElem?_set_lane h0 with ⟨_, rfl⟩ | ⟨hne, h0⟩
          · cases hw0
          · exact hne (h.batchOk.distinct k0 k l0 l h0 hk hw0 hl hidx)
    refine ⟨hctl, hpar, e5, hlen, hB, h.sources, ?_, h.settled, ?_, ?_, ?_⟩
    · intro i hi h0
      rw [hnw] at h0
      exact h.waiting i hi (h0.imp_right fun h1 h2 => h1 (.inl h2))
    · intro hv; exact absurd hv x2
    · intro hv; exact absurd hv x2
    · intro e he
      rw [hnw]
      rcases x4 e he with h0 | ⟨_, _, h0⟩
      · obtain ⟨f1, f2, f3⟩ := h.failed e h0
        exact ⟨f1, f2, .inl f3⟩
      · rw [h0]
        rw [h.count_eq] at hi2
        exact ⟨hi1, h.waiting _ hi2 (.inr fun h1 => h1 k l hk hl rfl), .inr rfl⟩

/-! ### One step of the machine -/

/-- What one step can do to a running batch: it goes on, a reset abandons it, or it joins. -/
theorem RunOk.of_step {u s t : State} (h : RunOk u s) (hover : batchOverlap u = false) (ht : step s = .next t) :
    RunOk u t ∨ (t.ctl.phase = .idle ∧ t.regs.done = false) ∨
      (∃ s', RunOk u s' ∧ allRetired s' = true ∧ joinStep s' = .next t) := by
  rcases step_cases ht with ⟨_, rfl⟩ | ⟨a, ha, hs⟩
  · exact .inl h
  · have hp := h.phase
    rcases mem_enabledAgents ha with ⟨rfl, _⟩ | ⟨rfl, hp'⟩ | ⟨rfl, _, hr⟩ | ⟨k, rfl, _, _, he⟩
    · rcases h.of_turn.of_hostStep hs with h1 | h1
      · exact .inl h1
      · exact .inr (.inl h1)
    · rw [hp] at hp'; cases hp'
    · refine .inr (.inr ⟨turn s, h.of_turn, by simpa using hr, ?_⟩)
      simpa [agentStep, controlStep, hp] using hs
    · exact .inl (h.of_turn.of_laneStep hover (by simpa using he) hs)

/-- At the join of a batch every lane that was started is RETIRED, and one was started. -/
theorem RunOk.exists_retired {u s : State} (h : RunOk u s) (hr : allRetired s = true) :
    (∃ l ∈ s.lanes, l.lstate = .retired) ∧ ∀ i, NoneWorks s i := by
  have hall : ∀ (k : Nat) (l : Lane), k < s.batch.used → s.lanes[k]? = some l → l.lstate = .retired := by
    intro k l hk hl
    have := List.all_eq_true.mp hr l (List.mem_of_getElem? (i := k) (by rw [List.getElem?_take_of_lt hk]; exact hl))
    simpa using this
  have hn : 0 < nLanes s.params := by unfold nLanes; omega
  have hu := lanesUsed_bounds (nLanes s.params) (workersOp s) s.batch.count h.batchOk.nonempty hn
  rw [← h.batchOk.used] at hu
  have h0 : 0 < s.lanes.length := by rw [h.laneCount]; exact hn
  refine ⟨⟨s.lanes[0], List.getElem_mem h0, hall 0 _ hu.1 (List.getElem?_eq_getElem h0)⟩, ?_⟩
  intro i k l hl hw
  have hk : k < s.batch.used := (h.batchOk.started k l hl).mpr (by rw [hw]; decide)
  rw [hall k l hk hl] at hw
  cases hw

/-! ### A running batch is never stuck -/

/-- A running batch has an enabled agent of the engine (43_batch.md R270). -/
theorem RunOk.enabled_ne_nil {u s : State} (h : RunOk u s) : enabledAgents s ≠ [] := by
  unfold enabledAgents engineAgents
  rw [h.phase]
  simp only
  split
  · simp
  · rename_i hr
    have : ∃ k < s.batch.used, laneEnabled s k = true := by
      by_contra hc
      push Not at hc
      apply hr
      unfold allRetired
      rw [List.all_eq_true]
      intro l hl
      obtain ⟨k, hk⟩ := List.mem_iff_getElem?.mp hl
      rw [List.getElem?_take] at hk
      split at hk
      · rename_i hlt
        have h1 := hc k hlt
        have h2 := (h.batchOk.started k l hk).mp hlt
        simp [laneEnabled, hk] at h1
        cases hs : l.lstate <;> simp_all
      · cases hk
    obtain ⟨k, hk, he⟩ := this
    intro hnil
    have : Agent.lane k ∈ List.map Agent.lane ((List.range s.batch.used).filter (laneEnabled s)) := by simp [hk, he]
    rw [List.append_eq_nil_iff] at hnil
    rw [hnil.2] at this
    simp at this

/-- A lane's step answers a next state, or reads memory that is not plain. -/
theorem laneStep_outcome (s : State) (k : Nat) :
    (∃ t, laneStep s k = .next t) ∨ laneStep s k = .refused .notPlainMemory := by
  unfold laneStep
  split
  · exact .inl ⟨_, rfl⟩
  · rename_i l _
    split
    · exact .inl ⟨_, rfl⟩
    · unfold laneFetch
      split
      · exact .inl ⟨_, rfl⟩
      · dsimp only
        split <;> exact .inl ⟨_, rfl⟩
    · unfold laneWork
      rcases messageWork_cases s l.path l.idx with ⟨q, h1, _⟩ | ⟨q, c, a, h1, _⟩ | ⟨q, h1⟩ <;> rw [h1]
      · exact .inl ⟨_, rfl⟩
      · exact .inl ⟨_, rfl⟩
      · exact .inr rfl
    · exact .inl ⟨_, rfl⟩

end Sys2Proof.Machine
end

