-- ==== Sys2Proof/Laws/Fairness.lean ====
section
/-! SUPPORT. What one step can do while the engine is busy, said once, with what it lowers: the engine's work left, or the
host's turns left (70_reset_and_hazards.md R351; log entry 16). -/

namespace Sys2Proof.Machine

open Sys2Proof.Config

/-! ### The work left of the running command -/

/-- The steps a lane can still take for the index it holds. -/
def laneWorkLeft (l : Lane) : Nat :=
  match l.lstate with
  | .off     => 0
  | .fetch   => 1
  | .work    => 2
  | .retired => 0

/-- The same for all lanes together. -/
def lanesWorkLeft (L : List Lane) : Nat := (L.map laneWorkLeft).sum

/-- A bound on the engine's steps left before completion (43_batch.md R270). -/
def engineWork (s : State) : Nat :=
  match s.ctl.phase with
  | .idle   => 0
  | .single => 1
  | .batch  => 2 * (s.batch.count - s.batch.next) + lanesWorkLeft s.lanes + 1

/-- Replacing one lane moves the work left by that lane's share. -/
theorem sum_set_lane (L : List Lane) (k : Nat) (l l' : Lane) (hk : L[k]? = some l) :
    lanesWorkLeft (L.set k l') + laneWorkLeft l = lanesWorkLeft L + laneWorkLeft l' := by
  induction L generalizing k with
  | nil => simp at hk
  | cons a L ih =>
    cases k with
    | zero => simp at hk; subst hk; simp [lanesWorkLeft]; omega
    | succ k => simp at hk; have := ih k hk; simp [lanesWorkLeft] at this ⊢; omega

/-- Every step of an enabled lane lowers the work left. -/
theorem laneStep_lowers {s t : State} {k : Nat} (hp : s.ctl.phase = .batch) (he : laneEnabled s k = true)
    (ht : laneStep s k = .next t) : engineWork t < engineWork s := by
  obtain ⟨l, hk, ⟨hl, hv, rfl⟩ | ⟨hl, hv, hge, rfl⟩ | ⟨hl, hv, hlt, rfl⟩ | ⟨hl, hr, hw, q, rfl⟩ | ⟨hl, c, a, q, hc, rfl⟩⟩ :=
    laneStep_cases he ht
  · have := sum_set_lane s.lanes k l { l with lstate := .retired } hk
    simp [laneWorkLeft, hl] at this
    simp [engineWork, hp]; omega
  · have := sum_set_lane s.lanes k l { l with lstate := .retired } hk
    simp [laneWorkLeft, hl] at this
    simp [engineWork, hp]; omega
  · have := sum_set_lane s.lanes k l { l with lstate := .work, idx := s.batch.next } hk
    simp [laneWorkLeft, hl] at this
    simp [engineWork, hp]; omega
  · have := sum_set_lane s.lanes k l { l with lstate := .fetch, path := q } hk
    simp [laneWorkLeft, hl] at this
    simp [engineWork, hp]; omega
  · have := sum_set_lane s.lanes k l { l with lstate := .retired, path := q } hk
    simp [laneWorkLeft, hl] at this
    have hb : (latchError s c a l.idx).lanes = s.lanes ∧ (latchError s c a l.idx).batch.count = s.batch.count ∧
        (latchError s c a l.idx).batch.next = s.batch.next ∧ (latchError s c a l.idx).ctl = s.ctl := by
      unfold latchError; split <;> exact ⟨rfl, rfl, rfl, rfl⟩
    simp [engineWork, hb, hp]; omega

/-! ### The enabled steps of the engine -/

/-- The engine's enabled steps see the phase, the number of lanes started and the lanes' states. -/
theorem engineAgents_congr {s t : State} (hctl : t.ctl = s.ctl) (hbatch : t.batch = s.batch)
    (hlanes : t.lanes = s.lanes) : engineAgents t = engineAgents s := by
  have hl : laneEnabled t = laneEnabled s := by funext k; simp [laneEnabled, hlanes]
  simp [engineAgents, allRetired, hctl, hbatch, hlanes, hl]

@[simp] theorem engineAgents_turn (s : State) : engineAgents (turn s) = engineAgents s :=
  engineAgents_congr (by simp) (by simp) (by simp)

/-- A started lane that is not RETIRED is enabled; the others are not. -/
theorem laneEnabled_iff {s : State} (hB : BatchOk s) {k : Nat} {l : Lane} (hk : s.lanes[k]? = some l) :
    laneEnabled s k = true ↔ k < s.batch.used ∧ l.lstate ≠ .retired := by
  rw [hB.started k l hk]
  simp only [laneEnabled, hk]
  cases l.lstate <;> simp

theorem allRetired_iff (s : State) : allRetired s = true ↔
    ∀ (k : Nat) (l : Lane), k < s.batch.used → s.lanes[k]? = some l → l.lstate = .retired := by
  simp only [allRetired, List.all_eq_true, beq_iff_eq]
  constructor
  · intro h k l hk hl
    exact h l (List.mem_of_getElem? (i := k) (by rw [List.getElem?_take_of_lt hk]; exact hl))
  · intro h l hl
    obtain ⟨k, hk⟩ := List.mem_iff_getElem?.mp hl
    rw [List.getElem?_take] at hk
    split at hk
    · exact h k l ‹_› hk
    · cases hk

/-- The engine's agents of a running batch, one by one. -/
theorem mem_engineAgents_batch {s : State} (hB : BatchOk s) (hp : s.ctl.phase = .batch) (a : Agent) :
    a ∈ engineAgents s ↔ (a = .control ∧ allRetired s = true) ∨ ∃ k, a = .lane k ∧ laneEnabled s k = true := by
  unfold engineAgents
  rw [hp]
  simp only
  split
  · rename_i hr
    constructor
    · intro h; exact .inl ⟨List.mem_singleton.mp h, hr⟩
    · rintro (⟨rfl, _⟩ | ⟨k, _, he⟩)
      · exact List.mem_singleton.mpr rfl
      · cases hl : s.lanes[k]? with
        | none => simp [laneEnabled, hl] at he
        | some l =>
          have h1 := (laneEnabled_iff hB hl).mp he
          exact absurd ((allRetired_iff s).mp hr k l h1.1 hl) h1.2
  · rename_i hr
    simp only [List.mem_map, List.mem_filter, List.mem_range]
    constructor
    · rintro ⟨k, ⟨_, he⟩, rfl⟩; exact .inr ⟨k, rfl, he⟩
    · rintro (⟨_, h⟩ | ⟨k, rfl, he⟩)
      · exact absurd h hr
      · cases hl : s.lanes[k]? with
        | none => simp [laneEnabled, hl] at he
        | some l => exact ⟨k, ⟨((laneEnabled_iff hB hl).mp he).1, he⟩, rfl⟩

/-- A busy engine has a step to take (43_batch.md R270). -/
theorem State.Inv.engineAgents_ne_nil {s : State} (h : s.Inv) (hb : busy s = true) : engineAgents s ≠ [] := by
  cases hp : s.ctl.phase with
  | idle => simp [busy, hp] at hb
  | single => simp [engineAgents, hp]
  | batch =>
    have hB := h.batchOk hp
    by_cases hr : allRetired s = true
    · exact List.ne_nil_of_mem ((mem_engineAgents_batch hB hp _).mpr (.inl ⟨rfl, hr⟩))
    · rw [allRetired_iff] at hr
      push Not at hr
      obtain ⟨k, l, h1, h2, h3⟩ := hr
      exact List.ne_nil_of_mem ((mem_engineAgents_batch hB hp _).mpr
        (.inr ⟨k, rfl, (laneEnabled_iff hB h2).mpr ⟨h1, h3⟩⟩))

theorem busy_of_engineAgents {s : State} {a : Agent} (h : a ∈ engineAgents s) : busy s = true := by
  unfold engineAgents at h
  unfold busy
  split at h
  · cases h
  · rename_i hp; simp [hp]
  · rename_i hp; simp [hp]

/-! ### The host's turn while the engine is busy -/

/-- While the engine is busy the host's turn leaves the command alone, or resets the engine, or is outside the model. -/
theorem hostStep_busy {s : State} (hb : busy s = true) :
    (∃ t, hostStep s = .next t ∧ t.ctl = s.ctl ∧ t.batch = s.batch ∧ t.lanes = s.lanes ∧ t.patience = s.patience) ∨
    (∃ t, hostStep s = .next t ∧ busy t = false) ∨
    outsideModel (hostStep s) = true := by
  cases h : hostStep s with
  | fault f => exact .inr (.inr rfl)
  | next t =>
    have hbr : ∀ rest, busy { s with host := rest } = true := fun _ => hb
    rcases hostStep_cases h with ⟨_, rfl⟩ | ⟨rest, rd, rfl⟩ | ⟨rest, o, v, r, _, _, h1⟩ | ⟨rest, a, v, _, h1, h2, rfl⟩ |
      ⟨rest, _, rfl⟩
    · exact .inl ⟨_, rfl, rfl, rfl, rfl, rfl⟩
    · exact .inl ⟨_, rfl, rfl, rfl, rfl, rfl⟩
    · rcases writeReg_cases { s with host := rest } r v with ⟨_, e⟩ | ⟨_, e⟩ | ⟨_, e⟩ | ⟨_, e⟩ | ⟨_, h0, _⟩ |
        ⟨g, _, h0, _⟩ | ⟨_, e⟩
      · rw [e] at h1
        cases h1
        unfold writeCtrl
        split
        · exact .inr (.inl ⟨_, rfl, rfl⟩)
        · exact .inl ⟨_, rfl, rfl, rfl, rfl, rfl⟩
      · rw [e] at h1; cases h1; exact .inl ⟨_, rfl, rfl, rfl, rfl, rfl⟩
      · rw [e] at h1; cases h1; exact .inl ⟨_, rfl, rfl, rfl, rfl, rfl⟩
      · rw [e] at h1; cases h1; exact .inl ⟨_, rfl, rfl, rfl, rfl, rfl⟩
      · rw [hbr] at h0; cases h0
      · rw [hbr] at h0; cases h0
      · rw [e] at h1; cases h1; exact .inl ⟨_, rfl, rfl, rfl, rfl, rfl⟩
    · exact .inl ⟨_, rfl, rfl, rfl, rfl, rfl⟩
    · exact .inr (.inl ⟨_, rfl, rfl⟩)
  | refused q =>
    have hw : ∀ rest r v, writeReg { s with host := rest } r v ≠ .refused q := by
      intro rest r v h0
      have hb' : busy { s with host := rest } = true := hb
      rcases writeReg_cases { s with host := rest } r v with ⟨_, e⟩ | ⟨_, e⟩ | ⟨_, e⟩ | ⟨_, e⟩ | ⟨_, h1, _⟩ |
        ⟨g, _, h1, _⟩ | ⟨_, e⟩ <;> first | (rw [e] at h0; cases h0) | (rw [hb'] at h1; cases h1)
    refine .inr (.inr ?_)
    unfold hostStep at h
    split at h
    · cases h
    · rename_i act rest _
      cases act with
      | rd o => simp only [hostDo, hostRead] at h; split at h <;> cases h; rfl
      | wr o v =>
        simp only [hostDo, hostWrite, writeOffset] at h
        split at h
        · split at h
          · cases h
          · exact absurd h (hw _ _ _)
        · cases h; rfl
      | load a n =>
        simp only [hostDo, hostLoad] at h
        split at h
        · cases h
        · split at h
          · cases h; rfl
          · split at h <;> cases h; rfl
      | store a v =>
        simp only [hostDo, hostStore] at h
        split at h
        · cases h
        · split at h
          · cases h; rfl
          · split at h <;> cases h; rfl
      | wait => cases h
      | hardReset => cases h

/-! ### One step of a busy machine -/

/-- A run goes on from the state its first step answers. -/
theorem runSteps_succ {s t : State} (h : step s = .next t) (k : Nat) : runSteps (k + 1) s = runSteps k t := by
  simp [runSteps, h]

theorem turn_patience {s : State} (h : enabledAgents s ≠ []) : (turn s).patience = nextPatience s := by
  unfold turn
  split
  · rfl
  · rfl
  · contradiction

/-- A lane's step leaves every other enabled step of the engine enabled. -/
theorem laneStep_keeps {s t : State} {k : Nat} (hI : s.Inv) (hp : s.ctl.phase = .batch) (he : laneEnabled s k = true)
    (ht : laneStep s k = .next t) {b : Agent} (hb : b ∈ engineAgents s) (hne : b ≠ .lane k) : b ∈ engineAgents t := by
  have hB := hI.batchOk hp
  obtain ⟨_, _, e3, _, ⟨l', e4⟩, _⟩ := laneStep_frame hI.memWf he ht
  have hp' : t.ctl.phase = .batch := by rw [e3, hp]
  rcases (mem_engineAgents_batch hB hp b).mp hb with ⟨rfl, hr⟩ | ⟨k', rfl, he'⟩
  · exfalso
    cases hl : s.lanes[k]? with
    | none => simp [laneEnabled, hl] at he
    | some l =>
      have h1 := (laneEnabled_iff hB hl).mp he
      exact h1.2 ((allRetired_iff s).mp hr k l h1.1 hl)
  · refine (mem_engineAgents_batch (laneStep_batchOk hB he ht) hp' _).mpr (.inr ⟨k', rfl, ?_⟩)
    have hkk : k' ≠ k := fun h => hne (by rw [h])
    simp only [laneEnabled, e4, List.getElem?_set_ne (Ne.symm hkk)]
    exact he'

/-- Everything a step can do while the engine is busy: the host's turn leaves the command alone and uses up one of the
host's turns, or resets the engine; or a step of the engine is taken, which completes the command or lowers the work left
and leaves the engine's other enabled steps enabled; or the run leaves the model. -/
theorem step_busy_cases {s : State} (h : s.Inv) (hb : busy s = true) :
    (pickAgent s = some .host ∧ ∃ t, step s = .next t ∧ t.patience < s.patience ∧ engineWork t = engineWork s ∧
      engineAgents t = engineAgents s) ∨
    (pickAgent s = some .host ∧ ∃ t, step s = .next t ∧ busy t = false) ∨
    (∃ a ∈ engineAgents s, pickAgent s = some a ∧ ∃ t, step s = .next t ∧
      ((engineAgents s = [a] ∧ busy t = false) ∨
        (engineWork t < engineWork s ∧ ∀ b ∈ engineAgents s, b ≠ a → b ∈ engineAgents t))) ∨
    outsideModel (step s) = true := by
  have hne := h.engineAgents_ne_nil hb
  have hen : enabledAgents s ≠ [] := by
    unfold enabledAgents; intro h0; exact hne (List.append_eq_nil_iff.mp h0).2
  obtain ⟨a, ha⟩ := pickAgent_isSome hen
  have hstep : step s = agentStep (turn s) a := by unfold step; rw [ha]
  have hI := turn_inv h
  have hwait : engineWaits s = true := by simp [engineWaits, hne]
  have hmem := pickAgent_mem ha
  unfold enabledAgents at hmem
  rcases List.mem_append.mp hmem with hh | he
  · unfold hostAgents at hh
    split at hh
    · cases hh
    split at hh
    · cases hh
    rename_i _ hpat
    have hpos : 0 < s.patience := by
      rw [hwait] at hpat
      simp at hpat
      omega
    have haH : a = .host := List.mem_singleton.mp hh
    subst haH
    have hpt : (turn s).patience < s.patience := by
      rw [turn_patience hen, nextPatience, hwait, ha]
      simp
      omega
    have hbt : busy (turn s) = true := by simpa [busy] using hb
    rw [hstep]
    rcases hostStep_busy hbt with ⟨t, h1, h2, h3, h4, h5⟩ | ⟨t, h1, h2⟩ | h1
    · refine .inl ⟨ha, t, h1, by rw [h5]; exact hpt, ?_, ?_⟩
      · simp [engineWork, h2, h3, h4]
      · rw [engineAgents_congr h2 h3 h4, engineAgents_turn]
    · exact .inr (.inl ⟨ha, t, h1, h2⟩)
    · exact .inr (.inr (.inr h1))
  · refine .inr (.inr ?_)
    rw [hstep]
    cases hp : s.ctl.phase with
    | idle => simp [busy, hp] at hb
    | single =>
      have hC : engineAgents s = [.control] := by simp [engineAgents, hp]
      have haC : a = .control := by simpa [hC] using he
      subst haC
      obtain ⟨i, hd, hi⟩ := h.singleWord hp
      have hex : agentStep (turn s) .control = exec i (turn s) := by
        simp [agentStep, controlStep, hp, executeLatched, hd]
      rw [hex]
      rcases exec_single_cases i hi (turn s) with ⟨p, v, hh, r, h1, _⟩ | ⟨c, f, p, h1, _⟩ | h1
      · exact .inl ⟨_, he, ha, _, h1, .inl ⟨hC, rfl⟩⟩
      · exact .inl ⟨_, he, ha, _, h1, .inl ⟨hC, rfl⟩⟩
      · rw [h1]; exact .inr rfl
    | batch =>
      have hB := h.batchOk hp
      rcases (mem_engineAgents_batch hB hp a).mp he with ⟨rfl, hr⟩ | ⟨k, rfl, hk⟩
      · have hC : engineAgents s = [.control] := by simp [engineAgents, hp, hr]
        have hj : agentStep (turn s) .control = joinStep (turn s) := by simp [agentStep, controlStep, hp]
        rw [hj]
        refine .inl ⟨_, he, ha, ?_⟩
        unfold joinStep
        split
        · exact ⟨_, rfl, .inl ⟨hC, rfl⟩⟩
        · exact ⟨_, rfl, .inl ⟨hC, rfl⟩⟩
      · have hl : agentStep (turn s) (.lane k) = laneStep (turn s) k := rfl
        rw [hl]
        rcases laneStep_outcome (turn s) k with ⟨t, h1⟩ | h1
        · refine .inl ⟨_, he, ha, t, h1, .inr ⟨?_, ?_⟩⟩
          · have := laneStep_lowers (by simpa using hp) (by simpa using hk) h1
            have e : engineWork (turn s) = engineWork s := by simp [engineWork]
            omega
          · intro b hb hne
            exact laneStep_keeps hI (by simpa using hp) (by simpa using hk) h1 (by simpa using hb) hne
        · rw [h1]; exact .inr rfl

end Sys2Proof.Machine
end

