-- ==== Sys2Proof/Laws/PerInstr.lean ====
section
/-! SUPPORT. Statements about every command as syntax, one lemma per command. -/

namespace Sys2Proof.Laws.EncodingWellFormed

/-- The word of a command has its reserved bits 0 and its opcode in the map, and decodes to the command
(30_encoding.md R110, R111). -/
def Statement (i : Instr) : Prop :=
  (splitWord (encode i)).wellFormed = true ∧ decode (encode i) = .command i

theorem init : Statement .init := by unfold Statement; decide

theorem compress : Statement .compress := by unfold Statement; decide

theorem expand : Statement .expand := by unfold Statement; decide

theorem pad : Statement .pad := by unfold Statement; decide

theorem toDigest : Statement .toDigest := by unfold Statement; decide

theorem fromDigest : Statement .fromDigest := by unfold Statement; decide

theorem hash : Statement .hash := by unfold Statement; decide

theorem hashContinue : Statement .hashContinue := by unfold Statement; decide

theorem hashBatch : Statement .hashBatch := by unfold Statement; decide

end Sys2Proof.Laws.EncodingWellFormed
end

