-- ==== Sys2Proof/Tests/Slice0.lean ====
section
/-! SUPPORT. Tests: the smoke tests of WellFormed, decoding of words written out from the spec, vectors of
95_test_vectors.md on single operations and single steps, and a witness for every statement that has hypotheses. -/

namespace Sys2Proof.Tests

open Sys2Proof.Machine Sys2Proof.Config

-- One proof at a time: many kernel evaluations side by side want more memory than a checker has.
set_option Elab.async false

/-! ### Helpers -/

/-- An outcome is a next state with a property. -/
def nextAnd (o : Host.Outcome State Fault Refusal) (p : State → Bool) : Bool :=
  match o with
  | .next t    => p t
  | .fault _   => false
  | .refused _ => false

/-- An outcome is a given refusal. -/
def refusedWith (o : Host.Outcome State Fault Refusal) (r : Refusal) : Bool :=
  match o with
  | .next _     => false
  | .fault _    => false
  | .refused r' => r' == r

theorem of_nextAnd {o : Host.Outcome State Fault Refusal} {p : State → Bool} (h : nextAnd o p = true) :
    ∃ t, o = .next t ∧ p t = true := by
  cases o with
  | next t => exact ⟨t, rfl, h⟩
  | fault _ => cases h
  | refused _ => cases h

theorem of_refusedWith {o : Host.Outcome State Fault Refusal} {r : Refusal} (h : refusedWith o r = true) :
    o = .refused r := by
  cases o with
  | next _ => cases h
  | fault _ => cases h
  | refused r' => rw [show r' = r by simpa [refusedWith] using h]

/-- A command of the engine of log entry 3, accepted, with the given operands and memory. -/
def accepted (i : Instr) (src dst len prior : DWord) (v : HashState) (m : Memory) : State :=
  { State.reset with
    mem  := m
    regs := { RegFile.reset with
      cmd := encode i, src := src, dst := dst, len := len, prior := prior, workers := 1#32, hash := v }
    ctl  := { phase := .single, word := encode i, src := src, dst := dst, len := len, prior := prior,
              workers := 1#32, stateIn := v } }

/-- An accepted command with only a source and a length. -/
def withSrc (i : Instr) (src len : DWord) : State := accepted i src 0x2000#64 len 0#64 iv []

/-- An accepted command of an engine whose platform has the given parameters. -/
def onPlatform (p : Params) (i : Instr) (src dst len : DWord) : State :=
  { accepted i src dst len 0#64 iv [] with params := p, lanes := List.replicate p.lanesMinusOne.val.succ .reset }

/-- The padded "abc" block of V-D3. -/
def abcBlock : List Byte := [0x61#8, 0x62#8, 0x63#8, 0x80#8] ++ zeros 59 ++ [0x18#8]

/-- The eight zero words in a row are no state of a hash; this one is CF(IV, padded "abc") of V-D5. -/
def abcState : HashState :=
  ⟨0x66C7F0F4#32, 0x62EEEDD9#32, 0xD1F2D46B#32, 0xDC10E4E2#32, 0x4167C487#32, 0x5CF2F7A2#32, 0x297DA02B#32,
    0x8F4BA8E0#32⟩

/-- The digest of "abc", V-E2. -/
def abcDigest : List Byte :=
  [0x66#8, 0xc7#8, 0xf0#8, 0xf4#8, 0x62#8, 0xee#8, 0xed#8, 0xd9#8, 0xd1#8, 0xf2#8, 0xd4#8, 0x6b#8, 0xdc#8, 0x10#8,
   0xe4#8, 0xe2#8, 0x41#8, 0x67#8, 0xc4#8, 0x87#8, 0x5c#8, 0xf2#8, 0xf7#8, 0xa2#8, 0x29#8, 0x7d#8, 0xa0#8, 0x2b#8,
   0x8f#8, 0x4b#8, 0xa8#8, 0xe0#8]

/-! ### WellFormed: an ill-formed word for each check -/

theorem test_wf_reserved_bits : (splitWord 0x00000107#32).reservedClear = false ∧
    (splitWord 0x00000107#32).wellFormed = false ∧ decode 0x00000107#32 = .illegal .reservedBits := by decide

theorem test_wf_opcode_zero : (splitWord 0x00000000#32).opcodeNotZero = false ∧
    (splitWord 0x00000000#32).wellFormed = false ∧ decode 0x00000000#32 = .illegal .reservedOpcode := by decide

theorem test_wf_opcode_unmapped : (splitWord 0x0000000A#32).opcodeInMap = false ∧
    (splitWord 0x0000000A#32).wellFormed = false ∧ decode 0x0000000A#32 = .illegal .reservedOpcode := by decide

/-! ### Decoding, one word per command, bit by bit from 30_encoding.md R110 and R111 -/

theorem test_decode_init : decode 0b00000000000000000000000000000001#32 = .command .init := by decide

theorem test_decode_compress : decode 0b00000000000000000000000000000010#32 = .command .compress := by decide

theorem test_decode_expand : decode 0b00000000000000000000000000000011#32 = .command .expand := by decide

theorem test_decode_pad : decode 0b00000000000000000000000000000100#32 = .command .pad := by decide

theorem test_decode_to_digest : decode 0b00000000000000000000000000000101#32 = .command .toDigest := by decide

theorem test_decode_from_digest : decode 0b00000000000000000000000000000110#32 = .command .fromDigest := by decide

theorem test_decode_hash : decode 0b00000000000000000000000000000111#32 = .command .hash := by decide

theorem test_decode_hash_continue : decode 0b00000000000000000000000000001000#32 = .command .hashContinue := by decide

theorem test_decode_hash_batch : decode 0b00000000000000000000000000001001#32 = .command .hashBatch := by decide

/-! ### Pure functions, from 95_test_vectors.md section 2 -/

/-- V-D1 -/
theorem test_word_primitives : rotl 0x12345678#32 36 = 0x23456781#32 ∧ rotl 0x12345678#32 32 = 0x12345678#32 ∧
    p0 0x12345678#32 = 0xD6688234#32 ∧ p1 0x12345678#32 = 0x05014549#32 ∧
    ff 0x0F0F0F0F#32 0x00FF00FF#32 0x33333333#32 15 = 0x3CC33CC3#32 ∧
    ff 0x0F0F0F0F#32 0x00FF00FF#32 0x33333333#32 16 = 0x033F033F#32 ∧
    gg 0x0F0F0F0F#32 0x00FF00FF#32 0x33333333#32 16 = 0x303F303F#32 := by decide

/-- V-D2 -/
theorem test_round_constants : tr 0 = 0x79CC4519#32 ∧ tr 15 = 0x228CBCE6#32 ∧ tr 16 = 0x9D8A7A87#32 ∧
    tr 32 = 0x7A879D8A#32 ∧ tr 63 = 0x3D43CEC5#32 := by decide

/-- V-D3 -/
theorem test_expansion : (expandW abcBlock).getD 16 0#32 = 0x9092E200#32 ∧
    (expandW abcBlock).getD 67 0#32 = 0xB99C0545#32 ∧
    (expandW1 (expandW abcBlock)).getD 11 0#32 = 0x00000018#32 ∧
    (expandW1 (expandW abcBlock)).getD 63 0#32 = 0x49E260D5#32 := by decide +kernel

/-- V-D4, round 0 -/
theorem test_round_zero : round (expandW abcBlock) (expandW1 (expandW abcBlock)) 0 (workingOf iv) =
    ⟨0xB9EDC12B#32, 0x7380166F#32, 0x29657292#32, 0x172442D7#32, 0xB2AD29F4#32, 0xA96F30BC#32, 0xC550B189#32,
      0xE38DEE4D#32⟩ := by decide +kernel

/-- V-D5 -/
theorem test_compression : cf iv abcBlock = abcState := by decide +kernel

/-- V-P, `L = 3` -/
theorem test_pad_suffix_3 : padSuffix 3 0 = [0x80#8] ++ zeros 52 ++ [0#8, 0#8, 0#8, 0#8, 0#8, 0#8, 0#8, 0x18#8] := by
  decide +kernel

/-- V-P, the corners of the block count and the longest length -/
theorem test_pad_counts : count 55 = 1 ∧ padLen 55 = 9 ∧ count 56 = 2 ∧ padLen 56 = 72 ∧ paddedLen 64 = 128 ∧
    paddedLen 120 = 192 ∧ be64bytes ((2 ^ 61 - 1) * 8) = [0xFF#8, 0xFF#8, 0xFF#8, 0xFF#8, 0xFF#8, 0xFF#8, 0xFF#8,
      0xF8#8] := by decide +kernel

/-- V-B4 -/
theorem test_descriptor : descriptorMsgAddr [0#8, 0#8, 1#8, 0#8, 0#8, 0#8, 0#8, 0#8, 3#8, 0#8, 0#8, 0#8, 0#8, 0#8, 0#8,
      0#8] = 0x10000 ∧
    descriptorMsgLen [0#8, 0#8, 1#8, 0#8, 0#8, 0#8, 0#8, 0#8, 3#8, 0#8, 0#8, 0#8, 0#8, 0#8, 0#8, 0#8] = 3 := by decide

/-- V-B1, the table of `RESULT` values -/
theorem test_lanes_used : [0, 1, 2, 8, 16].map (fun w => lanesUsed 4 w 8) = [4, 1, 2, 4, 4] ∧
    [0, 1, 2, 8, 16].map (fun w => lanesUsed 16 w 8) = [8, 1, 2, 8, 8] := by decide

/-! ### One step of each command -/

/-- 42_engine_commands.md R220, example -/
theorem test_init : nextAnd (step (withSrc .init 0#64 0#64)) (fun t =>
    readReg t (.state 0) == 0x7380166F#32 && readReg t (.state 7) == 0xB0FB0E4E#32 && statusWord t == 0#32 &&
      irqStatusWord t == 1#32) = true := by decide +kernel

/-- R221, example -/
theorem test_compress : nextAnd (step (accepted .compress 0x1000#64 0#64 0#64 0#64 iv (writeBytes [] 0x1000 abcBlock)))
    (fun t => t.regs.hash == abcState && t.regs.result == 0#64) = true := by decide +kernel

/-- R222, example: bytes 64 to 67 of the dump; and V-D3, its last word -/
theorem test_expansion_dump :
    ((expansionDump (expandW abcBlock) (expandW1 (expandW abcBlock))).drop 64).take 4 = [0x90#8, 0x92#8, 0xE2#8, 0x00#8] ∧
    (expansionDump (expandW abcBlock) (expandW1 (expandW abcBlock))).drop 524 = [0x49#8, 0xE2#8, 0x60#8, 0xD5#8] := by
  decide +kernel

/-- R222: the words of the datapath, `STATE` and `RESULT` -/
theorem test_expand : nextAnd (step (accepted .expand 0x1000#64 0x2000#64 0#64 0#64 iv (writeBytes [] 0x1000 abcBlock)))
    (fun t => t.path.w.getD 16 0#32 == 0x9092E200#32 && t.regs.hash == iv && t.regs.result == 0#64 &&
      statusWord t == 0#32) = true := by decide +kernel

/-- V-P, two-block example, with an unaligned destination that overlaps the source -/
theorem test_pad : nextAnd (step (accepted .pad 0x1000#64 0x1001#64 56#64 0#64 iv
      (writeBytes [] 0x1000 (List.replicate 56 0x61#8))))
    (fun t => readBytes t.mem 0x1001 57 == List.replicate 56 0x61#8 ++ [0x80#8] &&
      readBytes t.mem 0x1079 8 == [0#8, 0#8, 0#8, 0#8, 0#8, 0#8, 1#8, 0xC0#8] && t.regs.result == 2#64) = true := by
  decide +kernel

/-- V-P, error case -/
theorem test_pad_length_error : nextAnd (step (accepted .pad 0#64 0x2000#64 1#64 0x1FFFFFFFFFFFFFFF#64 iv []))
    (fun t => statusWord t == 0x00000202#32 && t.mem == [] && t.regs.faultAddr == 0#64) = true := by decide +kernel

/-- V-C -/
theorem test_to_digest : nextAnd (step (accepted .toDigest 0#64 0x2000#64 0#64 0#64 abcState []))
    (fun t => readBytes t.mem 0x2000 32 == abcDigest) = true := by decide +kernel

/-- V-C -/
theorem test_from_digest : nextAnd (step (accepted .fromDigest 0x1000#64 0#64 0#64 0#64 iv
      (writeBytes [] 0x1000 abcDigest)))
    (fun t => t.regs.hash == abcState) = true := by decide +kernel

/-- V-E2 -/
theorem test_hash : nextAnd (step (accepted .hash 0x1000#64 0x2000#64 3#64 7#64 abcState
      (writeBytes [] 0x1000 [0x61#8, 0x62#8, 0x63#8])))
    (fun t => readBytes t.mem 0x2000 32 == abcDigest && t.regs.hash == abcState && t.regs.result == 1#64) = true := by
  decide +kernel

/-- V-H, error case: a request past `2^64` -/
theorem test_hash_bus_error : nextAnd (step (withSrc .hash 0xFFFFFFFFFFFFFFF0#64 64#64))
    (fun t => statusWord t == 0x00000302#32 && t.regs.faultAddr == 0xFFFFFFFFFFFFFFF0#64) = true := by decide +kernel

/-- V-HC, second row: IV, `PRIOR = 64`, empty message: the first word of the digest -/
theorem test_hash_continue : nextAnd (step (accepted .hashContinue 0#64 0x2000#64 0#64 64#64 iv []))
    (fun t => readBytes t.mem 0x2000 4 == [0x9b#8, 0x25#8, 0x06#8, 0x73#8] && t.regs.result == 1#64) = true := by
  decide +kernel

/-- V-X: an illegal word, written by the host -/
theorem test_illegal_word : nextAnd (step (State.reset.withCmdWrite 0x80000001#32))
    (fun t => statusWord t == 0x00000102#32 && irqStatusWord t == 1#32 && t.regs.cmd == 0x80000001#32) = true := by
  decide +kernel

/-! ### A batch of one message -/

/-- The state inside the accept of HASH_BATCH, for one message: the descriptor at 0x8000, the slot at 0x9000. -/
def batchOf (msgAddr msgLen : DWord) : State :=
  let le := fun (x : DWord) => (be64bytes x.toNat).reverse
  { accepted .hashBatch 0x8000#64 0x9000#64 1#64 0#64 zeroHash (writeBytes [] 0x8000 (le msgAddr ++ le msgLen)) with
    ctl := { phase := .idle, word := encode .hashBatch, src := 0x8000#64, dst := 0x9000#64, len := 1#64, prior := 0#64,
             workers := 1#32, stateIn := zeroHash } }

/-- A running batch of log entry 3's engine whose lane 0 is in the given state. -/
def laneIn (st : LaneState) (idx next : Nat) (errv : Option ErrorLatch) (msgAddr msgLen : DWord) : State :=
  let s := batchOf msgAddr msgLen
  { s with
    ctl   := { s.ctl with phase := .batch }
    batch := { count := 1, next := next, used := 1, errv := errv }
    lanes := { Lane.reset with lstate := st, idx := idx } :: s.lanes.tail }

/-- The state a next outcome holds. -/
def nextOr (d : State) : Host.Outcome State Fault Refusal → State
  | .next t    => t
  | .fault _   => d
  | .refused _ => d

/-- The batch started, then `n` of its steps. -/
def batchAt (msgAddr msgLen : DWord) (n : Nat) : State :=
  nextOr State.reset (runSteps n (nextOr State.reset (exec .hashBatch (batchOf msgAddr msgLen))))

/-- V-B1, the empty message: fetch, work, fetch, join -/
theorem test_batch : nextAnd (step (batchAt 0#64 0#64 3)) (fun t =>
    readBytes t.mem 0x9000 4 == [0x1a#8, 0xb2#8, 0x1d#8, 0x83#8] && t.regs.result == 1#64 && statusWord t == 0#32) =
      true := by decide +kernel

/-- R314: what an earlier batch left in a lane does not reach the lane as the next batch starts it; a lane that is not
started keeps it. -/
theorem test_batch_starts_fresh :
    let l : Lane := { Lane.reset with idx := 7, path := { Path.reset with v := iv } }
    startLanes 1 [l, l] = [freshLane, l] ∧ startLanes 1 [Lane.reset, l] = [freshLane, l] := by decide

/-- V-B3 with one message: `len = 2^61` -/
theorem test_batch_length_error : nextAnd (step (batchAt 0x10000#64 0x2000000000000000#64 2)) (fun t =>
    statusWord t == 0x00000202#32 && t.regs.faultAddr == 0#64 && t.regs.faultIndex == 0#64 &&
      readBytes t.mem 0x9000 32 == zeros 32) = true := by decide +kernel

/-- R351: a host that only polls, and a schedule that always picks it, cannot keep INIT from completing. -/
theorem test_polling_host_waits : nextAnd
    (runSteps 2 { withSrc .init 0#64 0#64 with host := [.wait], schedule := [0, 0, 0], patience := 1 }) (fun t =>
      statusWord t == 0#32 && t.regs.done) = true := by decide +kernel

/-! ### Witnesses: for each statement with hypotheses, a state and operands that meet all of them together -/

/-- The engine after reset meets the invariant. -/
theorem reset_inv : State.reset.Inv :=
  State.Inv.of_idle (by decide) (by decide) (by decide) (by decide) (by decide) (by decide)

/-- The engine with a single-message command accepted by a host write of `CMD`, the host having more to do. -/
def afterAccept (c : Word) : State := nextOr State.reset (accept { State.reset with host := [.rd 0x010#12] } c)

theorem afterAccept_inv : (afterAccept 0x00000007#32).Inv :=
  accept_inv (s := { State.reset with host := [.rd 0x010#12] }) (c := 0x00000007#32)
    (reset_inv.of_same rfl rfl rfl rfl rfl reset_inv.memWf) (by decide) rfl

theorem witness_StepExecutesDecodedCommand :
    (let s := withSrc .hash 0x1000#64 3#64;
      s.ctl.phase = .single ∧ decode s.ctl.word = .command .hash ∧ pickAgent s = some .control ∧ s.host = []) ∧
    (let s := State.reset.withCmdWrite 0x00000009#32;
      s.ctl.phase = .idle ∧ decode 0x00000009#32 = .command .hashBatch ∧ s.host = .wr 0x00C#12 0x00000009#32 :: []) := by
  decide +kernel

theorem witness_PlacedCommandRunsNext : Instr.hashContinue ≠ .hashBatch := by decide

/-- A read at the very top of the address space. -/
theorem witness_CompressAppliesCf :
    let s := withSrc .compress 0xFFFFFFFFFFFFFFC0#64 0#64
    readable s (srcOp s) 64 = true := by decide +kernel

theorem witness_ExpandWritesExpansion :
    let s := accepted .expand 0xFFFFFFFFFFFFFFC0#64 0xFFFFFFFFFFFFFDF0#64 0#64 0#64 iv []
    readable s (srcOp s) 64 = true ∧ writable s (dstOp s) 528 = true ∧ (67 : Nat) < 68 ∧ (63 : Nat) < 64 := by
  decide +kernel

/-- The largest length that can be encoded, with a tail. -/
theorem witness_PadWritesTrailer :
    let s := accepted .pad 0x1000#64 0x2000#64 56#64 0x1FFFFFFFFFFFFFC7#64 iv []
    priorOp s + lenOp s < 2 ^ 61 ∧
      (0 < lenOp s % 64 → readable s (srcOp s + 64 * (lenOp s / 64)) (lenOp s % 64) = true) ∧
      writable s (dstOp s) (64 * count (lenOp s)) = true := by decide +kernel

theorem witness_ToDigestWritesState :
    let s := accepted .toDigest 0#64 0xFFFFFFFFFFFFFFE0#64 0#64 0#64 iv []
    writable s (dstOp s) 32 = true := by decide +kernel

theorem witness_FromDigestLoadsState :
    let s := withSrc .fromDigest 0xFFFFFFFFFFFFFFE0#64 0#64
    readable s (srcOp s) 32 = true := by decide +kernel

/-- Two full blocks and a tail. -/
theorem witness_HashWritesDigest :
    let s := accepted .hash 0x1000#64 0x1010#64 130#64 0#64 iv []
    lenOp s < 2 ^ 61 ∧ messageReadable s (srcOp s) (lenOp s) ∧ writable s (dstOp s) 32 = true := by
  unfold messageReadable
  decide +kernel

theorem witness_HashContinueWritesDigest :
    let s := accepted .hashContinue 0x1000#64 0x1010#64 130#64 0x1FFFFFFFFFFFFF7D#64 iv []
    priorOp s + lenOp s < 2 ^ 61 ∧ messageReadable s (srcOp s) (lenOp s) ∧ writable s (dstOp s) 32 = true := by
  unfold messageReadable
  decide +kernel

theorem witness_HashBatchStartsLanes :
    lenOp (batchOf 0#64 0#64) ≠ 0 ∧ batchOverlap (batchOf 0#64 0#64) = false := by decide +kernel

theorem witness_EmptyBatchCompletes : lenOp (accepted .hashBatch 0#64 0#64 0#64 0#64 iv []) = 0 ∧
    busy State.reset = false ∧ State.reset.regs.len = 0#64 := by decide

/-- The bound itself, in both clauses. -/
theorem witness_LengthErrorCompletes :
    (let s := accepted .hashContinue 0#64 0#64 1#64 0x1FFFFFFFFFFFFFFF#64 iv [];
      2 ^ 61 ≤ priorOp s + lenOp s) ∧
    (let s := withSrc .hash 0#64 0x2000000000000000#64;
      2 ^ 61 ≤ lenOp s) := by decide +kernel

/-- One byte past the top of the address space, in each clause, and a tail of one byte that the platform does not admit. -/
theorem witness_BusErrorCompletes :
    (let s := withSrc .compress 0xFFFFFFFFFFFFFFC1#64 0#64;
      admitted s.params .read (srcOp s) 64 = false) ∧
    (let s := withSrc .fromDigest 0xFFFFFFFFFFFFFFE1#64 0#64;
      admitted s.params .read (srcOp s) 32 = false) ∧
    (let s := accepted .expand 0x1000#64 0xFFFFFFFFFFFFFDF1#64 0#64 0#64 iv [];
      readable s (srcOp s) 64 = true ∧ writable s (dstOp s) 528 = false) ∧
    (let s := accepted .pad 0x1000#64 0xFFFFFFFFFFFFFF81#64 56#64 0#64 iv [];
      priorOp s + lenOp s < 2 ^ 61 ∧
        (0 < lenOp s % 64 → readable s (srcOp s + 64 * (lenOp s / 64)) (lenOp s % 64) = true) ∧
        writable s (dstOp s) (64 * count (lenOp s)) = false) ∧
    (let s := accepted .hash 0x1000#64 0xFFFFFFFFFFFFFFE1#64 130#64 5#64 iv [];
      writable s (dstOp s) 32 = false ∧ lenOp s < 2 ^ 61 ∧ priorOp s + lenOp s < 2 ^ 61 ∧
        messageReadable s (srcOp s) (lenOp s)) ∧
    (let s := onPlatform { params with denied := [.touching .read { lo := 0x1040, len := 1 }] } .hash 0x1000#64 0x2000#64
        65#64;
      0 < lenOp s % 64 ∧ admitted s.params .read (srcOp s + 64 * (lenOp s / 64)) (lenOp s % 64) = false ∧
        srcOp s + 64 * (lenOp s / 64) < 2 ^ 64 ∧ priorOp s + lenOp s < 2 ^ 61 ∧ lenOp s < 2 ^ 61 ∧
        ∀ k, k < lenOp s / 64 → readable s (srcOp s + 64 * k) 64 = true) := by
  unfold messageReadable
  decide +kernel

/-- A platform that does not admit reads of the second block. -/
theorem witness_HashStopsAtFirstBadBlock :
    let s := onPlatform { params with denied := [.touching .read { lo := 0x1040, len := 1 }] } .hash 0x1000#64 0x2000#64
      192#64
    lenOp s < 2 ^ 61 ∧ priorOp s + lenOp s < 2 ^ 61 ∧ 1 < lenOp s / 64 ∧ (∀ j, j < 1 → readable s (srcOp s + 64 * j) 64 = true) ∧
      admitted s.params .read (srcOp s + 64 * 1) 64 = false ∧ srcOp s + 64 * 1 < 2 ^ 64 := by decide +kernel

theorem witness_FailedCommandsArePrecise :
    ∃ t, exec .hash (withSrc .hash 0#64 0x2000000000000000#64) = .next t ∧ t.regs.err = true :=
  of_nextAnd (p := fun t => t.regs.err) (by decide +kernel)

/-- The parameters of an engine one byte of whose host memory is not plain. -/
def sideEffectAt (a : Nat) : Params := { params with notPlain := [{ lo := a, len := 1 }] }

/-- The last byte of a block and of a digest, of a second block, of a tail, and of a lane's descriptor, block and tail. -/
theorem witness_ReadOfSideEffectsIsRefused :
    (let s := onPlatform (sideEffectAt 0x103F) .compress 0x1000#64 0#64 0#64;
      hasSideEffects s (srcOp s) 64 = true) ∧
    (let s := onPlatform (sideEffectAt 0x101F) .fromDigest 0x1000#64 0#64 0#64;
      hasSideEffects s (srcOp s) 32 = true) ∧
    (let s := onPlatform (sideEffectAt 0x107F) .hash 0x1000#64 0x2000#64 129#64;
      1 < lenOp s / 64 ∧ (∀ j, j < 1 → readable s (srcOp s + 64 * j) 64 = true) ∧
        hasSideEffects s (srcOp s + 64 * 1) 64 = true ∧ lenOp s < 2 ^ 61 ∧ priorOp s + lenOp s < 2 ^ 61) ∧
    (let s := onPlatform (sideEffectAt 0x1080) .hash 0x1000#64 0x2000#64 129#64;
      0 < lenOp s % 64 ∧ hasSideEffects s (srcOp s + 64 * (lenOp s / 64)) (lenOp s % 64) = true ∧
        (∀ k, k < lenOp s / 64 → readable s (srcOp s + 64 * k) 64 = true) ∧ lenOp s < 2 ^ 61 ∧
        priorOp s + lenOp s < 2 ^ 61) ∧
    (let s := { laneIn .work 0 1 none 0x10000#64 65#64 with params := sideEffectAt 0x800F };
      (s.lanes[0]?).map (fun l => (l.lstate, l.idx)) = some (.work, 0) ∧
        hasSideEffects s (srcOp s + 16 * 0) 16 = true) ∧
    (let s := { laneIn .work 0 1 none 0x10000#64 65#64 with params := sideEffectAt 0x1003F };
      readable s (srcOp s + 16 * 0) 16 = true ∧ descriptorMsgLen (descriptorBytes s 0) < 2 ^ 61 ∧
        0 < descriptorMsgLen (descriptorBytes s 0) / 64 ∧
        hasSideEffects s (descriptorMsgAddr (descriptorBytes s 0) + 64 * 0) 64 = true) ∧
    (let s := { laneIn .work 0 1 none 0x10000#64 65#64 with params := sideEffectAt 0x10040 };
      readable s (srcOp s + 16 * 0) 16 = true ∧ descriptorMsgLen (descriptorBytes s 0) < 2 ^ 61 ∧
        0 < descriptorMsgLen (descriptorBytes s 0) % 64 ∧
        (∀ j, j < descriptorMsgLen (descriptorBytes s 0) / 64 →
          readable s (descriptorMsgAddr (descriptorBytes s 0) + 64 * j) 64 = true) ∧
        hasSideEffects s
          (descriptorMsgAddr (descriptorBytes s 0) + 64 * (descriptorMsgLen (descriptorBytes s 0) / 64))
          (descriptorMsgLen (descriptorBytes s 0) % 64) = true) := by decide +kernel

/-- Each storing command answers a next state, and some address lies outside what it stores. -/
theorem witness_StoringCommandsFrame :
    ∀ i ∈ [Instr.expand, .pad, .toDigest, .hash, .hashContinue],
      nextAnd (exec i (accepted i 0x1000#64 0x2000#64 3#64 0#64 iv [])) (fun t => !t.regs.err) = true ∧
        ¬ (dstOp (accepted i 0x1000#64 0x2000#64 3#64 0#64 iv []) ≤ 0x1FFF) := by decide +kernel

theorem witness_NonStoringCommandsFrame :
    (∀ i ∈ [Instr.init, .compress, .fromDigest],
      nextAnd (exec i (accepted i 0x1000#64 0#64 0#64 0#64 iv [])) (fun t => !t.regs.err) = true) ∧
    nextAnd (exec .hashBatch (batchOf 0#64 0#64)) (fun t => t.ctl.phase == .batch) = true := by decide +kernel

/-- The first and last registers, and the reserved offsets and the ends of the reserved range. -/
theorem witness_RegisterMapAndReserved :
    regAt 0x000#12 = some .id ∧ regAt 0x07C#12 = some (.state 7) ∧
    (0x080#12 ≤ 0x080#12 ∧ (0x080#12 : BitVec 12) ≤ 0xFFF#12) ∧
    (0x044#12 = 0x044#12 ∧ 0x058#12 = 0x058#12 ∧ (0x05C#12 : BitVec 12) = 0x05C#12) := by decide +kernel

theorem witness_ArgumentRegistersHoldWrites :
    busy State.reset = false ∧ Reg.priorHi ∈ [Reg.srcLo, .srcHi, .dstLo, .dstHi, .lenLo, .lenHi, .priorLo, .priorHi,
      .workers] ∧ (∃ k, Reg.state 7 = .state k) ∧ Reg.priorLo ≠ .priorHi := by decide +kernel

theorem witness_WritesWhileBusyAreIgnored :
    busy (withSrc .hash 0#64 0#64) = true ∧ Reg.cmd ∈ [Reg.cmd, .srcLo, .srcHi, .dstLo, .dstHi, .lenLo, .lenHi, .priorLo,
      .priorHi, .workers] ∧ ∃ k, Reg.state 0 = .state k := by decide +kernel

theorem witness_ControlAndStatusWrites :
    Reg.cap ∈ [Reg.id, .cap, .resultLo, .resultHi, .faultAddrLo, .faultAddrHi, .faultIndexLo, .faultIndexHi] ∧
    (0xFFFFFFFD#32).getLsbD 1 = false := by decide

theorem witness_AcceptLatchesCommand :
    busy State.reset = false ∧ decode 0x00000001#32 = .command .init ∧ Instr.init ≠ .hashBatch ∧
    decode 0x00000009#32 = .command .hashBatch := by decide

/-- Each way of being illegal, at the edges of the opcode map. -/
theorem witness_IllegalWordCompletes :
    busy State.reset = false ∧ (0x00000100#32).extractLsb' 8 24 ≠ 0#24 ∧ (0x00000000#32).extractLsb' 0 8 = 0x00#8 ∧
    0x0A#8 ≤ (0x0000000A#32).extractLsb' 0 8 := by decide

theorem witness_ReadsWhileBusy : (afterAccept 0x00000007#32).Inv ∧ busy (afterAccept 0x00000007#32) = true :=
  ⟨afterAccept_inv, by decide +kernel⟩

/-- A state with `DONE = 1` and `IRQ_EN = 1`, and a write for each clause. -/
theorem witness_InterruptLevel :
    let s := { State.reset with regs := { RegFile.reset with irqEn := true, done := true } }
    irq s = true ∧
    ((0x1#32).getLsbD 0 = true ∧ nextAnd (writeReg s .irqStatus 0x1#32) (fun _ => true) = true) ∧
    ((0x0#32).getLsbD 0 = false ∧ (0x0#32).getLsbD 1 = false ∧
      nextAnd (writeReg s .ctrl 0x0#32) (fun _ => true) = true) ∧
    ((0x1#32).getLsbD 0 = true ∧ (0x1#32).getLsbD 1 = false ∧ s.regs.done = true ∧
      nextAnd (writeReg s .ctrl 0x1#32) (fun _ => true) = true) ∧
    ((0x2#32).getLsbD 1 = true ∧ nextAnd (writeReg s .ctrl 0x2#32) (fun _ => true) = true) ∧
    nextAnd (hostDo s .hardReset) (fun _ => true) = true ∧
    (busy s = false ∧ nextAnd (writeReg s .cmd 0x1#32) busy = true) := by decide +kernel

/-- Idle, and busy with a command whose destination leaves an address alone. -/
theorem witness_SoftResetIsReset :
    (0x3#32).getLsbD 1 = true ∧ busy State.reset = false ∧
    (let s := withSrc .hash 0#64 0#64;
      busy s = true ∧ decode s.ctl.word = .command .hash ∧
        ¬ ((destRegion s .hash).lo ≤ 0x2020 ∧ 0x2020 < (destRegion s .hash).lo + (destRegion s .hash).len)) := by
  decide +kernel

/-- A misaligned offset, aligned offsets with and without a register, and a store whose last byte is the first of the window. -/
theorem witness_RegisterAccessDuty :
    (0x012#12).toNat % 4 ≠ 0 ∧ ((0x010#12).toNat % 4 = 0 ∧ regAt 0x010#12 = some .status) ∧
    ((0x044#12).toNat % 4 = 0 ∧ regAt 0x044#12 = none) ∧
    (0xFFFFFFFFFFFFEFFF#64).toNat + [0#8, 0#8].length ≤ 2 ^ 64 ∧ [0#8, 0#8] ≠ ([] : List Byte) ∧
    ((0xFFFFFFFFFFFFEFFF#64).toNat ≤ 0xFFFFFFFFFFFFF000 ∧
      0xFFFFFFFFFFFFF000 < (0xFFFFFFFFFFFFEFFF#64).toNat + [0#8, 0#8].length) ∧
    (regBase State.reset.params ≤ 0xFFFFFFFFFFFFF000 ∧
      0xFFFFFFFFFFFFF000 < regBase State.reset.params + 0x1000) := by decide +kernel

/-- A running HASH of three bytes whose digest goes right after them. -/
def bufferState : State := accepted .hash 0x1000#64 0x1003#64 3#64 0#64 iv []

/-- A running batch of one message of one byte at 0x10000. -/
def bufferBatch : State := laneIn .work 0 1 none 0x10000#64 1#64

/-- The last source byte, the last destination byte, and the byte after both, of HASH and of HASH_BATCH: for the batch the
message's byte, the table's last, and the digest array's last. -/
theorem witness_BufferDuty :
    (busy bufferState = true ∧ decode bufferState.ctl.word = .command .hash ∧ 0x1023 < regBase bufferState.params ∧
      SourceByte bufferState 0x1002 .hash ∧ DestByte bufferState 0x1022 .hash ∧
      ¬ SourceByte bufferState 0x1023 .hash ∧ ¬ DestByte bufferState 0x1023 .hash) ∧
    (busy bufferBatch = true ∧ decode bufferBatch.ctl.word = .command .hashBatch ∧
      0x10001 < regBase bufferBatch.params ∧ SourceByte bufferBatch 0x800F .hashBatch ∧
      SourceByte bufferBatch 0x10000 .hashBatch ∧ DestByte bufferBatch 0x901F .hashBatch ∧
      ¬ SourceByte bufferBatch 0x10001 .hashBatch ∧ ¬ DestByte bufferBatch 0x10001 .hashBatch) := by
  simp only [SourceByte, DestByte]
  refine ⟨by decide +kernel, by decide +kernel, by decide +kernel, by decide +kernel, .inl (by decide +kernel),
    .inr ⟨0, by decide +kernel, by decide +kernel, by decide +kernel, by decide +kernel⟩, by decide +kernel, ?_,
    by decide +kernel⟩
  rintro (h | ⟨i, hi, -, -, h⟩)
  · revert h; decide +kernel
  · have hi : i < 1 := hi
    rw [show i = 0 by omega] at h
    revert h
    decide +kernel

/-- R353 for HASH_BATCH: a store of the message's byte is refused, a store of the byte after it happens. -/
theorem test_batch_buffer_duty : refusedWith (hostDo bufferBatch (.store 0x10000#64 [1#8])) .bufferDuty = true ∧
    nextAnd (hostDo bufferBatch (.store 0x10001#64 [1#8])) (fun t => readByte t.mem 0x10001 == 1#8) = true := by
  decide +kernel

/-- A launch that keeps the duty, and one in which a message is the slot's last byte. -/
theorem witness_BatchOverlapDuty :
    lenOp (batchOf 0x901F#64 1#64) ≠ 0 ∧ batchOverlap (batchOf 0x9020#64 1#64) = false ∧
    refusedWith (exec .hashBatch (batchOf 0x901F#64 1#64)) .batchOverlapDuty = true := by decide +kernel

/-- A request that ends at the top of the address space, and one a byte further. -/
theorem witness_RequestsMoveTheirBytes :
    (0xFFFFFFFFFFFFFFF0 + 16 ≤ 2 ^ 64 ∧ admits State.reset.params .read 0xFFFFFFFFFFFFFFF0 16 = true ∧
      plain State.reset.params 0xFFFFFFFFFFFFFFF0 16 = true ∧ (0 : Nat) < 16) ∧
    (State.reset.mem.wf = true ∧ 0xFFFFFFFFFFFFFFF0 + (zeros 16).length ≤ 2 ^ 64 ∧
      admits State.reset.params .write 0xFFFFFFFFFFFFFFF0 (zeros 16).length = true) ∧
    2 ^ 64 < 0xFFFFFFFFFFFFFFF1 + 16 ∧
    admits { params with denied := [.request .read 0x1000 64] } .read 0x1000 64 = false := by decide +kernel

theorem witness_RotationIsCircular : (31 : Nat) < 32 := by decide

theorem witness_ExpansionRecurrence : abcBlock.length = 64 ∧ (15 : Nat) < 16 ∧ (16 ≤ 67 ∧ (67 : Nat) ≤ 67) ∧
    (63 : Nat) < 64 := by decide

theorem witness_PaddingFillsBlocks : 0x1FFFFFFFFFFFFFC7 + 56 < 2 ^ 61 ∧ 1 ≤ 63 ∧
    63 < (padSuffix 56 0x1FFFFFFFFFFFFFC7).length - 8 := by decide +kernel

theorem witness_CodecRoundTrip : abcDigest.length = 32 ∧ (3 : Nat) < 4 := by decide

theorem witness_LengthExtension : paddedLen ([] : List Byte).length + [0x61#8].length < 2 ^ 61 := by decide

theorem witness_HashContinueFromIvIsHash :
    (accepted .hashContinue 0x1000#64 0x2000#64 3#64 0#64 iv []).ctl.stateIn = iv ∧
    priorOp (accepted .hashContinue 0x1000#64 0x2000#64 3#64 0#64 iv []) = 0 := by decide

/-- Two states that differ in the datapath and in what the host will do. -/
theorem witness_NoHiddenState :
    let s := accepted .compress 0x1000#64 0#64 0#64 0#64 iv []
    let s' := { s with path := { s.path with v := iv, j := 63 }, host := [.wait] }
    Instr.compress ≠ .hashBatch ∧ s.params = s'.params ∧ s.ctl = s'.ctl ∧ s.mem = s'.mem ∧ s.regs = s'.regs ∧
      s.tick = s'.tick ∧ s.path ≠ s'.path ∧ nextAnd (exec .compress s) (fun _ => true) = true := by decide +kernel

/-- The three clauses: an error latched, the counter just drained, and the last index. -/
theorem witness_LaneFetchStep :
    (let s := laneIn .fetch 0 1 (some ⟨0x03#8, 0#64, 0#64⟩) 0#64 0#64;
      (s.lanes[0]?).map (·.lstate) = some .fetch ∧ s.batch.errv ≠ none) ∧
    (let s := laneIn .fetch 0 1 none 0#64 0#64;
      (s.lanes[0]?).map (·.lstate) = some .fetch ∧ s.batch.errv = none ∧ s.batch.count ≤ s.batch.next) ∧
    (let s := laneIn .fetch 0 0 none 0#64 0#64;
      (s.lanes[0]?).map (·.lstate) = some .fetch ∧ s.batch.errv = none ∧ s.batch.next < s.batch.count) := by
  decide +kernel

theorem witness_LaneWorkStep :
    let s := laneIn .work 0 1 none 0x10000#64 65#64
    (s.lanes[0]?).map (fun l => (l.lstate, l.idx)) = some (.work, 0) ∧ readable s (srcOp s + 16 * 0) 16 = true ∧
      descriptorMsgLen (descriptorBytes s 0) < 2 ^ 61 ∧
      messageReadable s (descriptorMsgAddr (descriptorBytes s 0)) (descriptorMsgLen (descriptorBytes s 0)) ∧
      writable s (dstOp s + 32 * 0) 32 = true := by
  unfold messageReadable
  decide +kernel

/-- The five failures: the descriptor, the length, the first block, the tail, the slot. -/
theorem witness_LaneFailureStep :
    (let s := { laneIn .work 0 1 none 0x10000#64 0#64 with
        params := { params with denied := [.request .read 0x8000 16] } };
      (s.lanes[0]?).map (fun l => (l.lstate, l.idx)) = some (.work, 0) ∧ srcOp s + 16 * 0 < 2 ^ 64 ∧
        admitted s.params .read (srcOp s + 16 * 0) 16 = false) ∧
    (let s := laneIn .work 0 1 none 0x10000#64 0x2000000000000000#64;
      (s.lanes[0]?).map (fun l => (l.lstate, l.idx)) = some (.work, 0) ∧ readable s (srcOp s + 16 * 0) 16 = true ∧
        2 ^ 61 ≤ descriptorMsgLen (descriptorBytes s 0)) ∧
    (let s := { laneIn .work 0 1 none 0x10000#64 65#64 with
        params := { params with denied := [.touching .read { lo := 0x1003F, len := 1 }] } };
      (s.lanes[0]?).map (fun l => (l.lstate, l.idx)) = some (.work, 0) ∧ readable s (srcOp s + 16 * 0) 16 = true ∧
        descriptorMsgLen (descriptorBytes s 0) < 2 ^ 61 ∧ 0 < descriptorMsgLen (descriptorBytes s 0) / 64 ∧
        descriptorMsgAddr (descriptorBytes s 0) + 64 * 0 < 2 ^ 64 ∧
        admitted s.params .read (descriptorMsgAddr (descriptorBytes s 0) + 64 * 0) 64 = false) ∧
    (let s := { laneIn .work 0 1 none 0x10000#64 65#64 with
        params := { params with denied := [.touching .read { lo := 0x10040, len := 1 }] } };
      (s.lanes[0]?).map (fun l => (l.lstate, l.idx)) = some (.work, 0) ∧ readable s (srcOp s + 16 * 0) 16 = true ∧
        descriptorMsgLen (descriptorBytes s 0) < 2 ^ 61 ∧ 0 < descriptorMsgLen (descriptorBytes s 0) % 64 ∧
        descriptorMsgAddr (descriptorBytes s 0) + 64 * (descriptorMsgLen (descriptorBytes s 0) / 64) < 2 ^ 64 ∧
        (∀ j, j < descriptorMsgLen (descriptorBytes s 0) / 64 →
          readable s (descriptorMsgAddr (descriptorBytes s 0) + 64 * j) 64 = true) ∧
        admitted s.params .read (descriptorMsgAddr (descriptorBytes s 0) + 64 * (descriptorMsgLen (descriptorBytes s 0) / 64))
          (descriptorMsgLen (descriptorBytes s 0) % 64) = false) ∧
    (let s := { laneIn .work 0 1 none 0x10000#64 0#64 with
        params := { params with denied := [.touching .write { lo := 0x901F, len := 1 }] } };
      (s.lanes[0]?).map (fun l => (l.lstate, l.idx)) = some (.work, 0) ∧ dstOp s + 32 * 0 < 2 ^ 64 ∧
        readable s (srcOp s + 16 * 0) 16 = true ∧ descriptorMsgLen (descriptorBytes s 0) < 2 ^ 61 ∧
        messageReadable s (descriptorMsgAddr (descriptorBytes s 0)) (descriptorMsgLen (descriptorBytes s 0)) ∧
        writable s (dstOp s + 32 * 0) 32 = false) := by
  unfold messageReadable
  decide +kernel

/-- A batch with no error latched, and one with an error. -/
theorem witness_JoinReportsBatch :
    (let s := laneIn .retired 0 2 none 0#64 0#64;
      s.ctl.phase = .batch ∧ s.batch.errv = none ∧ 0 < s.batch.used ∧ (s.lanes[0]?).isSome = true) ∧
    (let s := laneIn .retired 0 1 (some ⟨0x02#8, 0#64, 0#64⟩) 0#64 0#64;
      s.ctl.phase = .batch ∧ s.batch.errv = some ⟨0x02#8, 0#64, 0#64⟩ ∧ (0x02#8 : BitVec 8) ≠ 0x00#8) := by
  decide +kernel

/-- Both clauses of the lane count at their edges: all lanes asked for, and exactly one. -/
theorem witness_LanesUsedAndSlots :
    0 < 8 ∧ (0 = 0 ∨ min 8 (nLanes params) ≤ 0) ∧ (4 = 0 ∨ min 8 (nLanes params) ≤ 4) ∧ 1 ≤ 1 ∧
      1 ≤ min 8 (nLanes params) ∧ (0 : Nat) ≠ 1 := by decide

/-- A work step of lane 0, with other lanes there and an address outside the slot. -/
theorem witness_LanesArePrivate :
    let s := laneIn .work 0 1 none 0#64 0#64
    nextAnd (laneStep s 0) (fun _ => true) = true ∧ (s.lanes[3]?).isSome = true ∧
      ∀ l ∈ s.lanes[0]?, ¬ (slotAddr s l.idx ≤ 0x8FFF ∧ 0x8FFF < slotAddr s l.idx + 32) := by decide +kernel

/-- A Bool check that `n` steps are all taken while a batch runs, and that their end has a property. -/
def batchRunAnd (p : State → Bool) : Nat → State → Bool
  | 0, s     => p s
  | n + 1, s => s.ctl.phase == .batch && nextAnd (step s) (batchRunAnd p n)

theorem of_batchRunAnd {p : State → Bool} {n : Nat} {s : State} (h : batchRunAnd p n s = true) :
    ∃ t, BatchRun s t ∧ p t = true := by
  induction n generalizing s with
  | zero => exact ⟨s, .refl s, h⟩
  | succ n ih =>
    simp only [batchRunAnd, Bool.and_eq_true, beq_iff_eq] at h
    obtain ⟨t, h1, h2⟩ := of_nextAnd h.2
    obtain ⟨v, h3, h4⟩ := ih h2
    exact ⟨v, .next s t v h.1 h1 h3, h4⟩

theorem canStart_batchOf : CanStart (batchOf 0#64 0#64) ∧ CanStart (batchOf 0x10000#64 0x2000000000000000#64) :=
  ⟨⟨by decide +kernel, by decide +kernel, by decide +kernel⟩, ⟨by decide +kernel, by decide +kernel, by decide +kernel⟩⟩

/-- A batch of one empty message, to its end. -/
theorem witness_BatchDigestsInOrder :
    ∃ u s t, CanStart u ∧ lenOp u ≠ 0 ∧ decode u.ctl.word = .command .hashBatch ∧ exec .hashBatch u = .next s ∧
      BatchRun s t ∧ t.ctl.phase = .idle ∧ t.regs.done = true ∧ t.regs.err = false ∧ 0 < lenOp u := by
  obtain ⟨s, hs, h⟩ := of_nextAnd (o := exec .hashBatch (batchOf 0#64 0#64))
    (p := batchRunAnd (fun t => t.ctl.phase == .idle && (t.regs.done && !t.regs.err)) 4) (by decide +kernel)
  obtain ⟨t, ht, hp⟩ := of_batchRunAnd h
  simp only [Bool.and_eq_true, beq_iff_eq, Bool.not_eq_true'] at hp
  exact ⟨_, s, t, canStart_batchOf.1, by decide +kernel, by decide +kernel, hs, ht, hp.1, hp.2.1, hp.2.2,
    by decide +kernel⟩

/-- A batch of one message that is too long, to its end. -/
theorem witness_FailedBatchSlots :
    ∃ u s t, CanStart u ∧ lenOp u ≠ 0 ∧ decode u.ctl.word = .command .hashBatch ∧ exec .hashBatch u = .next s ∧
      BatchRun s t ∧ t.ctl.phase = .idle ∧ t.regs.done = true ∧ t.regs.err = true ∧ 0 < lenOp u := by
  obtain ⟨s, hs, h⟩ := of_nextAnd (o := exec .hashBatch (batchOf 0x10000#64 0x2000000000000000#64))
    (p := batchRunAnd (fun t => t.ctl.phase == .idle && (t.regs.done && t.regs.err)) 3) (by decide +kernel)
  obtain ⟨t, ht, hp⟩ := of_batchRunAnd h
  simp only [Bool.and_eq_true, beq_iff_eq] at hp
  exact ⟨_, s, t, canStart_batchOf.2, by decide +kernel, by decide +kernel, hs, ht, hp.1, hp.2.1, hp.2.2,
    by decide +kernel⟩

theorem witness_BatchReachesJoin :
    ∃ u s, CanStart u ∧ lenOp u ≠ 0 ∧ decode u.ctl.word = .command .hashBatch ∧ u.host = [] ∧
      exec .hashBatch u = .next s := by
  obtain ⟨s, hs, _⟩ := of_nextAnd (o := exec .hashBatch (batchOf 0#64 0#64)) (p := fun _ => true) (by decide +kernel)
  exact ⟨_, s, canStart_batchOf.1, by decide +kernel, by decide +kernel, by decide +kernel, hs⟩

/-- The host moves while HASH runs. -/
theorem witness_StepKeepsInvariant :
    ∃ s t, s.Inv ∧ s.ctl.phase ≠ .idle ∧ step s = .next t := by
  have h : ({ afterAccept 0x00000007#32 with schedule := [0], patience := 1 } : State).Inv :=
    afterAccept_inv.of_same rfl rfl rfl rfl rfl afterAccept_inv.memWf
  obtain ⟨t, ht, _⟩ := of_nextAnd (o := step { afterAccept 0x00000007#32 with schedule := [0], patience := 1 }) (p := fun _ => true)
    (by decide +kernel)
  exact ⟨_, t, h, by decide +kernel, ht⟩

theorem witness_StepKeepsParameters : ∃ t, step (withSrc .hash 0#64 0#64) = .next t := by
  obtain ⟨t, ht, _⟩ := of_nextAnd (o := step (withSrc .hash 0#64 0#64)) (p := fun _ => true) (by decide +kernel)
  exact ⟨t, ht⟩

/-- A silent host, and one that polls. -/
theorem witness_IdleEngineRests :
    (State.reset.ctl.phase = .idle ∧ State.reset.host = []) ∧
    ∃ t, ({ State.reset with host := [.wait] } : State).host = HostAction.wait :: [] ∧
      (∀ o v, HostAction.wait ≠ .wr o v) ∧ HostAction.wait ≠ .hardReset ∧
      step { State.reset with host := [.wait] } = .next t ∧ ∀ a b, HostAction.wait ≠ .store a b := by
  refine ⟨by decide, ?_⟩
  obtain ⟨t, ht, _⟩ := of_nextAnd (o := step { State.reset with host := [.wait] }) (p := fun _ => true)
    (by decide +kernel)
  exact ⟨t, rfl, fun _ _ h => (by cases h), fun h => (by cases h), ht, fun _ _ h => (by cases h)⟩

/-- The control unit executes HASH, and an address outside the digest. -/
theorem witness_EngineWritesDestinationOnly :
    ∃ s t, s.Inv ∧ Agent.control ∈ enabledAgents s ∧ Agent.control ≠ .host ∧ agentStep (turn s) .control = .next t ∧
      ∀ i, running s = some i →
        ¬ ((destRegion s i).lo ≤ 0x20 ∧ 0x20 < (destRegion s i).lo + (destRegion s i).len) := by
  obtain ⟨t, ht, _⟩ := of_nextAnd (o := agentStep (turn (afterAccept 0x00000007#32)) .control) (p := fun _ => true)
    (by decide +kernel)
  refine ⟨_, t, afterAccept_inv, by decide +kernel, by decide, ht, ?_⟩
  intro i hi
  have : running (afterAccept 0x00000007#32) = some .hash := by decide +kernel
  rw [this] at hi
  cases hi
  decide +kernel

/-- A completion, a hardware reset while busy, and a busy state that meets the invariant with an enabled step. -/
theorem witness_BusyEndsByCompletionOrReset :
    ((busy (withSrc .init 0#64 0#64) = true ∧ nextAnd (step (withSrc .init 0#64 0#64)) (fun t => !busy t) = true) ∧
    (let s := { withSrc .init 0#64 0#64 with host := [.hardReset], schedule := [0], patience := 1 };
      busy s = true ∧ nextAnd (step s) (fun t => !busy t && !t.regs.done) = true)) ∧
    (afterAccept 0x00000007#32).Inv ∧ Agent.control ∈ engineAgents (afterAccept 0x00000007#32) ∧
      busy (afterAccept 0x00000007#32) = true :=
  ⟨by decide +kernel, afterAccept_inv, by decide +kernel, by decide +kernel⟩

/-- The host reads and writes while a command runs. -/
theorem witness_OperandsStableWhileBusy :
    let s := { withSrc .hash 0#64 0#64 with host := [.wr 0x020#12 7#32], schedule := [0], patience := 1 }
    busy s = true ∧ nextAnd (step s) (fun t => busy t && t.regs.overrun) = true := by decide +kernel

end Sys2Proof.Tests
end

section
/-! PROOF. No agent's step changes the parameters (00_scope.md R15, R17). -/

namespace Sys2Proof.Machine

@[simp] theorem latchError_params (s : State) (c : ErrorCode) (a : DWord) (i : Nat) :
    (latchError s c a i).params = s.params := by
  unfold latchError
  split <;> rfl

@[simp] theorem writeCtrl_params (s : State) (v : Word) : (writeCtrl s v).params = s.params := by
  unfold writeCtrl
  split <;> simp

theorem execHashBatch_params {s t : State} (h : execHashBatch s = .next t) : t.params = s.params := by
  obtain ⟨_, he⟩ | ⟨_, _, he⟩ | ⟨_, _, he⟩ := execHashBatch_cases s <;> rw [he] at h <;> cases h
  · simp
  · simp

theorem exec_params {i : Instr} {s t : State} (h : exec i s = .next t) : t.params = s.params := by
  by_cases hi : i = .hashBatch
  · subst hi
    exact execHashBatch_params h
  · obtain ⟨p, v, hash, r, he, _⟩ | ⟨c, a, p, he, _⟩ | he := exec_single_cases i hi s <;> rw [he] at h <;> cases h
    · simp [singleResult]
    · simp

theorem accept_params {s t : State} {c : Word} (h : accept s c = .next t) : t.params = s.params := by
  obtain ⟨_, _, he⟩ | ⟨_, he⟩ | ⟨_, _, _, he⟩ := accept_cases s c <;> rw [he] at h
  · cases h; simp
  · simpa using execHashBatch_params h
  · cases h; simp

theorem writeReg_params {s t : State} {r : Reg} {v : Word} (h : writeReg s r v = .next t) : t.params = s.params := by
  obtain ⟨_, he⟩ | ⟨_, he⟩ | ⟨_, he⟩ | ⟨_, he⟩ | ⟨_, _, he⟩ | ⟨g, _, _, he⟩ | ⟨_, he⟩ := writeReg_cases s r v <;>
    rw [he] at h
  · cases h; simp
  · cases h; simp
  · cases h; simp
  · cases h; simp
  · exact accept_params h
  · cases h; rfl
  · cases h; rfl

theorem hostStep_params {s t : State} (h : hostStep s = .next t) : t.params = s.params := by
  obtain ⟨_, rfl⟩ | ⟨_, _, rfl⟩ | ⟨rest, _, _, _, _, _, hw⟩ | ⟨_, _, _, _, _, _, rfl⟩ | ⟨_, _, rfl⟩ := hostStep_cases h
  · rfl
  · rfl
  · exact (writeReg_params hw).trans rfl
  · simp
  · simp

theorem executeLatched_params {s t : State} (h : executeLatched s = .next t) : t.params = s.params := by
  unfold executeLatched at h
  split at h
  · exact exec_params h
  · cases h; simp

theorem joinStep_params {s t : State} (h : joinStep s = .next t) : t.params = s.params := by
  unfold joinStep at h
  split at h <;> cases h <;> simp

theorem controlStep_params {s t : State} (h : controlStep s = .next t) : t.params = s.params := by
  unfold controlStep at h
  split at h
  · cases h; rfl
  · exact executeLatched_params h
  · exact joinStep_params h

theorem laneStep_params {s t : State} {k : Nat} (he : laneEnabled s k = true) (h : laneStep s k = .next t) :
    t.params = s.params := by
  obtain ⟨l, _, ⟨_, _, rfl⟩ | ⟨_, _, _, rfl⟩ | ⟨_, _, _, rfl⟩ | ⟨_, _, _, _, rfl⟩ | ⟨_, _, _, _, _, rfl⟩⟩ :=
    laneStep_cases he h <;> simp

theorem agentStep_params {s t : State} {a : Agent} (ha : a ∈ enabledAgents s) (h : agentStep (turn s) a = .next t) :
    t.params = s.params := by
  rw [← turn_params s]
  obtain ⟨rfl, _⟩ | ⟨rfl, _⟩ | ⟨rfl, _⟩ | ⟨k, rfl, _, _, he⟩ := mem_enabledAgents ha
  · exact hostStep_params h
  · exact controlStep_params h
  · exact controlStep_params h
  · exact laneStep_params (by simpa using he) h

theorem step_params {s t : State} (h : step s = .next t) : t.params = s.params := by
  obtain ⟨_, rfl⟩ | ⟨a, ha, hs⟩ := step_cases h
  · rfl
  · exact agentStep_params ha hs

/-- `ID` is a constant, and of the state `CAP` reads the parameters only (10_state.md R31, R32). -/
theorem readReg_id_cap_congr {s t : State} (h : t.params = s.params) :
    readReg t .id = readReg s .id ∧ readReg t .cap = readReg s .cap := by
  simp [readReg, h]

/-- Settles O56: each agent's step keeps the parameters, and `ID` and `CAP` read nothing else of the state. -/
theorem stepKeepsParameters : Obligations.StepKeepsParameters := fun _ _ h =>
  ⟨step_params h, readReg_id_cap_congr (step_params h)⟩

end Sys2Proof.Machine
end

section
/-! PROOF. Every step of the machine keeps its invariant, agent by agent (10_state.md R46, R51, R53). -/

namespace Sys2Proof.Machine

theorem controlStep_inv {s t : State} (h : s.Inv) (ht : controlStep s = .next t) : t.Inv := by
  unfold controlStep at ht
  split at ht
  · cases ht; exact h
  · exact executeLatched_inv h ‹_› ht
  · exact joinStep_inv h ‹_› ht

theorem agentStep_inv {s t : State} {a : Agent} (h : s.Inv) (ha : a ∈ enabledAgents s)
    (ht : agentStep (turn s) a = .next t) : t.Inv := by
  have hI := turn_inv h
  obtain ⟨rfl, _⟩ | ⟨rfl, _⟩ | ⟨rfl, _⟩ | ⟨k, rfl, hp, _, he⟩ := mem_enabledAgents ha
  · exact hostStep_inv hI ht
  · exact controlStep_inv hI ht
  · exact controlStep_inv hI ht
  · exact laneStep_inv hI (by simpa using hp) (by simpa using he) ht

/-- Settles O55: a step is one enabled agent's step, and each agent's step keeps the invariant. -/
theorem stepKeepsInvariant : Obligations.StepKeepsInvariant := by
  intro s t h ht
  obtain ⟨_, rfl⟩ | ⟨a, ha, hs⟩ := step_cases ht
  · exact h
  · exact agentStep_inv h ha hs

theorem resetEngine_resetWith (p : Config.Params) : resetEngine (State.resetWith p) = State.resetWith p := rfl

/-- Settles O54: a reset from any canonical memory meets the invariant, and the state after reset is its own reset. -/
theorem resetMeetsInvariant : Obligations.ResetMeetsInvariant := fun p =>
  resetEngine_resetWith p ▸ resetEngine_inv (s := State.resetWith p) rfl

end Sys2Proof.Machine
end

section
/-! PROOF. What a lane's step leaves alone (10_state.md R53; 43_batch.md R264, R267). -/

namespace Sys2Proof.Machine

theorem laneStep_of_not_enabled {s : State} {k : Nat} (h : laneEnabled s k = false) : laneStep s k = .next s := by
  unfold laneEnabled at h
  unfold laneStep
  cases hk : s.lanes[k]? with
  | none => rfl
  | some l => cases hl : l.lstate <;> simp_all

/-- A failure changes the error latch at most, and not one that is set (43_batch.md R267). -/
theorem latchError_frame (s : State) (c : ErrorCode) (a : DWord) (i : Nat) :
    ∃ ev, latchError s c a i = { s with batch := { s.batch with errv := ev } } ∧
      ∀ e, s.batch.errv = some e → ev = some e := by
  unfold latchError
  cases hv : s.batch.errv with
  | none => exact ⟨_, rfl, by simp⟩
  | some e => exact ⟨some e, by simp [← hv], fun _ h => h⟩

/-- Everything an enabled lane's step changes: its lane, `NEXT`, the error latch, and its slot (10_state.md R53). -/
theorem laneStep_changes {s t : State} {k : Nat} (he : laneEnabled s k = true) (ht : laneStep s k = .next t) :
    ∃ l l' next errv m, s.lanes[k]? = some l ∧
      t = { s with batch := { s.batch with next := next, errv := errv }, lanes := s.lanes.set k l', mem := m } ∧
      s.batch.next ≤ next ∧ (∀ e, s.batch.errv = some e → errv = some e) ∧
      ∀ x, ¬ (slotAddr s l.idx ≤ x ∧ x < slotAddr s l.idx + 32) → readByte m x = readByte s.mem x := by
  obtain ⟨l, hk, ⟨_, _, rfl⟩ | ⟨_, _, _, rfl⟩ | ⟨_, _, _, rfl⟩ | ⟨_, _, _, q, rfl⟩ | ⟨_, c, a, q, _, rfl⟩⟩ :=
    laneStep_cases he ht
  · exact ⟨l, _, _, _, _, hk, rfl, Nat.le_refl _, fun _ h => h, fun _ _ => rfl⟩
  · exact ⟨l, _, _, _, _, hk, rfl, Nat.le_succ _, fun _ h => h, fun _ _ => rfl⟩
  · exact ⟨l, _, _, _, _, hk, rfl, Nat.le_succ _, fun _ h => h, fun _ _ => rfl⟩
  · have hout : ∀ x, ¬ (slotAddr s l.idx ≤ x ∧ x < slotAddr s l.idx + 32) →
        readByte (writeBytes s.mem (slotAddr s l.idx) (batchDigest s l.idx)) x = readByte s.mem x := by
      intro x hx
      have h32 : (batchDigest s l.idx).length = 32 := toDigestBytes_length _
      exact readByte_writeBytes_out _ _ _ (by omega)
    generalize writeBytes s.mem (slotAddr s l.idx) (batchDigest s l.idx) = m at hout ⊢
    exact ⟨l, _, _, _, m, hk, rfl, Nat.le_refl _, fun _ h => h, hout⟩
  · obtain ⟨ev, hlatch, hkeep⟩ := latchError_frame s c a l.idx
    rw [hlatch]
    exact ⟨l, _, _, ev, _, hk, rfl, Nat.le_refl _, hkeep, fun _ _ => rfl⟩

/-- Settles O50: a lane that is not enabled changes nothing, and an enabled one what `laneStep_changes` says. -/
theorem lanesArePrivate : Obligations.LanesArePrivate := by
  intro s t k ht
  cases he : laneEnabled s k with
  | false =>
    rw [laneStep_of_not_enabled he] at ht
    cases ht
    simp
  | true =>
    obtain ⟨l, l', next, errv, m, hk, rfl, hnext, hlatch, hmem⟩ := laneStep_changes he ht
    exact ⟨fun k' hne => List.getElem?_set_ne (Ne.symm hne), rfl, rfl, rfl, rfl, rfl, rfl, rfl, rfl, rfl, rfl, rfl, hnext,
      hlatch, fun x hx => hmem x (hx l hk)⟩

end Sys2Proof.Machine
end

section
/-! PROOF. A busy engine keeps its operands until the command completes or a reset abandons it, and one or the other
comes in finite time (10_state.md R46, R51; 70_reset_and_hazards.md R351). -/

namespace Sys2Proof.Machine

/-! ### What one step can do to the operands and to BUSY -/

/-- The latched word and the accept-time copies, then the registers they were copied from (10_state.md R46, R51). -/
def operands (s : State) : ControlUnit × DWord × DWord × DWord × DWord × Word × HashState × Word :=
  (idleCtl s.ctl, s.regs.src, s.regs.dst, s.regs.len, s.regs.prior, s.regs.workers, s.regs.hash, s.regs.cmd)

@[simp] theorem operands_turn (s : State) : operands (turn s) = operands s := by simp [operands]

@[simp] theorem busy_turn (s : State) : busy (turn s) = busy s := by simp [busy]

/-- The engine has gone idle by a completion or by a reset (60_exceptions.md R305; 70_reset_and_hazards.md R340). -/
def Ended (t : State) : Prop := busy t = false ∧ (t.regs.done = true ∨ t.regs = .reset)

/-- The command goes on with its operands, or it has ended. -/
def GoesOnOrEnded (s t : State) : Prop := (busy t = true ∧ operands t = operands s) ∨ Ended t

theorem GoesOnOrEnded.refl {s : State} (hb : busy s = true) : GoesOnOrEnded s s := .inl ⟨hb, rfl⟩

theorem ended_complete (s : State) (e : BitVec 8) : Ended (complete s e) := ⟨rfl, .inl rfl⟩

theorem ended_raise (s : State) (c : ErrorCode) (a : DWord) : Ended (raise s c a) := ⟨rfl, .inl rfl⟩

theorem ended_resetEngine (s : State) : Ended (resetEngine s) := ⟨rfl, .inr rfl⟩

theorem writeCtrl_goesOnOrEnded {s : State} (v : Word) (hb : busy s = true) : GoesOnOrEnded s (writeCtrl s v) := by
  unfold writeCtrl
  split
  · exact .inr (ended_resetEngine _)
  · exact .inl ⟨hb, rfl⟩

theorem writeReg_goesOnOrEnded {s t : State} {r : Reg} {v : Word} (hb : busy s = true)
    (ht : writeReg s r v = .next t) : GoesOnOrEnded s t := by
  obtain ⟨_, he⟩ | ⟨_, he⟩ | ⟨_, he⟩ | ⟨_, he⟩ | ⟨_, hi, _⟩ | ⟨_, _, hi, _⟩ | ⟨_, he⟩ := writeReg_cases s r v
  · rw [he] at ht; cases ht; exact writeCtrl_goesOnOrEnded v hb
  · rw [he] at ht; cases ht; exact .inl ⟨hb, rfl⟩
  · rw [he] at ht; cases ht; exact .inl ⟨hb, rfl⟩
  · rw [he] at ht; cases ht; exact .inl ⟨hb, rfl⟩
  · rw [hb] at hi; cases hi
  · rw [hb] at hi; cases hi
  · rw [he] at ht; cases ht; exact .refl hb

theorem hostStep_goesOnOrEnded {s t : State} (hb : busy s = true) (ht : hostStep s = .next t) : GoesOnOrEnded s t := by
  obtain ⟨_, rfl⟩ | ⟨_, _, rfl⟩ | ⟨rest, _, _, _, _, _, hw⟩ | ⟨_, _, _, _, _, _, rfl⟩ | ⟨_, _, rfl⟩ := hostStep_cases ht
  · exact .refl hb
  · exact .inl ⟨hb, rfl⟩
  · exact writeReg_goesOnOrEnded (s := { s with host := rest }) hb hw
  · exact .inl ⟨hb, rfl⟩
  · exact .inr (ended_resetEngine _)

theorem exec_goesOnOrEnded {i : Instr} {s t : State} (ht : exec i s = .next t) : GoesOnOrEnded s t := by
  by_cases hi : i = .hashBatch
  · subst hi
    have ht : execHashBatch s = .next t := ht
    obtain ⟨_, he⟩ | ⟨_, _, he⟩ | ⟨_, _, he⟩ := execHashBatch_cases s <;> rw [he] at ht <;> cases ht
    · exact .inr (ended_complete _ _)
    · exact .inl ⟨rfl, rfl⟩
  · obtain ⟨p, v, hash, r, he, _⟩ | ⟨c, a, p, he, _⟩ | he := exec_single_cases i hi s <;> rw [he] at ht <;> cases ht
    · exact .inr (ended_complete _ _)
    · exact .inr (ended_raise _ _ _)

theorem joinStep_ended {s t : State} (ht : joinStep s = .next t) : Ended t := by
  unfold joinStep at ht
  split at ht <;> cases ht <;> exact ended_complete _ _

theorem controlStep_goesOnOrEnded {s t : State} (hb : busy s = true) (ht : controlStep s = .next t) :
    GoesOnOrEnded s t := by
  unfold controlStep at ht
  split at ht
  · cases ht; exact .refl hb
  · unfold executeLatched at ht
    split at ht
    · exact exec_goesOnOrEnded ht
    · cases ht; exact .inr (ended_raise _ _ _)
  · exact .inr (joinStep_ended ht)

theorem laneStep_goesOn {s t : State} {k : Nat} (hb : busy s = true) (ht : laneStep s k = .next t) :
    busy t = true ∧ operands t = operands s := by
  obtain ⟨_, hregs, hctl, _⟩ := lanesArePrivate s t k ht
  simp only [busy, operands, hctl, hregs]
  exact ⟨hb, trivial⟩

theorem agentStep_goesOnOrEnded {s t : State} {a : Agent} (hb : busy s = true) (ht : agentStep s a = .next t) :
    GoesOnOrEnded s t := by
  cases a with
  | host => exact hostStep_goesOnOrEnded hb ht
  | control => exact controlStep_goesOnOrEnded hb ht
  | lane k => exact .inl (laneStep_goesOn hb ht)

/-- A step of a busy machine leaves the command going on with its operands, or ends it. -/
theorem step_goesOnOrEnded {s t : State} (hb : busy s = true) (ht : step s = .next t) : GoesOnOrEnded s t := by
  obtain ⟨_, rfl⟩ | ⟨a, _, ha⟩ := step_cases ht
  · exact .refl hb
  · simpa [GoesOnOrEnded] using agentStep_goesOnOrEnded (by simpa using hb) ha

/-- Settles O60: a busy state has not ended, so the step kept the operands. -/
theorem operandsStableWhileBusy : Obligations.OperandsStableWhileBusy := by
  intro s t hs ht hb
  obtain ⟨_, h⟩ | ⟨hi, _⟩ := step_goesOnOrEnded hs ht
  · simpa [operands, idleCtl, and_assoc] using h
  · rw [hb] at hi; cases hi

/-- A command whose step leaves BUSY at 0 has ended. -/
theorem step_ended {s t : State} (hb : busy s = true) (ht : step s = .next t) (hi : busy t = false) : Ended t := by
  obtain ⟨hb', _⟩ | h := step_goesOnOrEnded hb ht
  · rw [hi] at hb'; cases hb'
  · exact h

/-! ### Every enabled step of the engine is taken -/

/-- The engine's step that agent `a` can take stays enabled until it is taken, until a reset by the host, or until the
run leaves the model. -/
def EventuallyTaken (s : State) (a : Agent) : Prop :=
  ∃ k t, runSteps k s = .next t ∧ (∀ j, j ≤ k → ∃ u, runSteps j s = .next u ∧ a ∈ engineAgents u) ∧
    (pickAgent t = some a ∨ (pickAgent t = some .host ∧ ∃ u, step t = .next u ∧ busy u = false) ∨
      outsideModel (step t) = true)

theorem EventuallyTaken.now {s : State} {a : Agent} (ha : a ∈ engineAgents s)
    (h : pickAgent s = some a ∨ (pickAgent s = some .host ∧ ∃ u, step s = .next u ∧ busy u = false) ∨
      outsideModel (step s) = true) : EventuallyTaken s a :=
  ⟨0, s, rfl, fun j hj => ⟨s, by rw [Nat.le_zero.mp hj]; rfl, ha⟩, h⟩

theorem EventuallyTaken.of_step {s t : State} {a : Agent} (ha : a ∈ engineAgents s) (hs : step s = .next t)
    (h : EventuallyTaken t a) : EventuallyTaken s a := by
  obtain ⟨k, u, hk, hstays, hend⟩ := h
  refine ⟨k + 1, u, by rw [runSteps_succ hs, hk], fun j hj => ?_, hend⟩
  cases j with
  | zero => exact ⟨s, rfl, ha⟩
  | succ j => rw [runSteps_succ hs]; exact hstays j (Nat.le_of_succ_le_succ hj)

/-- By induction on the engine's work left and then on the host's turns left, which `step_busy_cases` says a step
lowers. -/
theorem eventuallyTaken {s : State} {a : Agent} (h : s.Inv) (ha : a ∈ engineAgents s) : EventuallyTaken s a := by
  obtain ⟨_, t, hs, hpat, hwork, hag⟩ | hreset | ⟨b, _, hpick, t, hs, hcase⟩ | hout :=
    step_busy_cases h (busy_of_engineAgents ha)
  · exact .of_step ha hs (eventuallyTaken (stepKeepsInvariant s t h hs) (hag ▸ ha))
  · exact .now ha (.inr (.inl hreset))
  · by_cases hab : a = b
    · exact .now ha (.inl (hab ▸ hpick))
    · obtain ⟨honly, _⟩ | ⟨hless, hkeep⟩ := hcase
      · rw [honly] at ha
        exact absurd (List.mem_singleton.mp ha) hab
      · exact .of_step ha hs (eventuallyTaken (stepKeepsInvariant s t h hs) (hkeep a ha hab))
  · exact .now ha (.inr (.inr hout))
termination_by (engineWork s, s.patience)
decreasing_by all_goals simp only [Prod.lex_def]; omega

/-! ### BUSY falls -/

/-- The run ends the command, or leaves the model. -/
def EventuallyEnded (s : State) : Prop :=
  ∃ k, (∃ t, runSteps k s = .next t ∧ Ended t) ∨ outsideModel (runSteps k s) = true

theorem runSteps_one (s : State) : runSteps 1 s = step s := by
  simp only [runSteps]
  split <;> simp [*]

theorem EventuallyEnded.of_step {s t : State} (hs : step s = .next t) (h : EventuallyEnded t) : EventuallyEnded s := by
  obtain ⟨k, hk⟩ := h
  exact ⟨k + 1, by rwa [runSteps_succ hs]⟩

theorem EventuallyEnded.of_ended {s t : State} (hs : step s = .next t) (h : Ended t) : EventuallyEnded s :=
  ⟨1, .inl ⟨t, by rw [runSteps_one, hs], h⟩⟩

/-- By the same induction as `eventuallyTaken`: a step that leaves the engine busy lowers what is left. -/
theorem eventuallyEnded {s : State} (h : s.Inv) (hb : busy s = true) : EventuallyEnded s := by
  have next : ∀ t, step s = .next t → (busy t = true → engineWork t < engineWork s ∨
      engineWork t = engineWork s ∧ t.patience < s.patience) → EventuallyEnded s := by
    intro t hs hlower
    cases hbt : busy t with
    | false => exact .of_ended hs (step_ended hb hs hbt)
    | true =>
      have hless := hlower hbt
      exact .of_step hs (eventuallyEnded (stepKeepsInvariant s t h hs) hbt)
  obtain ⟨_, t, hs, hpat, hwork, _⟩ | ⟨_, t, hs, hidle⟩ | ⟨_, _, _, t, hs, ⟨_, hidle⟩ | ⟨hless, _⟩⟩ | hout :=
    step_busy_cases h hb
  · exact next t hs fun _ => .inr ⟨hwork, hpat⟩
  · exact next t hs fun hbt => by rw [hidle] at hbt; cases hbt
  · exact next t hs fun hbt => by rw [hidle] at hbt; cases hbt
  · exact next t hs fun _ => .inl hless
  · exact ⟨1, .inr (by rwa [runSteps_one])⟩
termination_by (engineWork s, s.patience)
decreasing_by simp only [Prod.lex_def]; omega

/-- Settles O59: what a step of a busy machine can do, and the two inductions on the work and the host's turns left. -/
theorem busyEndsByCompletionOrReset : Obligations.BusyEndsByCompletionOrReset :=
  ⟨fun _ _ hb ht hi => (step_ended hb ht hi).2, fun _ _ => eventuallyTaken, fun _ => eventuallyEnded⟩

end Sys2Proof.Machine
end

section
/-! PROOF. The register window: which register stands at which offset, what each register reads, and what a host write
does (10_state.md R30 to R46). -/

namespace Sys2Proof.Machine

/-! ### Offsets -/

theorem regOffset_aligned_lt (r : Reg) : (regOffset r).toNat % 4 = 0 ∧ (regOffset r).toNat < 0x080 := by
  cases r with
  | state k => revert k; decide
  | _ => decide

theorem eq_regOffset_of_regAt {o : BitVec 12} {r : Reg} (h : regAt o = some r) : o = regOffset r :=
  (beq_iff_eq.mp (List.find?_some (p := fun r => regOffset r == o) h)).symm

/-- The offsets between the registers, and those past `STATE7`, have no register (10_state.md R30). -/
theorem regAt_reserved {o : BitVec 12} (h : o = 0x044#12 ∨ o = 0x058#12 ∨ o = 0x05C#12 ∨ 0x080#12 ≤ o) :
    regAt o = none := by
  obtain rfl | rfl | rfl | h := h
  · decide
  · decide
  · decide
  · cases hr : regAt o with
    | none => rfl
    | some r =>
      have hlt := (regOffset_aligned_lt r).2
      rw [← eq_regOffset_of_regAt hr] at hlt
      exact absurd (BitVec.le_def.mp h) (Nat.not_le.mpr hlt)

/-- Settles O22: the table by evaluation, the rest from what a register found at an offset is. -/
theorem registerMapAndReserved : Obligations.RegisterMapAndReserved := by
  refine ⟨by decide, ?_, ?_, ?_⟩
  · intro o r h
    obtain rfl := eq_regOffset_of_regAt h
    exact ⟨rfl, regOffset_aligned_lt r⟩
  · intro s o r v h
    simp [readOffset, writeOffset, h]
  · intro s o v h
    simp [readOffset, writeOffset, regAt_reserved h]

/-! ### The halves of a pair and the words of a HashState -/

@[simp] theorem hi_append_lo (x : DWord) : hi x ++ lo x = x :=
  (BitVec.extractLsb'_append_extractLsb'_eq_extractLsb' rfl).trans BitVec.extractLsb'_eq_self

@[simp] theorem lo_withLo (x : DWord) (w : Word) : lo (withLo x w) = w := BitVec.extractLsb'_append_eq_right ..

@[simp] theorem hi_withLo (x : DWord) (w : Word) : hi (withLo x w) = hi x := BitVec.extractLsb'_append_eq_left ..

@[simp] theorem lo_withHi (x : DWord) (w : Word) : lo (withHi x w) = lo x := BitVec.extractLsb'_append_eq_right ..

@[simp] theorem hi_withHi (x : DWord) (w : Word) : hi (withHi x w) = w := BitVec.extractLsb'_append_eq_left ..

@[simp] theorem hashWord_setHashWord_same (v : HashState) (k : Fin 8) (w : Word) :
    hashWord (setHashWord v k w) k = w := by
  fin_cases k <;> rfl

theorem hashWord_setHashWord_ne (v : HashState) {k k' : Fin 8} (w : Word) (h : k' ≠ k) :
    hashWord (setHashWord v k w) k' = hashWord v k' := by
  fin_cases k <;> fin_cases k' <;> simp [hashWord, setHashWord] at h ⊢

/-! ### Flags -/

theorem flagAt_zero (b : Bool) : flagAt 0 b = if b then 1#32 else 0#32 := by cases b <;> rfl

theorem flagAt_getLsbD (pos : Nat) (b : Bool) (i : Nat) :
    (flagAt pos b).getLsbD i = (b && decide (i = pos) && decide (i < 32)) := by
  cases b with
  | false => simp [flagAt]
  | true =>
    rw [Bool.eq_iff_iff]
    simp [flagAt, BitVec.getLsbD_shiftLeft]
    omega

/-- `STATUS` bit by bit (10_state.md R35). -/
theorem statusWord_getLsbD (s : State) {i : Nat} (hi : i < 32) :
    (statusWord s).getLsbD i = (busy s && decide (i = 0) || s.regs.err && decide (i = 1) ||
      s.regs.overrun && decide (i = 2) || decide (8 ≤ i) && s.regs.errCode.getLsbD (i - 8)) := by
  simp only [statusWord, BitVec.getLsbD_or, flagAt_getLsbD, BitVec.getLsbD_shiftLeft, BitVec.getLsbD_setWidth]
  grind

theorem statusWord_errCode (s : State) : (statusWord s).extractLsb' 8 8 = s.regs.errCode := by
  refine BitVec.eq_of_getLsbD_eq fun i hi => ?_
  rw [BitVec.getLsbD_extractLsb', statusWord_getLsbD s (by omega)]
  simp [hi, show 8 + i ≠ 1 by omega, show 8 + i ≠ 2 by omega]

theorem statusWord_zero_above (s : State) : (statusWord s).extractLsb' 16 16 = 0#16 := by
  refine BitVec.eq_of_getLsbD_eq fun i hi => ?_
  rw [BitVec.getLsbD_extractLsb', statusWord_getLsbD s (by omega)]
  have : s.regs.errCode.getLsbD (16 + i - 8) = false := BitVec.getLsbD_of_ge _ _ (by omega)
  simp [this, show 16 + i ≠ 1 by omega, show 16 + i ≠ 2 by omega]

theorem statusWord_zero_between (s : State) : (statusWord s).extractLsb' 3 5 = 0#5 := by
  refine BitVec.eq_of_getLsbD_eq fun i hi => ?_
  rw [BitVec.getLsbD_extractLsb', statusWord_getLsbD s (by omega)]
  simp [show ¬ 8 ≤ 3 + i by omega, show 3 + i ≠ 1 by omega, show 3 + i ≠ 2 by omega]

theorem busy_eq_decide (s : State) : busy s = decide (s.ctl.phase ≠ .idle) := by
  unfold busy
  cases s.ctl.phase <;> rfl

theorem nLanes_bounds (p : Config.Params) : 1 ≤ nLanes p ∧ nLanes p ≤ 255 := ⟨Nat.le_add_left .., p.lanesMinusOne.isLt⟩

theorem readReg_cap_toNat (s : State) : (readReg s .cap).toNat = nLanes s.params :=
  Nat.mod_eq_of_lt (Nat.lt_of_le_of_lt (nLanes_bounds s.params).2 (by decide))

/-- Settles O23: `STATUS` from its bits, the pairs from their halves, and the other registers by what a read of them
is. -/
theorem statusRegistersRead : Obligations.StatusRegistersRead := by
  intro s
  refine ⟨rfl, readReg_cap_toNat s, (nLanes_bounds s.params).1, (nLanes_bounds s.params).2, flagAt_zero _, flagAt_zero _,
    statusWord_errCode s, statusWord_zero_above s, statusWord_zero_between s, ?_, ?_, ?_, rfl, rfl, hi_append_lo _,
    hi_append_lo _, hi_append_lo _, hi_append_lo _, hi_append_lo _, hi_append_lo _, hi_append_lo _, rfl⟩
  · rw [← busy_eq_decide]; exact (statusWord_getLsbD s (by decide)).trans (by simp)
  · exact (statusWord_getLsbD s (by decide)).trans (by simp)
  · exact (statusWord_getLsbD s (by decide)).trans (by simp)

/-! ### Host writes -/

/-- The argument registers are those a write that is not ignored changes (10_state.md R46). -/
theorem writeArg_eq_some {r : Reg}
    (hr : r ∈ [Reg.srcLo, .srcHi, .dstLo, .dstHi, .lenLo, .lenHi, .priorLo, .priorHi, .workers] ∨ ∃ k, r = .state k)
    (g : RegFile) (v : Word) : ∃ g', writeArg g v r = some g' := by
  obtain hr | ⟨k, rfl⟩ := hr
  · fin_cases hr <;> exact ⟨_, rfl⟩
  · exact ⟨_, rfl⟩

/-- A write of an argument register does not show in any other kind of register (10_state.md R46). -/
theorem readReg_writeArg_of_none {s : State} {v : Word} {r r' : Reg} {g : RegFile} (h : writeArg s.regs v r = some g)
    (h' : writeArg s.regs v r' = none) : readReg { s with regs := g } r' = readReg s r' := by
  obtain ⟨hirq, hcmd, herr, hcode, hover, hdone, hres, hfa, hfi⟩ := writeArg_frame h
  cases r' with
  | id => rfl
  | cap => rfl
  | ctrl => simp [readReg, ctrlWord, hirq]
  | cmd => exact hcmd
  | status => simp [readReg, statusWord, busy, herr, hover, hcode]
  | irqStatus => simp [readReg, irqStatusWord, hdone]
  | resultLo => exact congrArg lo hres
  | resultHi => exact congrArg hi hres
  | faultAddrLo => exact congrArg lo hfa
  | faultAddrHi => exact congrArg hi hfa
  | faultIndexLo => exact congrArg lo hfi
  | faultIndexHi => exact congrArg hi hfi
  | _ => cases h'

/-- A write of an argument register that is not ignored: that register reads the value, the others what they read
before (10_state.md R38 to R42, R45). -/
theorem readReg_writeArg {s : State} {v : Word} {r : Reg} {g : RegFile} (h : writeArg s.regs v r = some g) (r' : Reg) :
    readReg { s with regs := g } r' = if r' = r then v else readReg s r' := by
  cases h' : writeArg s.regs v r' with
  | none =>
    have hne : r' ≠ r := by rintro rfl; rw [h] at h'; cases h'
    rw [if_neg hne, readReg_writeArg_of_none h h']
  | some g' =>
    cases r with
    | state k =>
      cases h
      cases r' with
      | state k' =>
        by_cases hk : k' = k
        · simp [readReg, hk]
        · simp [readReg, hk, hashWord_setHashWord_ne]
      | _ => cases h' <;> simp [readReg]
    | _ =>
      -- Two halves of pairs, or WORKERS: another field, or the other half of the same one.
      cases h <;> cases r' <;> cases h' <;> simp [readReg]

theorem writeReg_of_writeArg {s : State} {r : Reg} {v : Word} {g : RegFile} (h : writeArg s.regs v r = some g) :
    writeReg s r v = if busy s then .next (setOverrun s) else .next { s with regs := g } := by
  cases r <;> cases h <;> rfl

/-- Settles O24: an idle engine takes the write, and what each register then reads is `readReg_writeArg`. -/
theorem argumentRegistersHoldWrites : Obligations.ArgumentRegistersHoldWrites := by
  intro s r v hb hr
  obtain ⟨g, hg⟩ := writeArg_eq_some hr s.regs v
  refine ⟨{ s with regs := g }, by simp [writeReg_of_writeArg hg, hb], rfl, ?_, fun r' hne => ?_⟩
  · rw [readReg_writeArg hg, if_pos rfl]
  · rw [readReg_writeArg hg, if_neg hne]

/-- Settles O25: `CMD` and the argument registers are the two kinds of register that look at BUSY. -/
theorem writesWhileBusyAreIgnored : Obligations.WritesWhileBusyAreIgnored := by
  intro s r v hb hr
  by_cases hc : r = .cmd
  · subst hc; simp [writeReg, hb, setOverrun]
  · obtain ⟨g, hg⟩ := writeArg_eq_some (hr.imp_left fun h => (List.mem_cons.mp h).resolve_left hc) s.regs v
    simp [writeReg_of_writeArg hg, hb, setOverrun]

theorem and_not_eq_if (a b : Bool) : (a && !b) = if b then false else a := by cases b <;> simp

/-- Settles O26: the registers of the table that are not for operands or for `CMD`. -/
theorem controlAndStatusWrites : Obligations.ControlAndStatusWrites := by
  intro s v
  refine ⟨fun r hr => ?_, ?_, ?_, fun h => ?_⟩
  · fin_cases hr <;> rfl
  · simp [writeReg, writeStatus, and_not_eq_if]
  · simp [writeReg, writeIrqStatus, and_not_eq_if]
  · simp only [writeReg, writeCtrl, h, Bool.false_eq_true, if_false, writeIrqEn]

/-! ### Reset -/

@[simp] theorem hashWord_zeroHash (k : Fin 8) : hashWord zeroHash k = 0#32 := by fin_cases k <;> rfl

theorem readReg_resetWith (p : Config.Params) (r : Reg) : readReg (State.resetWith p) r =
    if r = .id then 0x00534D33#32 else if r = .cap then BitVec.ofNat 32 (nLanes p) else 0#32 := by
  cases r with
  | state k => exact hashWord_zeroHash k
  | _ => simp [readReg, ctrlWord, statusWord, irqStatusWord, busy, flagAt, lo, hi, State.resetWith, RegFile.reset,
      ControlUnit.reset]

theorem regAt_regOffset (r : Reg) : regAt (regOffset r) = some r := by
  cases r with
  | state k => revert k; decide
  | _ => decide

theorem regAt_eq_some_iff {o : BitVec 12} {r : Reg} : regAt o = some r ↔ o = regOffset r :=
  ⟨eq_regOffset_of_regAt, fun h => h ▸ regAt_regOffset r⟩

theorem regOffset_inj {r r' : Reg} : regOffset r = regOffset r' ↔ r = r' := by
  rw [← regAt_eq_some_iff, regAt_regOffset, Option.some_inj]

/-- Settles O31: what is read at an offset is what its register reads after reset. -/
theorem resetLeavesZeros : Obligations.ResetLeavesZeros := by
  intro p
  refine ⟨fun o => ?_, rfl, rfl, by simp [State.resetWith, nLanes], fun l hl => by rw [List.eq_of_mem_replicate hl]; rfl⟩
  change _ = if o = regOffset .id then _ else if o = regOffset .cap then _ else _
  unfold readOffset
  cases h : regAt o with
  | none =>
    rw [if_neg, if_neg]
    · intro hc; rw [hc, regAt_regOffset] at h; cases h
    · intro hc; rw [hc, regAt_regOffset] at h; cases h
  | some r =>
    obtain rfl := eq_regOffset_of_regAt h
    simp only [regOffset_inj]
    exact readReg_resetWith p r

end Sys2Proof.Machine
end

section
/-! PROOF. What the engine's memory requests move, and which reads are refused (20_memory.md R80, R85, R88). -/

namespace Sys2Proof.Machine

open Sys2Proof.Config

/-! ### Requests -/

theorem admitted_eq_true_iff (p : Params) (kind : RequestKind) (a n : Nat) :
    admitted p kind a n = true ↔ a + n ≤ addressSpace ∧ admits p kind a n = true := by
  simp only [admitted, Bool.and_eq_true, decide_eq_true_eq]

theorem admitted_eq_false_iff (p : Params) (kind : RequestKind) (a n : Nat) :
    admitted p kind a n = false ↔ addressSpace < a + n ∨ admits p kind a n = false := by
  rw [← Bool.not_eq_true, admitted_eq_true_iff, not_and_or, Nat.not_le, Bool.not_eq_true]

/-- `FAULT_ADDR` holds an address that fits (10_state.md R43). -/
theorem faultAddrOf_of_lt (tick : Nat) {a : Nat} (h : a < addressSpace) : faultAddrOf tick a = BitVec.ofNat 64 a :=
  if_pos h

/-- A byte of a written byte string reads as it was written. -/
theorem readByte_writeBytes_in {m : Memory} {a : Nat} {v : List Byte} (hm : m.wf = true)
    (h : a + v.length ≤ addressSpace) {i : Nat} (hi : i < v.length) :
    readByte (writeBytes m a v) (a + i) = v.getD i 0#8 := by
  rw [← readBytes_getD _ a v.length i hi 0#8, readBytes_writeBytes_eq hm h]

/-- Settles O36: what an admitted request moves is what `readBytes` and `writeBytes` do; the others move nothing. -/
theorem requestsMoveTheirBytes : Obligations.RequestsMoveTheirBytes := by
  intro s a n v
  refine ⟨fun hspace hadm hplain => ?_, fun hwf hspace hadm => ?_, fun h => ?_, fun h => ?_⟩
  · have hr : readable s a n = true := by
      simp [readable, (admitted_eq_true_iff ..).mpr ⟨hspace, hadm⟩, hplain]
    exact ⟨_, memRead_readable hr, readBytes_length .., fun i hi => readBytes_getD _ _ _ _ hi _⟩
  · exact ⟨_, memWrite_writable ((admitted_eq_true_iff ..).mpr ⟨hspace, hadm⟩),
      fun i hi => readByte_writeBytes_in hwf hspace hi, fun x hx => readByte_writeBytes_out _ _ _ (by omega)⟩
  · exact ⟨_, memRead_notAdmitted ((admitted_eq_false_iff ..).mpr h), faultAddrOf_of_lt _⟩
  · exact ⟨_, memWrite_notWritable ((admitted_eq_false_iff ..).mpr h), faultAddrOf_of_lt _⟩

/-! ### Memory with read side effects -/

theorem memRead_hasSideEffects {s : State} {a n : Nat} (h : hasSideEffects s a n = true) :
    memRead s a n = .error (.refuse .notPlainMemory) := by
  simp only [hasSideEffects, Bool.and_eq_true, Bool.not_eq_true'] at h
  simp [memRead, h]

theorem readTail_hasSideEffects {s : State} {src len : Nat} (hr : 0 < rem len)
    (h : hasSideEffects s (src + 64 * (len / 64)) (rem len) = true) :
    readTail s src len = .error (.refuse .notPlainMemory) :=
  readTail_stops s src len _ hr (memRead_hasSideEffects h)

/-- Of the reads that hashing the `len` bytes at `src` makes, the first that is not answered with bytes is an admitted
one of memory that is not plain: a block, or the tail after all of them (20_memory.md R86, R88). -/
def MessageHasSideEffects (s : State) (src len : Nat) : Prop :=
  (∃ b, b < len / 64 ∧ (∀ j, j < b → readable s (src + 64 * j) 64 = true) ∧
    hasSideEffects s (src + 64 * b) 64 = true) ∨
  (0 < rem len ∧ (∀ j, j < len / 64 → readable s (src + 64 * j) 64 = true) ∧
    hasSideEffects s (src + 64 * (len / 64)) (rem len) = true)

theorem hashMessage_refused {s : State} {src len : Nat} (h : MessageHasSideEffects s src len) (p : Path)
    (v0 : HashState) (prior : Nat) :
    ∃ q, hashMessage s p v0 src len prior = .error { path := q, stop := .refuse .notPlainMemory } := by
  obtain ⟨b, hb, hread, he⟩ | ⟨hr, hread, he⟩ := h
  · obtain ⟨q, hq, _⟩ := hashMessage_blockStops s p v0 src len prior b _ hb hread (memRead_hasSideEffects he)
    exact ⟨q, hq⟩
  · obtain ⟨q, hq, _⟩ := hashMessage_tailStops s p v0 src len prior _ hread hr (memRead_hasSideEffects he)
    exact ⟨q, hq⟩

theorem hashInto_refused {s : State} (h : MessageHasSideEffects s (srcOp s) (lenOp s)) (v0 : HashState) {prior : Nat}
    (hlen : prior + lenOp s < lengthBound) : settle s (hashInto s v0 prior) = .refused .notPlainMemory := by
  obtain ⟨q, hq⟩ := hashMessage_refused h s.path v0 prior
  simp [hashInto, checkLength_ok hlen, hq]

/-- HASH is the hash sequence with continuation offset 0, HASH_CONTINUE the one with the given offset. -/
theorem exec_hash_hashContinue_refused {s : State} (h : MessageHasSideEffects s (srcOp s) (lenOp s)) :
    (lenOp s < lengthBound → exec .hash s = .refused .notPlainMemory) ∧
      (priorOp s + lenOp s < lengthBound → exec .hashContinue s = .refused .notPlainMemory) :=
  ⟨fun hlen => hashInto_refused h iv (by rwa [Nat.zero_add]), hashInto_refused h s.ctl.stateIn⟩

theorem exec_pad_refused {s : State} (hr : 0 < rem (lenOp s))
    (h : hasSideEffects s (srcOp s + 64 * (lenOp s / 64)) (rem (lenOp s)) = true)
    (hlen : priorOp s + lenOp s < lengthBound) : exec .pad s = .refused .notPlainMemory := by
  simp [exec, execPad, checkLength_ok hlen, readTail_hasSideEffects hr h]

theorem laneStep_of_work {s : State} {k : Nat} {l : Lane} (hk : s.lanes[k]? = some l) (hl : l.lstate = .work) :
    laneStep s k = laneWork s k l := by
  simp [laneStep, hk, hl]

theorem laneWork_refused {s : State} {k : Nat} {l : Lane}
    (h : hasSideEffects s (descriptorAddr s l.idx) 16 = true ∨
      (readable s (descriptorAddr s l.idx) 16 = true ∧ descriptorMsgLen (descriptorBytes s l.idx) < lengthBound ∧
        MessageHasSideEffects s (descriptorMsgAddr (descriptorBytes s l.idx))
          (descriptorMsgLen (descriptorBytes s l.idx)))) :
    laneWork s k l = .refused .notPlainMemory := by
  obtain he | ⟨hread, hlen, hmsg⟩ := h
  · simp [laneWork, messageWork, memRead_hasSideEffects he]
  · obtain ⟨q, hq⟩ := hashMessage_refused hmsg l.path iv 0
    unfold descriptorBytes at hlen hq
    simp [laneWork, messageWork, memRead_readable hread, checkLength_ok hlen, hq]

/-- Settles O19: each command's own read is its first request, and a message's is `MessageHasSideEffects`. -/
theorem readOfSideEffectsIsRefused : Obligations.ReadOfSideEffectsIsRefused := by
  refine ⟨fun s => ⟨fun h => ?_, fun h => ?_, fun k hk hread h => ?_, fun hr h => ⟨?_, fun hread => ?_⟩⟩,
    fun s k l hk hl h => ?_⟩
  · simp [exec, execCompress, execExpand, memRead_hasSideEffects h]
  · simp [exec, execFromDigest, memRead_hasSideEffects h]
  · exact exec_hash_hashContinue_refused (.inl ⟨k, hk, hread, h⟩)
  · exact exec_pad_refused hr h
  · exact exec_hash_hashContinue_refused (.inr ⟨hr, hread, h⟩)
  · rw [laneStep_of_work hk hl, laneWork_refused h]

end Sys2Proof.Machine
end

section
/-! PROOF. What the commands and the engine's steps leave unchanged, of host memory and of the rest (20_memory.md R86,
R87, R89; 10_state.md R37, R45). -/

namespace Sys2Proof.Machine

/-! ### What a command leaves unchanged -/

/-- Everything a single-message command that answers a next state changes: the datapath, memory in its destination
region, the phase, the completion's registers and `FAULT_ADDR`, and `STATE` and `RESULT` where the command writes them
(20_memory.md R86; 10_state.md R37, R45). -/
theorem exec_single_changes {i : Instr} {s t : State} (hi : i ≠ .hashBatch) (ht : exec i s = .next t) :
    ∃ p m h r err code a,
      t = { s with
        path := p
        mem  := m
        ctl  := idleCtl s.ctl
        regs := { s.regs with hash := h, result := r, err := err, errCode := code, done := true, faultAddr := a } } ∧
      (∀ x, ¬ ((destRegion s i).lo ≤ x ∧ x < (destRegion s i).lo + (destRegion s i).len) →
        readByte m x = readByte s.mem x) ∧
      (i ∈ [Instr.expand, .pad, .toDigest] → h = s.regs.hash) ∧
      (i ∈ [Instr.init, .compress, .expand, .toDigest, .fromDigest] → r = s.regs.result) := by
  obtain ⟨p, v, h, r, he, hlen, _, hh, hr⟩ | ⟨c, a, p, he, _⟩ | he := exec_single_cases i hi s <;> rw [he] at ht <;>
    cases ht
  · exact ⟨p, _, h, r, _, _, _, rfl, fun x hx => readByte_writeBytes_out _ _ _ (by omega), hh, hr⟩
  · exact ⟨p, _, _, _, _, _, a, rfl, fun _ _ => rfl, fun _ => rfl, fun _ => rfl⟩

theorem destRegion_of_storing (s : State) {i : Instr}
    (hi : i ∈ [Instr.expand, .pad, .toDigest, .hash, .hashContinue]) :
    destRegion s i =
      { lo := dstOp s, len := if i = .expand then 528 else if i = .pad then 64 * count (lenOp s) else 32 } := by
  fin_cases hi <;> rfl

theorem destRegion_of_nonStoring (s : State) {i : Instr} (hi : i ∈ [Instr.init, .compress, .fromDigest]) :
    destRegion s i = { lo := 0, len := 0 } := by
  fin_cases hi <;> rfl

/-- Settles O20: `exec_single_changes`, with the destination region written out. -/
theorem storingCommandsFrame : Obligations.StoringCommandsFrame := by
  intro i s t hi ht
  have hne : i ≠ .hashBatch := by rintro rfl; simp at hi
  obtain ⟨p, m, h, r, err, code, a, rfl, hmem, hhash, hres⟩ := exec_single_changes hne ht
  rw [destRegion_of_storing s hi] at hmem
  refine ⟨hmem, hhash, fun hi' => hres ?_, ?_⟩
  · fin_cases hi' <;> simp
  · simp

/-- Settles O21: the single-message commands by `exec_single_changes` with an empty region, HASH_BATCH by what its start
can do. -/
theorem nonStoringCommandsFrame : Obligations.NonStoringCommandsFrame := by
  intro i s t hi ht
  by_cases hb : i = .hashBatch
  · subst hb
    have ht : execHashBatch s = .next t := ht
    obtain ⟨_, he⟩ | ⟨_, _, he⟩ | ⟨_, _, he⟩ := execHashBatch_cases s <;> rw [he] at ht <;> cases ht
    · simp
    · simp
  · obtain ⟨p, m, h, r, err, code, a, rfl, hmem, _, hres⟩ := exec_single_changes hb ht
    have hi : i ∈ [Instr.init, .compress, .fromDigest] := by simpa [hb] using hi
    rw [destRegion_of_nonStoring s hi] at hmem
    have hr : r = s.regs.result := hres (by fin_cases hi <;> simp)
    exact ⟨fun x => hmem x (by simp), fun h => absurd h hb, fun _ => ⟨hr, rfl, rfl⟩, by simp⟩

/-! ### The steps of the engine -/

@[simp] theorem destRegion_turn (s : State) (i : Instr) : destRegion (turn s) i = destRegion s i := by
  cases i <;> simp [destRegion, arrayRegion]

theorem running_eq_some {s : State} {i : Instr} (hp : s.ctl.phase ≠ .idle) (hd : decode s.ctl.word = .command i) :
    running s = some i := by
  simp [running, busy, hp, hd, Decoded.instr?]

theorem joinStep_mem {s t : State} (h : joinStep s = .next t) : t.mem = s.mem := by
  unfold joinStep at h
  split at h <;> cases h <;> simp

/-- A lane writes memory in its work step only, and then its slot (43_batch.md R264). -/
theorem laneStep_mem {s t : State} {k x : Nat} (he : laneEnabled s k = true) (ht : laneStep s k = .next t)
    (hx : ∀ l, s.lanes[k]? = some l → l.lstate = .work → ¬ (slotAddr s l.idx ≤ x ∧ x < slotAddr s l.idx + 32)) :
    readByte t.mem x = readByte s.mem x := by
  by_cases hw : ∃ l, s.lanes[k]? = some l ∧ l.lstate = .work
  · obtain ⟨l, hk, hl⟩ := hw
    obtain ⟨l', _, _, _, m, hk', rfl, _, _, hmem⟩ := laneStep_changes he ht
    obtain rfl : l = l' := Option.some.inj (hk.symm.trans hk')
    exact hmem x (hx l hk hl)
  · obtain ⟨l, hk, ⟨_, _, rfl⟩ | ⟨_, _, _, rfl⟩ | ⟨_, _, _, rfl⟩ | ⟨hl, _⟩ | ⟨hl, _⟩⟩ := laneStep_cases he ht
    · rfl
    · rfl
    · rfl
    · exact absurd ⟨l, hk, hl⟩ hw
    · exact absurd ⟨l, hk, hl⟩ hw

/-- The slot of an index of the batch lies in the digest array (43_batch.md R265). -/
theorem slot_in_arrayRegion {s : State} {i x : Nat} (hi : i < lenOp s) (hx : slotAddr s i ≤ x ∧ x < slotAddr s i + 32) :
    (arrayRegion s).lo ≤ x ∧ x < (arrayRegion s).lo + (arrayRegion s).len := by
  simp only [slotAddr, arrayRegion] at hx ⊢
  omega

/-- Settles O58: a single-message command by `exec_single_changes`; the join writes no memory; a working lane's slot
lies in the digest array, since its index is one of the batch. -/
theorem engineWritesDestinationOnly : Obligations.EngineWritesDestinationOnly := by
  intro s t a x hinv ha hhost ht hx
  rw [← turn_mem s]
  obtain ⟨rfl, _⟩ | ⟨rfl, hp⟩ | ⟨rfl, hp, _⟩ | ⟨k, rfl, hp, _, he⟩ := mem_enabledAgents ha
  · exact absurd rfl hhost
  · obtain ⟨i, hd, hi⟩ := hinv.singleWord hp
    have ht : exec i (turn s) = .next t := by simpa [agentStep, controlStep, executeLatched, hp, hd] using ht
    obtain ⟨p, m, h, r, err, code, a, rfl, hmem, _⟩ := exec_single_changes hi ht
    exact hmem x (by simpa using hx i (running_eq_some (by simp [hp]) hd))
  · have ht : joinStep (turn s) = .next t := by simpa [agentStep, controlStep, hp] using ht
    rw [joinStep_mem ht]
  · have hB := (turn_inv hinv).batchOk (by simpa using hp)
    refine laneStep_mem (by simpa using he) ht fun l hk hl hslot => ?_
    have hidx : l.idx < lenOp (turn s) := hB.count ▸ (hB.inWork k l hk hl).2
    have hout := hx .hashBatch (running_eq_some (by simp [hp]) (by simpa using hB.word))
    rw [← destRegion_turn] at hout
    exact hout (slot_in_arrayRegion hidx hslot)

end Sys2Proof.Machine
end

section
/-! PROOF. The decoder and the encoder: which words are commands, and whose (30_encoding.md R110, R111, R114). -/

namespace Sys2Proof

/-! ### The opcode map -/

theorem opcodeMap_rows : ∀ row ∈ opcodeMap, row.1 = opcodeOf row.2 := by decide

theorem commandOfOpcode_opcodeOf (i : Instr) : commandOfOpcode (opcodeOf i) = some i := by cases i <;> rfl

theorem commandOfOpcode_eq_some_iff {op : BitVec 8} {i : Instr} : commandOfOpcode op = some i ↔ op = opcodeOf i := by
  refine ⟨fun h => ?_, fun h => h ▸ commandOfOpcode_opcodeOf i⟩
  obtain ⟨row, hrow, rfl⟩ := Option.map_eq_some_iff.mp h
  have hop : row.1 = op := by simpa using List.find?_some hrow
  rw [← hop, opcodeMap_rows row (List.mem_of_find?_eq_some hrow)]

/-- The map lists 0x01 to 0x09, so an opcode it does not list lies below or above (30_encoding.md R111). -/
theorem commandOfOpcode_eq_none_iff {op : BitVec 8} : commandOfOpcode op = none ↔ op = 0x00#8 ∨ 0x0A#8 ≤ op := by
  simp only [commandOfOpcode, opcodeMap, Option.map_eq_none_iff, List.find?_eq_none, List.forall_mem_cons, beq_iff_eq,
    List.not_mem_nil, false_imp_iff, implies_true, and_true]
  bv_omega

/-! ### The two fields of a word -/

theorem eq_append_iff {w : Word} {r : BitVec 24} {b : BitVec 8} :
    w = r ++ b ↔ w.extractLsb' 8 24 = r ∧ w.extractLsb' 0 8 = b := by
  constructor
  · rintro rfl
    exact ⟨BitVec.extractLsb'_append_eq_left .., BitVec.extractLsb'_append_eq_right ..⟩
  · rintro ⟨rfl, rfl⟩
    symm
    exact (BitVec.extractLsb'_append_extractLsb'_eq_extractLsb' rfl).trans BitVec.extractLsb'_eq_self

/-! ### The decoder -/

theorem decode_of_reservedClear {w : Word} (h : w.extractLsb' 8 24 = 0#24) :
    decode w = (commandOfOpcode (w.extractLsb' 0 8)).elim (.illegal .reservedOpcode) .command := by
  simp only [decode, splitWord, h, if_true]
  cases commandOfOpcode (w.extractLsb' 0 8) <;> rfl

theorem decode_of_reservedSet {w : Word} (h : w.extractLsb' 8 24 ≠ 0#24) : decode w = .illegal .reservedBits := if_neg h

theorem decode_eq_command_iff {w : Word} {i : Instr} : decode w = .command i ↔ w = encode i := by
  rw [encode, eq_append_iff]
  by_cases h : w.extractLsb' 8 24 = 0#24
  · rw [decode_of_reservedClear h, ← commandOfOpcode_eq_some_iff]
    cases commandOfOpcode (w.extractLsb' 0 8) <;> simp [h]
  · simp [decode_of_reservedSet h, h]

@[simp] theorem decode_encode (i : Instr) : decode (encode i) = .command i := decode_eq_command_iff.mpr rfl

/-- A word is illegal by its reserved bits or by its opcode (30_encoding.md R114). -/
theorem decode_illegal_iff {w : Word} : (∃ why, decode w = .illegal why) ↔
    w.extractLsb' 8 24 ≠ 0#24 ∨ w.extractLsb' 0 8 = 0x00#8 ∨ 0x0A#8 ≤ w.extractLsb' 0 8 := by
  by_cases h : w.extractLsb' 8 24 = 0#24
  · rw [decode_of_reservedClear h, ← commandOfOpcode_eq_none_iff]
    cases commandOfOpcode (w.extractLsb' 0 8) <;> simp [h]
  · simp [decode_of_reservedSet h, h]

theorem decode_command_iff_not_illegal {w : Word} :
    (∃ i, decode w = .command i) ↔ ¬ ∃ why, decode w = .illegal why := by
  cases decode w <;> simp

@[simp] theorem decodeTableWord_encode (i : Instr) : decodeTableWord 32 (encode i).toNat = some i := by
  simp [decodeTableWord, (encode i).isLt, Decoded.instr?]

/-- Settles O1: decoding to a command is being its encoding, and the opcodes outside 0x01..0x09 are the illegal ones. -/
theorem commandWordsAreTheNine : Obligations.CommandWordsAreTheNine := by
  refine ⟨by decide, fun _ _ => decode_eq_command_iff, fun i => ⟨rfl, decodeTableWord_encode i⟩, fun w => ?_,
    fun _ => decode_illegal_iff⟩
  rw [decode_command_iff_not_illegal, decode_illegal_iff]
  bv_omega

/-- Settles O2: ten closed words, evaluated. -/
theorem writtenOutWordsDecode : Obligations.WrittenOutWordsDecode := by
  unfold Obligations.WrittenOutWordsDecode
  decide

end Sys2Proof
end

section
/-! PROOF. How a command word reaches its execution: the host's write of `CMD`, accept, and the step that executes the
command (30_encoding.md R113, R114; 42_engine_commands.md, conventions). -/

namespace Sys2Proof.Machine

open Sys2Proof.Config

/-! ### Accept -/

theorem busy_eq_false_iff {s : State} : busy s = false ↔ s.ctl.phase = .idle := by simp [busy]

theorem writeReg_cmd_of_idle {s : State} (h : s.ctl.phase = .idle) (c : Word) : writeReg s .cmd c = accept s c := by
  simp [writeReg, busy_eq_false_iff.mpr h]

theorem accept_illegal {c : Word} {why : DecodeReject} (h : decode c = .illegal why) (s : State) :
    accept s c = .next (raise (latchCommand s c) .illegalCmd 0#64) := by
  simp [accept, h]

theorem accept_hashBatch {c : Word} (h : decode c = .command .hashBatch) (s : State) :
    accept s c = exec .hashBatch (latchCommand s c) := by
  simp [accept, h]

theorem accept_single {c : Word} {i : Instr} (h : decode c = .command i) (hi : i ≠ .hashBatch) (s : State) :
    accept s c = .next (setPhase (latchCommand s c) .single) := by
  cases i with
  | hashBatch => exact absurd rfl hi
  | _ => simp [accept, h]

/-- Settles O27: the two kinds of command in accept; what `latchCommand` leaves is the state written out. -/
theorem acceptLatchesCommand : Obligations.AcceptLatchesCommand := by
  intro s c i hb hd
  have hp := busy_eq_false_iff.mp hb
  rw [writeReg_cmd_of_idle hp]
  constructor
  · intro hi
    rw [accept_single hd hi]
    rfl
  · rintro rfl
    rw [accept_hashBatch hd, ← hp]
    rfl

/-- Settles O28: such a word decodes to none of the nine, and accept completes it on the state it latched. -/
theorem illegalWordCompletes : Obligations.IllegalWordCompletes := by
  intro s c hb hc
  obtain ⟨why, hd⟩ := decode_illegal_iff.mpr hc
  rw [writeReg_cmd_of_idle (busy_eq_false_iff.mp hb), accept_illegal hd]
  rfl

/-! ### The only agent that can move -/

theorem engineAgents_of_idle {s : State} (h : s.ctl.phase = .idle) : engineAgents s = [] := by simp [engineAgents, h]

theorem engineAgents_of_single {s : State} (h : s.ctl.phase = .single) : engineAgents s = [.control] := by
  simp [engineAgents, h]

theorem enabledAgents_of_idle {s : State} (h : s.ctl.phase = .idle) (hh : s.host ≠ []) : enabledAgents s = [.host] := by
  simp [enabledAgents, hostAgents, engineWaits, engineAgents_of_idle h, hh]

/-- An accepted single-message command, and a host that cannot move before it: it has nothing to do or no turns left. -/
theorem enabledAgents_of_single {s : State} (h : s.ctl.phase = .single) (hh : s.host = [] ∨ s.patience = 0) :
    enabledAgents s = [.control] := by
  obtain hh | hh := hh <;> simp [enabledAgents, hostAgents, engineWaits, engineAgents_of_single h, hh]

theorem pickAgent_of_enabledAgents {s : State} {a : Agent} (h : enabledAgents s = [a]) : pickAgent s = some a := by
  simp [pickAgent, h]

/-- No choice is made, and the host's turns are drawn anew, since this is no turn of a host that an engine's step waits
for (70_reset_and_hazards.md R351). -/
theorem turn_of_enabledAgents {s : State} {a : Agent} (h : enabledAgents s = [a])
    (ha : engineAgents s = [] ∨ a ≠ .host) :
    turn s = { s with tick := s.tick + 1, patience := freePatience s.tick } := by
  have hn : nextPatience s = freePatience s.tick := by
    obtain ha | ha := ha <;> simp [nextPatience, engineWaits, pickAgent_of_enabledAgents h, ha]
  simp [turn, h, hn]

/-! ### The step that executes a command -/

theorem step_of_pickAgent {s : State} {a : Agent} (h : pickAgent s = some a) : step s = agentStep (turn s) a := by
  simp [step, h]

/-- The control unit's step executes the latched word of a single-message command (42_engine_commands.md,
conventions). -/
theorem step_single {s : State} {i : Instr} (hp : s.ctl.phase = .single) (hd : decode s.ctl.word = .command i)
    (h : pickAgent s = some .control) : step s = exec i (turn s) := by
  simp [step_of_pickAgent h, agentStep, controlStep, executeLatched, hp, hd]

/-- The host's write of `CMD` of an idle engine is accept, in the same step (30_encoding.md R113). -/
theorem step_cmdWrite {s : State} {c : Word} {rest : List HostAction} (hp : s.ctl.phase = .idle)
    (hh : s.host = .wr (regOffset .cmd) c :: rest) : step s = accept { turn s with host := rest } c := by
  have ha : enabledAgents s = [.host] := enabledAgents_of_idle hp (by simp [hh])
  have hal : aligned (regOffset .cmd) = true := decide_eq_true (regOffset_aligned_lt .cmd).1
  rw [step_of_pickAgent (pickAgent_of_enabledAgents ha), ← writeReg_cmd_of_idle (by simpa using hp)]
  simp [agentStep, hostStep, hh, hostDo, hostWrite, hal, writeOffset, regAt_regOffset]

/-- Settles O3: the control unit's step, the host's step, and the control unit as the only agent. -/
theorem stepExecutesDecodedCommand : Obligations.StepExecutesDecodedCommand := by
  refine ⟨fun s i hp hd h => step_single hp hd h, fun s c rest hp hd hh => ?_, fun s hp hh => ?_⟩
  · rw [step_cmdWrite hp hh, accept_hashBatch hd]
  · exact pickAgent_of_enabledAgents (enabledAgents_of_single hp (.inl hh))

/-! ### The placing of a command (log entry 19) -/

theorem withFetchWord_single (s : State) {i : Instr} (hi : i ≠ .hashBatch) :
    s.withFetchWord 32 (encode i).toNat = s.withAccepted (encode i) := by
  simp only [State.withFetchWord, decodeTableWord_encode, BitVec.ofNat_toNat, BitVec.setWidth_eq]
  cases i with
  | hashBatch => exact absurd rfl hi
  | _ => rfl

theorem withFetchWord_hashBatch (s : State) :
    s.withFetchWord 32 (encode .hashBatch).toNat = s.withCmdWrite (encode .hashBatch) := by
  simp only [State.withFetchWord, decodeTableWord_encode, BitVec.ofNat_toNat, BitVec.setWidth_eq]

theorem step_withAccepted (s : State) (i : Instr) : step (s.withAccepted (encode i)) =
    exec i { s.withAccepted (encode i) with tick := s.tick + 1, patience := freePatience s.tick } := by
  have hp : (s.withAccepted (encode i)).ctl.phase = .single := rfl
  have hd : decode (s.withAccepted (encode i)).ctl.word = .command i := decode_encode i
  have ha : enabledAgents (s.withAccepted (encode i)) = [.control] := enabledAgents_of_single hp (.inr rfl)
  rw [step_single hp hd (pickAgent_of_enabledAgents ha), turn_of_enabledAgents ha (.inr (by decide))]
  rfl

theorem step_withCmdWrite (s : State) (c : Word) : step (s.withCmdWrite c) =
    accept { s with
      ctl      := { s.ctl with phase := .idle }
      tick     := s.tick + 1
      patience := freePatience s.tick } c := by
  have hp : (s.withCmdWrite c).ctl.phase = .idle := rfl
  have ha : enabledAgents (s.withCmdWrite c) = [.host] := enabledAgents_of_idle hp (by simp [State.withCmdWrite])
  rw [step_cmdWrite (rest := s.host) hp rfl, turn_of_enabledAgents ha (.inl (engineAgents_of_idle hp))]
  rfl

/-- Settles O4: a placed single-message command is latched already, and HASH_BATCH is the host's next write. -/
theorem placedCommandRunsNext : Obligations.PlacedCommandRunsNext := by
  refine ⟨fun s i hi => ?_, fun s => ?_⟩
  · rw [withFetchWord_single s hi, step_withAccepted]
    rfl
  · rw [withFetchWord_hashBatch, step_withCmdWrite, accept_hashBatch (decode_encode _)]
    rfl

end Sys2Proof.Machine
end

section
/-! PROOF. The word rotation, the message expander and the test vectors of the compressor (40_compression.md R140, R149
to R151, R155). -/

namespace Sys2Proof.Machine

/-! ### Rotation -/

theorem rotl_eq_rotateLeft (x : Word) (n : Nat) : rotl x n = x.rotateLeft n := by
  by_cases h : n % 32 = 0
  · have hout : x >>> 32 = 0#32 := BitVec.ushiftRight_eq_zero (Nat.le_refl 32)
    simp [rotl, BitVec.rotateLeft_def, h, hout]
  · simp [rotl, BitVec.rotateLeft_def, h]

/-- Settles O37: `rotl` is the library's rotation, which fills the bits below the rotation count from the top of the
word. -/
theorem rotationIsCircular : Obligations.RotationIsCircular := by
  refine fun x n => ⟨fun i hi => ?_, by simp [rotl]⟩
  have hlt : (i + n) % 32 < 32 := Nat.mod_lt _ (by decide)
  rw [rotl_eq_rotateLeft, BitVec.getLsbD_rotateLeft]
  by_cases hwrap : (i + n) % 32 < n % 32
  · have hback : 32 - n % 32 + (i + n) % 32 = i := by omega
    simp [hwrap, hback]
  · have hback : (i + n) % 32 - n % 32 = i := by omega
    simp [hwrap, hlt, hback]

/-! ### Expansion -/

/-- Extending leaves the words it began with where they stand, oldest last. -/
theorem extendRev_drop (n : Nat) (rev : List Word) : (extendRev n rev).drop n = rev := by
  induction n generalizing rev with
  | zero => rfl
  | succ n ih => rw [extendRev, ← List.drop_drop, ih, List.drop_one, List.tail_cons]

/-- Each of the `n` new words is made from the words that stand behind it (R150). -/
theorem extendRev_drop_eq_cons {n k : Nat} (hk : k < n) (rev : List Word) :
    (extendRev n rev).drop k =
      nextExpansion ((extendRev n rev).drop (k + 1)) :: (extendRev n rev).drop (k + 1) := by
  induction n generalizing rev with
  | zero => cases hk
  | succ n ih =>
    obtain hlt | rfl := Nat.lt_succ_iff_lt_or_eq.mp hk
    · exact ih hlt _
    · rw [extendRev_drop, extendRev, extendRev_drop]

theorem getD_drop (l : List Word) (n k : Nat) : (l.drop n).getD k 0#32 = l.getD (n + k) 0#32 := by
  simp [List.getD_eq_getElem?_getD]

theorem nextExpansion_drop (l : List Word) (n : Nat) : nextExpansion (l.drop n) =
    p1 (l.getD (n + 15) 0#32 ^^^ l.getD (n + 8) 0#32 ^^^ rotl (l.getD (n + 2) 0#32) 15) ^^^
      rotl (l.getD (n + 12) 0#32) 7 ^^^ l.getD (n + 5) 0#32 := by
  simp only [nextExpansion, getD_drop]

/-- `expandW` keeps the words oldest first, `extendRev` newest first. -/
theorem expandW_getD (b : List Byte) {i : Nat} (hi : i ≤ 67) :
    (expandW b).getD i 0#32 = (extendRev 52 (loadedRev b)).getD (67 - i) 0#32 := by
  have hlen : (extendRev 52 (loadedRev b)).length = 68 := by simpa [expandW] using expandW_length b
  rw [expandW, List.getD_reverse i (by omega), hlen]

/-- Block load (R149). -/
theorem expandW_getD_loaded (b : List Byte) {i : Nat} (hi : i < 16) : (expandW b).getD i 0#32 = wordAt b i := by
  rw [expandW_getD b (by omega), show 67 - i = 52 + (15 - i) by omega, ← getD_drop, extendRev_drop, loadedRev,
    List.getD_reverse _ (by simp; omega)]
  have hback : 16 - 1 - (15 - i) = i := by omega
  simp [List.getD_eq_getElem?_getD, hback, hi]

/-- The recurrence (R150), on word indices. -/
theorem expandW_getD_recurrence (b : List Byte) {i : Nat} (h16 : 16 ≤ i) (h67 : i ≤ 67) : (expandW b).getD i 0#32 =
    p1 ((expandW b).getD (i - 16) 0#32 ^^^ (expandW b).getD (i - 9) 0#32 ^^^ rotl ((expandW b).getD (i - 3) 0#32) 15)
      ^^^ rotl ((expandW b).getD (i - 13) 0#32) 7 ^^^ (expandW b).getD (i - 6) 0#32 := by
  have hback : ∀ d < 16,
      (extendRev 52 (loadedRev b)).getD (67 - i + 1 + d) 0#32 = (expandW b).getD (i - (d + 1)) 0#32 := by
    intro d hd
    rw [expandW_getD b (by omega), show 67 - i + 1 + d = 67 - (i - (d + 1)) by omega]
  calc (expandW b).getD i 0#32
      = ((extendRev 52 (loadedRev b)).drop (67 - i)).getD 0 0#32 := by rw [expandW_getD b h67, getD_drop, Nat.add_zero]
    _ = nextExpansion ((extendRev 52 (loadedRev b)).drop (67 - i + 1)) := by
        rw [extendRev_drop_eq_cons (by omega), List.getD_cons_zero]
    _ = _ := by simp (disch := decide) only [nextExpansion_drop, hback, Nat.reduceAdd]

theorem expandW1_getD (w : List Word) {j : Nat} (hj : j < 64) :
    (expandW1 w).getD j 0#32 = w.getD j 0#32 ^^^ w.getD (j + 4) 0#32 := by
  simp [expandW1, List.getD_eq_getElem?_getD, hj]

/-- Settles O38: the loaded words, the recurrence and the derived words, each from its lemma. -/
theorem expansionRecurrence : Obligations.ExpansionRecurrence := fun b _ =>
  ⟨fun _ hi => expandW_getD_loaded b hi, fun _ h16 h67 => expandW_getD_recurrence b h16 h67,
    fun _ hj => expandW1_getD _ hj, expandW_length b, expandW1_length _⟩

/-! ### Test vectors -/

/-- Settles O40: the kernel evaluates the 64 rounds on each of the two blocks of V-D5. -/
theorem compressionVectors : Obligations.CompressionVectors := ⟨by decide +kernel, by decide +kernel⟩

end Sys2Proof.Machine
end

section
/-! PROOF. The padding suffix and the state codec (41_padder_codec.md R180 to R188). -/

namespace Sys2Proof.Machine

/-! ### The padding suffix -/

theorem padLen_bounds (len : Nat) : 9 ≤ padLen len ∧ padLen len ≤ 72 := by
  have := rem_lt len
  obtain ⟨hcount, _⟩ | ⟨hcount, _⟩ := count_eq len <;> simp only [padLen, hcount] <;> omega

/-- The suffix is what `prior` has no part in, then the length field (R181, R188). -/
theorem padSuffix_eq_append (len prior : Nat) :
    padSuffix len prior = (0x80#8 :: zeros (padLen len - 9)) ++ be64bytes ((prior + len) * 8) := rfl

theorem marker_zeros_length (len : Nat) : (0x80#8 :: zeros (padLen len - 9)).length = padLen len - 8 := by
  have := padLen_bounds len
  rw [List.length_cons, zeros_length]
  omega

theorem padSuffix_take (len prior : Nat) :
    (padSuffix len prior).take (padLen len - 8) = 0x80#8 :: zeros (padLen len - 9) := by
  rw [padSuffix_eq_append, List.take_left' (marker_zeros_length len)]

theorem padSuffix_drop (len prior : Nat) :
    (padSuffix len prior).drop (padLen len - 8) = be64bytes ((prior + len) * 8) := by
  rw [padSuffix_eq_append, List.drop_left' (marker_zeros_length len)]

/-- The zero fill (R181). -/
theorem padSuffix_getD_fill (len prior : Nat) {i : Nat} (h1 : 1 ≤ i) (h8 : i < padLen len - 8) (b : Byte) :
    (padSuffix len prior).getD i b = 0x00#8 := by
  obtain ⟨j, rfl⟩ : ∃ j, i = j + 1 := ⟨i - 1, by omega⟩
  have hj : j < padLen len - 9 := by omega
  rw [padSuffix_eq_append, List.getD_append _ _ _ _ (by rwa [marker_zeros_length]), List.getD_cons_succ, zeros,
    List.getD_replicate _ hj]

/-- The suffix fills the message up to `PaddedLen` (R184). -/
theorem add_padLen (len : Nat) : len + padLen len = paddedLen len := by
  have hdiv : 64 * (len / 64) + rem len = len := Nat.div_add_mod len 64
  have := rem_lt len
  obtain ⟨hcount, _⟩ | ⟨hcount, _⟩ := count_eq len <;> simp only [padLen, paddedLen, hcount] <;> omega

/-- Read big-endian, `be64bytes` gives back the value modulo `2^64` (00_scope.md R23). -/
theorem foldl_be64bytes (v : Nat) : (be64bytes v).foldl (fun n b => n * 256 + b.toNat) 0 = v % 2 ^ 64 := by
  simp only [be64bytes, List.foldl_cons, List.foldl_nil, BitVec.extractLsb'_toNat, BitVec.toNat_ofNat,
    Nat.shiftRight_eq_div_pow]
  omega

/-- Settles O39: the suffix has length `padLen`, and is cut at its last 8 bytes into the marker with its zero fill and
the length field. -/
theorem paddingFillsBlocks : Obligations.PaddingFillsBlocks := by
  intro len prior
  have hcount : count len = if len % 64 ≤ 55 then 1 else 2 := if_congr (by rw [rem]; omega) rfl rfl
  have hmultiple : paddedLen len % 64 = 0 := Nat.mul_mod_right ..
  have hfield : prior + len < 2 ^ 61 → (prior + len) * 8 % 2 ^ 64 = (prior + len) * 8 :=
    fun hbound => Nat.mod_eq_of_lt (by omega)
  obtain ⟨h9, h72⟩ := padLen_bounds len
  simp only [padSuffix_length, padSuffix_take, padSuffix_drop, foldl_be64bytes, add_padLen, and_self, implies_true,
    true_and]
  exact ⟨hcount, rfl, rfl, h9, h72, hmultiple, rfl, fun _ h1 h8 => padSuffix_getD_fill len prior h1 h8 _, hfield⟩

/-! ### Words and their bytes -/

theorem be32_extractLsb' (w : Word) :
    be32 (w.extractLsb' 24 8) (w.extractLsb' 16 8) (w.extractLsb' 8 8) (w.extractLsb' 0 8) = w := by
  rw [be32, BitVec.extractLsb'_append_extractLsb'_eq_extractLsb' (by rfl),
    BitVec.extractLsb'_append_extractLsb'_eq_extractLsb' (by rfl),
    BitVec.extractLsb'_append_extractLsb'_eq_extractLsb' (by rfl)]
  exact BitVec.extractLsb'_eq_self

theorem be32bytes_be32 (b0 b1 b2 b3 : Byte) : be32bytes (be32 b0 b1 b2 b3) = [b0, b1, b2, b3] := by
  simp (disch := decide) only [be32bytes, be32, BitVec.extractLsb'_append_eq_of_le,
    BitVec.extractLsb'_append_eq_of_add_le, Nat.reduceSub, BitVec.extractLsb'_eq_self]

theorem be32bytes_getD (w : Word) {i : Nat} (hi : i < 4) :
    (be32bytes w).getD i 0#8 = w.extractLsb' (24 - 8 * i) 8 := by
  interval_cases i <;> rfl

theorem be32bytes_wordAt_getD (d : List Byte) (k : Nat) {i : Nat} (hi : i < 4) :
    (be32bytes (wordAt d k)).getD i 0#8 = d.getD (4 * k + i) 0#8 := by
  rw [wordAt, be32bytes_be32]
  interval_cases i <;> rfl

/-! ### The state codec -/

theorem eq_of_hashWord_eq {v w : HashState} (h : ∀ k, hashWord v k = hashWord w k) : v = w := by
  cases v; cases w
  congr 1
  exacts [h 0, h 1, h 2, h 3, h 4, h 5, h 6, h 7]

theorem toDigestBytes_getD (v : HashState) (k : Fin 8) {i : Nat} (hi : i < 4) :
    (toDigestBytes v).getD (4 * k.val + i) 0#8 = (be32bytes (hashWord v k)).getD i 0#8 := by
  fin_cases k <;> interval_cases i <;> rfl

theorem hashWord_fromDigestBytes (d : List Byte) (k : Fin 8) : hashWord (fromDigestBytes d) k = wordAt d k := by
  fin_cases k <;> rfl

/-- Each word is put together again from the four bytes that it was cut into. -/
theorem wordAt_toDigestBytes (v : HashState) (k : Fin 8) : wordAt (toDigestBytes v) k = hashWord v k := by
  fin_cases k <;> exact be32_extractLsb' _

theorem fromDigestBytes_toDigestBytes (v : HashState) : fromDigestBytes (toDigestBytes v) = v :=
  eq_of_hashWord_eq fun k => (hashWord_fromDigestBytes _ k).trans (wordAt_toDigestBytes v k)

theorem toDigestBytes_fromDigestBytes {d : List Byte} (hd : d.length = 32) :
    toDigestBytes (fromDigestBytes d) = d := by
  refine List.ext_getElem (hd ▸ toDigestBytes_length _) fun n h1 h2 => ?_
  rw [← List.getD_eq_getElem _ 0#8, ← List.getD_eq_getElem _ 0#8]
  obtain ⟨k, i, hi, rfl⟩ : ∃ (k : Fin 8) (i : Nat), i < 4 ∧ n = 4 * k.val + i :=
    ⟨⟨n / 4, by omega⟩, n % 4, Nat.mod_lt _ (by decide), (Nat.div_add_mod n 4).symm⟩
  rw [toDigestBytes_getD _ k hi, hashWord_fromDigestBytes, be32bytes_wordAt_getD d _ hi]

/-- Settles O41: the digest byte by byte, the words of a digest, and the two round trips that follow from them. -/
theorem codecRoundTrip : Obligations.CodecRoundTrip :=
  ⟨fun v => ⟨toDigestBytes_length v, fun k _ hi => (toDigestBytes_getD v k hi).trans (be32bytes_getD _ hi)⟩,
    fun d k _ => hashWord_fromDigestBytes d k, fromDigestBytes_toDigestBytes,
    fun _ hd => toDigestBytes_fromDigestBytes hd⟩

end Sys2Proof.Machine
end

section
/-! PROOF. Each single-message command completes with its result, when the requests it makes are answered
(42_engine_commands.md R220 to R227). -/

namespace Sys2Proof.Machine

/-! ### Completion -/

/-- A success leaves the registers and the phase as 60_exceptions.md R305 says. -/
theorem complete_success (s : State) :
    complete s 0x00#8 = { s with ctl := idleCtl s.ctl, regs := doneRegs s.regs } := rfl

/-- An admitted write after the datapath took new contents. -/
theorem memWrite_setPath {s : State} {a n : Nat} {v : List Byte} (h : writable s a n = true) (hv : v.length = n)
    (p : Path) : memWrite (setPath s p) a v = .ok (setMem (setPath s p) (writeBytes s.mem a v)) := by
  subst hv
  exact memWrite_writable h

/-! ### HASH and HASH_CONTINUE -/

/-- The hash sequence of a readable message completes with `Hash(V0, m, prior)` (R226, R227). -/
theorem hashInto_ok {s : State} (v0 : HashState) {prior : Nat} (hlen : prior + lenOp s < lengthBound)
    (hread : messageReadable s (srcOp s) (lenOp s)) (hwrite : writable s (dstOp s) 32 = true) :
    ∃ p, p.trailer = [] ∧ settle s (hashInto s v0 prior) = .next { s with
      path := p
      mem  := writeBytes s.mem (dstOp s) (toDigestBytes (hashOf v0 (readBytes s.mem (srcOp s) (lenOp s)) prior))
      ctl  := idleCtl s.ctl
      regs := doneRegs { s.regs with
        hash   := hashOf v0 (readBytes s.mem (srcOp s) (lenOp s)) prior
        result := BitVec.ofNat 64 (lenOp s / 64 + count (lenOp s)) } } := by
  obtain ⟨p, hp, hv, htrailer⟩ := hashMessage_ok s s.path v0 (srcOp s) (lenOp s) prior hread
  refine ⟨p, htrailer, ?_⟩
  simp only [hashInto, checkLength_ok hlen, hp, haltAt_ok, memWrite_setPath hwrite (toDigestBytes_length _), settle_ok,
    complete_success]
  simp only [setPath, setMem, setHash, setResult, hv]

/-- Settles O11: HASH is the hash sequence from the IV with continuation offset 0. -/
theorem hashWritesDigest : Obligations.HashWritesDigest := fun _ hlen =>
  hashInto_ok iv (by rwa [Nat.zero_add])

/-- Settles O12: HASH_CONTINUE is the hash sequence from the copied state and offset. -/
theorem hashContinueWritesDigest : Obligations.HashContinueWritesDigest := fun s => hashInto_ok s.ctl.stateIn

/-- Settles O43: HASH and HASH_CONTINUE differ in the state and the offset they hand to the hash sequence only. -/
theorem hashContinueFromIvIsHash : Obligations.HashContinueFromIvIsHash := by
  intro s hiv hprior
  simp only [exec, execHashContinue, execHash, hiv, hprior]

/-! ### PAD -/

/-- `RESULT` holds the trailer block count (R223). -/
theorem ofNat_count (len : Nat) : BitVec.ofNat 64 (count len) = if len % 64 ≤ 55 then 1#64 else 2#64 := by
  obtain ⟨hcount, hrem⟩ | ⟨hcount, hrem⟩ := count_eq len <;> rw [rem] at hrem <;> rw [hcount]
  · rw [if_pos hrem]
  · rw [if_neg (by omega)]

/-- Settles O8: the tail that PAD reads, with the padding suffix, is the trailer of the message. -/
theorem padWritesTrailer : Obligations.PadWritesTrailer := by
  intro s hlen hread hwrite
  have ht := readTail_ok s (srcOp s) (lenOp s) hread
  rw [trailer_readBytes, ← ofNat_count]
  generalize hm : readBytes s.mem (srcOp s + 64 * (lenOp s / 64)) (rem (lenOp s)) = tail at ht ⊢
  have htail : tail.length = rem (lenOp s) := by rw [← hm, readBytes_length]
  have hw := memWrite_setPath hwrite (tail_padSuffix_length tail (lenOp s) (priorOp s) htail)
  refine ⟨emptyTrailer s.path, rfl, ?_⟩
  simp only [exec, execPad, checkLength_ok hlen, ht, haltAt_ok, fillTrailer, hw, settle_ok, complete_success]
  simp only [setPath, setMem, setResult, emptyTrailer]

/-! ### EXPAND -/

/-- A word stands big-endian at its offset in the bytes of a list of words (20_memory.md R81). -/
theorem wordAt_flatMap_be32bytes (l : List Word) (i : Nat) : wordAt (l.flatMap be32bytes) i = l.getD i 0#32 := by
  induction l generalizing i with
  | nil => simp [wordAt, be32]
  | cons w l ih =>
    cases i with
    | zero => exact be32_extractLsb' w
    | succ i => exact ih i

/-- The dump holds `W`, then `W1` from word 68 on (R222). -/
theorem wordAt_expansionDump (w w1 : List Word) (i : Nat) : wordAt (expansionDump w w1) i = (w ++ w1).getD i 0#32 := by
  rw [expansionDump, ← List.flatMap_append, wordAt_flatMap_be32bytes]

/-- Settles O7: EXPAND writes `expansionDump`, whose words stand at their offsets. -/
theorem expandWritesExpansion : Obligations.ExpandWritesExpansion := by
  intro s hread hwrite
  generalize hb : readBytes s.mem (srcOp s) 64 = b
  have hlen := expandW_length b
  have hw := memWrite_setPath hwrite (expansionDump_length b)
  refine ⟨expandInPath s.path b, expansionDump (expandW b) (expandW1 (expandW b)), ?_, expansionDump_length b,
    fun i hi => ?_, fun j hj => ?_⟩
  · simp only [exec, execExpand, memRead_readable hread, hb, haltAt_ok, expandInPath_w, expandInPath_w1, hw,
      settle_ok, complete_success]
    simp only [setPath, setMem]
  · exact (wordAt_expansionDump ..).trans (List.getD_append _ _ _ _ (by omega))
  · rw [show 272 + 4 * j = 4 * (68 + j) by omega]
    refine (wordAt_expansionDump ..).trans ?_
    rw [List.getD_append_right _ _ _ _ (by omega), hlen, Nat.add_sub_cancel_left]

/-! ### INIT, COMPRESS, TO_DIGEST and FROM_DIGEST -/

/-- Settles O5: INIT makes no request, and `iv` is R145's. -/
theorem initLoadsIv : Obligations.InitLoadsIv := fun _ => rfl

/-- Settles O6: COMPRESS has one request, and a path computes `CF`. -/
theorem compressAppliesCf : Obligations.CompressAppliesCf := by
  intro s hread
  refine ⟨compressInPath { s.path with v := s.ctl.stateIn } 0 (readBytes s.mem (srcOp s) 64), ?_⟩
  simp only [exec, execCompress, memRead_readable hread, haltAt_ok, settle_ok, complete_success, compressInPath_v,
    setPath, setHash]

/-- Settles O9: TO_DIGEST has one request, the write of the digest. -/
theorem toDigestWritesState : Obligations.ToDigestWritesState := by
  intro s hwrite
  have hw : writable s (dstOp s) (toDigestBytes s.ctl.stateIn).length = true := hwrite
  simp only [exec, execToDigest, memWrite_writable hw, haltAt_ok, settle_ok, complete_success, setMem]

/-- Settles O10: FROM_DIGEST has one request, the read of the digest. -/
theorem fromDigestLoadsState : Obligations.FromDigestLoadsState := by
  intro s hread
  simp only [exec, execFromDigest, memRead_readable hread, haltAt_ok, settle_ok, complete_success, setHash]

end Sys2Proof.Machine
end

section
/-! PROOF. Hashing on from a digest (42_engine_commands.md R210, R212; 40_compression.md R157). -/

namespace Sys2Proof.Machine

/-! ### Runs of `CF` over a byte string -/

theorem blockOf_drop (m : List Byte) (j k : Nat) : blockOf (m.drop (64 * j)) k = blockOf m (j + k) := by
  rw [blockOf, blockOf, List.drop_drop, Nat.mul_add]

/-- A block that lies in the first of two byte strings. -/
theorem blockOf_append_left {a : List Byte} (b : List Byte) {k : Nat} (h : 64 * (k + 1) ≤ a.length) :
    blockOf (a ++ b) k = blockOf a k := by
  rw [blockOf, blockOf, List.drop_append_of_le_length (by omega), List.take_append_of_le_length (by simp; omega)]

theorem cfBlocks_drop (m : List Byte) (j n k : Nat) (v : HashState) :
    cfBlocks (m.drop (64 * j)) n k v = cfBlocks m n (j + k) v := by
  induction n generalizing k v with
  | zero => rfl
  | succ n ih => rw [cfBlocks, cfBlocks, ih, blockOf_drop, Nat.add_assoc]

theorem cfBlocks_append_left {a : List Byte} (b : List Byte) {n k : Nat} (h : 64 * (k + n) ≤ a.length)
    (v : HashState) : cfBlocks (a ++ b) n k v = cfBlocks a n k v := by
  induction n generalizing k v with
  | zero => rfl
  | succ n ih => rw [cfBlocks, cfBlocks, ih (by omega), blockOf_append_left b (by omega)]

theorem cfBlocks_add (m : List Byte) (n n' k : Nat) (v : HashState) :
    cfBlocks m (n + n') k v = cfBlocks m n' (k + n) (cfBlocks m n k v) := by
  induction n generalizing k v with
  | zero => rw [Nat.zero_add]; rfl
  | succ n ih => rw [Nat.succ_add, cfBlocks, cfBlocks, ih, Nat.succ_add_eq_add_succ]

/-- The first `n` blocks, when they lie in the first of two byte strings, and then `n'` blocks of what follows them. -/
theorem cfBlocks_append {a : List Byte} (b : List Byte) {n : Nat} (n' : Nat) (h : 64 * n ≤ a.length) (v : HashState) :
    cfBlocks (a ++ b) (n + n') 0 v = cfBlocks (a.drop (64 * n) ++ b) n' 0 (cfBlocks a n 0 v) := by
  rw [cfBlocks_add, cfBlocks_append_left b (n := n) (by rwa [Nat.zero_add]), ← List.drop_append_of_le_length h,
    cfBlocks_drop, Nat.zero_add, Nat.add_zero]

/-! ### `Hash` over the padded message -/

/-- The number of blocks of a padded message (R184). -/
def paddedBlocks (len : Nat) : Nat := len / 64 + count len

theorem paddedLen_eq (len : Nat) : paddedLen len = 64 * paddedBlocks len := rfl

theorem append_padSuffix_length (m : List Byte) (prior : Nat) :
    (m ++ padSuffix m.length prior).length = paddedLen m.length := by
  rw [List.length_append, padSuffix_length, add_padLen]

/-- `Hash` is `CF` over the message and its padding suffix, block after block (R210, R184). -/
theorem hashOf_eq_cfBlocks (v : HashState) (m : List Byte) (prior : Nat) :
    hashOf v m prior = cfBlocks (m ++ padSuffix m.length prior) (paddedBlocks m.length) 0 v := by
  rw [paddedBlocks, cfBlocks_append _ _ (Nat.mul_div_le _ _)]
  rfl

/-- Whole blocks before a message add their number to its blocks (R180, R184). -/
theorem paddedBlocks_add (n len : Nat) : paddedBlocks (64 * n + len) = n + paddedBlocks len := by
  have hrem : rem (64 * n + len) = rem len := Nat.mul_add_mod ..
  rw [paddedBlocks, paddedBlocks, count, count, hrem, Nat.mul_add_div (by decide), Nat.add_assoc]

/-- Whole blocks before a message and a continuation offset pad it alike (R181). -/
theorem padSuffix_add (n len : Nat) : padSuffix (64 * n + len) 0 = padSuffix len (64 * n) := by
  have hrem : rem (64 * n + len) = rem len := Nat.mul_add_mod ..
  rw [padSuffix, padSuffix, count, count, hrem, Nat.zero_add]

/-- `Hash` over whole blocks and a message is `Hash` of the message from where the blocks lead, with their length as
continuation offset. -/
theorem hashOf_append {a : List Byte} {n : Nat} (ha : a.length = 64 * n) (m : List Byte) (v : HashState) :
    hashOf v (a ++ m) 0 = hashOf (cfBlocks a n 0 v) m (64 * n) := by
  rw [hashOf_eq_cfBlocks, hashOf_eq_cfBlocks, List.length_append, ha, paddedBlocks_add, padSuffix_add,
    List.append_assoc, cfBlocks_append _ _ ha.ge, ← ha, List.drop_length, List.nil_append]

/-- Settles O42: the state goes through the digest unchanged, and the padded first message is whole blocks, over which
`CF` is that message's `Hash`. -/
theorem lengthExtension : Obligations.LengthExtension := by
  intro p m _
  have hlen : (p ++ padSuffix p.length 0).length = 64 * paddedBlocks p.length := append_padSuffix_length p 0
  rw [fromDigestBytes_toDigestBytes, hashOf_append hlen, ← hashOf_eq_cfBlocks, paddedLen_eq]

end Sys2Proof.Machine
end

section
/-! PROOF. The single-message commands depend on no hidden state (42_engine_commands.md R211). -/

namespace Sys2Proof.Machine

/-- The states agree on the parameters and on what a single-message command may depend on: the accept-time copies,
memory, the registers and the counter of the free values (R211; log entry 6). -/
structure SameInputs (s s' : State) : Prop where
  params : s'.params = s.params
  ctl    : s'.ctl = s.ctl
  mem    : s'.mem = s.mem
  regs   : s'.regs = s.regs
  tick   : s'.tick = s.tick

namespace SameInputs

variable {s s' : State} (h : SameInputs s s')
include h

/-! ### The operands and the requests -/

theorem srcOp_eq : srcOp s' = srcOp s := by rw [srcOp, h.ctl, srcOp]

theorem dstOp_eq : dstOp s' = dstOp s := by rw [dstOp, h.ctl, dstOp]

theorem lenOp_eq : lenOp s' = lenOp s := by rw [lenOp, h.ctl, lenOp]

theorem priorOp_eq : priorOp s' = priorOp s := by rw [priorOp, h.ctl, priorOp]

theorem memRead_eq (a n : Nat) : memRead s' a n = memRead s a n := memRead_congr h.params h.mem h.tick a n

theorem readTail_eq (src len : Nat) : readTail s' src len = readTail s src len := by simp only [readTail, h.memRead_eq]

/-- Hashing a message ends early for the same reason, or with the same HashState. -/
theorem hashMessage_cases (v0 : HashState) (src len prior : Nat) :
    (∃ e e', hashMessage s s.path v0 src len prior = .error e ∧ hashMessage s' s'.path v0 src len prior = .error e' ∧
      e.stop = e'.stop) ∨
    ∃ q q', hashMessage s s.path v0 src len prior = .ok q ∧ hashMessage s' s'.path v0 src len prior = .ok q' ∧
      q'.v = q.v := by
  have hend := hashMessage_sameEnd s s.path s'.path v0 src len prior
  rw [← hashMessage_congr h.params.symm h.mem.symm h.tick.symm s'.path]
  generalize hashMessage s s.path v0 src len prior = x at hend
  generalize hashMessage s s'.path v0 src len prior = x' at hend
  cases x with
  | error e => cases x' with
    | error e' => exact .inl ⟨e, e', rfl, rfl, hend.1⟩
    | ok q' => exact hend.elim
  | ok q => cases x' with
    | error e' => exact hend.elim
    | ok q' => exact .inr ⟨q, q', rfl, rfl, hend.symm⟩

/-! ### The updates of the state -/

theorem setPath (p p' : Path) : SameInputs (setPath s p) (setPath s' p') := ⟨h.params, h.ctl, h.mem, h.regs, h.tick⟩

theorem setMem (m : Memory) : SameInputs (setMem s m) (setMem s' m) := ⟨h.params, h.ctl, rfl, h.regs, h.tick⟩

theorem setHash (v : HashState) : SameInputs (setHash s v) (setHash s' v) :=
  ⟨h.params, h.ctl, h.mem, by rw [Machine.setHash, h.regs, Machine.setHash], h.tick⟩

theorem setResult (n : Nat) : SameInputs (setResult s n) (setResult s' n) :=
  ⟨h.params, h.ctl, h.mem, by rw [Machine.setResult, h.regs, Machine.setResult], h.tick⟩

theorem complete (e : BitVec 8) : SameInputs (complete s e) (complete s' e) :=
  ⟨h.params, by rw [Machine.complete, h.ctl, Machine.complete], h.mem,
    by rw [Machine.complete, h.regs, Machine.complete], h.tick⟩

theorem raise (c : ErrorCode) (a : DWord) : SameInputs (raise s c a) (raise s' c a) :=
  complete (s := { s with regs := { s.regs with faultAddr := a } })
    (s' := { s' with regs := { s'.regs with faultAddr := a } })
    ⟨h.params, h.ctl, h.mem, by rw [h.regs], h.tick⟩ _

end SameInputs

/-! ### The work of a command -/

/-- The work of a command ends alike: in states that agree, or early for the same reason. -/
def SameWork : Except Halted State → Except Halted State → Prop
  | .ok t, .ok t'       => SameInputs t t'
  | .error e, .error e' => e.stop = e'.stop
  | .ok _, .error _     => False
  | .error _, .ok _     => False

theorem memWrite_sameWork {s s' : State} (h : SameInputs s s') (p p' : Path) (a : Nat) (v : List Byte) :
    SameWork (haltAt p (memWrite s a v)) (haltAt p' (memWrite s' a v)) := by
  simp only [memWrite, h.params, h.mem, h.tick]
  split
  · exact h.setMem _
  · rfl

/-- Work that ends alike does so with a last update of the state too. -/
theorem SameWork.update {w w' : Except Halted State} {f f' : State → State}
    (hf : ∀ u u', SameInputs u u' → SameInputs (f u) (f' u')) :
    SameWork w w' → SameWork (match w with | .error e => .error e | .ok u => .ok (f u))
      (match w' with | .error e => .error e | .ok u => .ok (f' u)) := by
  intro hw
  cases w with
  | ok u => cases w' with
    | ok u' => exact hf u u' hw
    | error e' => exact hw.elim
  | error e => cases w' with
    | ok u' => exact hw.elim
    | error e' => exact hw

/-- Work that ends alike settles alike. -/
theorem settle_sameInputs {s s' t : State} {w w' : Except Halted State} (h : SameInputs s s') (hw : SameWork w w')
    (ht : settle s w = .next t) : ∃ t', settle s' w' = .next t' ∧ SameInputs t t' := by
  cases w with
  | ok u => cases w' with
    | ok u' =>
      cases ht
      exact ⟨_, rfl, SameInputs.complete hw _⟩
    | error e' => exact hw.elim
  | error e => cases w' with
    | ok u' => exact hw.elim
    | error e' =>
      obtain ⟨p, stop⟩ := e
      obtain ⟨p', stop'⟩ := e'
      obtain rfl : stop = stop' := hw
      cases stop with
      | raise c a =>
        cases ht
        exact ⟨_, rfl, (h.setPath p p').raise c a⟩
      | refuse r => cases ht

theorem hashInto_sameWork {s s' : State} (h : SameInputs s s') (v0 : HashState) (prior : Nat) :
    SameWork (hashInto s v0 prior) (hashInto s' v0 prior) := by
  simp only [hashInto, h.srcOp_eq, h.lenOp_eq, h.dstOp_eq]
  cases checkLength (prior + lenOp s) with
  | error e => rfl
  | ok _ =>
    obtain ⟨e, e', he, he', hstop⟩ | ⟨q, q', hq, hq', hv⟩ := h.hashMessage_cases v0 (srcOp s) (lenOp s) prior
    · simp only [haltAt_ok, he, he']
      exact hstop
    · simp only [haltAt_ok, hq, hq', hv]
      generalize toDigestBytes q.v = d
      exact SameWork.update (fun _ _ hu => (hu.setHash _).setResult _)
        (memWrite_sameWork (h.setPath q q') q q' (dstOp s) d)

/-- Every single-message command, in states that agree, leaves states that agree. -/
theorem exec_sameInputs {i : Instr} {s s' t : State} (hi : i ≠ .hashBatch) (h : SameInputs s s')
    (ht : exec i s = .next t) : ∃ t', exec i s' = .next t' ∧ SameInputs t t' := by
  cases i with
  | init => exact settle_sameInputs h (w := .ok _) (w' := .ok _) (h.setHash iv) ht
  | compress =>
    refine settle_sameInputs h ?_ ht
    rw [h.srcOp_eq, h.memRead_eq]
    cases memRead s (srcOp s) 64 with
    | error e => rfl
    | ok b =>
      simp only [haltAt_ok, compressInPath_v, h.ctl]
      exact (h.setPath _ _).setHash _
  | expand =>
    refine settle_sameInputs h ?_ ht
    rw [h.srcOp_eq, h.memRead_eq, h.dstOp_eq]
    cases memRead s (srcOp s) 64 with
    | error e => rfl
    | ok b =>
      simp only [haltAt_ok, expandInPath_w, expandInPath_w1]
      generalize expansionDump (expandW b) (expandW1 (expandW b)) = dump
      exact memWrite_sameWork (h.setPath _ _) _ _ _ dump
  | pad =>
    refine settle_sameInputs h ?_ ht
    simp only [h.srcOp_eq, h.lenOp_eq, h.dstOp_eq, h.priorOp_eq, h.readTail_eq]
    cases checkLength (priorOp s + lenOp s) with
    | error e => rfl
    | ok _ => cases readTail s (srcOp s) (lenOp s) with
      | error e => rfl
      | ok tail =>
        simp only [haltAt_ok]
        generalize tail ++ padSuffix (lenOp s) (priorOp s) = t
        exact SameWork.update (fun _ _ hu => (hu.setPath _ _).setResult _)
          (memWrite_sameWork (h.setPath (fillTrailer s.path t) (fillTrailer s'.path t)) _ _ (dstOp s) t)
  | toDigest =>
    refine settle_sameInputs h ?_ ht
    rw [h.dstOp_eq, h.ctl]
    generalize toDigestBytes s.ctl.stateIn = d
    exact memWrite_sameWork h _ _ _ d
  | fromDigest =>
    refine settle_sameInputs h ?_ ht
    rw [h.srcOp_eq, h.memRead_eq]
    cases memRead s (srcOp s) 32 with
    | error e => rfl
    | ok d => exact h.setHash _
  | hash => exact settle_sameInputs h (hashInto_sameWork h iv 0) ht
  | hashContinue =>
    refine settle_sameInputs h ?_ ht
    rw [h.ctl, h.priorOp_eq]
    exact hashInto_sameWork h _ _
  | hashBatch => exact absurd rfl hi

/-- Settles O44: states with equal parameters, copies, memory, registers and counter are `SameInputs`. -/
theorem noHiddenState : Obligations.NoHiddenState := by
  intro i s s' t hi hparams hctl hmem hregs htick ht
  obtain ⟨t', ht', h⟩ :=
    exec_sameInputs hi ⟨hparams.symm, hctl.symm, hmem.symm, hregs.symm, htick.symm⟩ ht
  exact ⟨t', ht', h.mem, h.regs, h.ctl⟩

end Sys2Proof.Machine
end

section
/-! PROOF. What a lane's fetch and work steps do: an index is taken, a message's digest is written, or the first failure
is latched (43_batch.md R263, R264, R267). -/

namespace Sys2Proof.Machine

/-! ### The fetch step -/

theorem laneStep_of_fetch {s : State} {k : Nat} {l : Lane} (hk : s.lanes[k]? = some l) (hl : l.lstate = .fetch) :
    laneStep s k = laneFetch s k l := by
  simp [laneStep, hk, hl]

/-- Settles O45: the three ways of `laneFetch`. -/
theorem laneFetchStep : Obligations.LaneFetchStep := by
  intro s k l hk hl
  rw [laneStep_of_fetch hk hl, laneFetch]
  refine ⟨fun hv => ?_, fun hv hge => ?_, fun hv hlt => ?_⟩
  · simp [Option.isSome_iff_ne_none.mpr hv, setLane]
  · simp [hv, hge, setLane]
  · simp [hv, Nat.not_le.mpr hlt, setLane]

/-! ### The work on a message, request by request (R264) -/

@[simp] theorem batchDigest_length (s : State) (i : Nat) : (batchDigest s i).length = 32 := toDigestBytes_length _

section
variable {s : State} {i : Nat}

/-- With a readable descriptor and a length below the bound, what is left is the hash sequence and the slot write. -/
theorem messageWork_of_descriptor (hd : readable s (descriptorAddr s i) 16 = true)
    (hlen : descriptorMsgLen (descriptorBytes s i) < lengthBound) (p : Path) :
    messageWork s p i =
      (hashMessage s p iv (descriptorMsgAddr (descriptorBytes s i)) (descriptorMsgLen (descriptorBytes s i)) 0).bind
        fun q => (haltAt q (memWrite s (slotAddr s i) (toDigestBytes q.v))).map (Prod.mk q) := by
  unfold descriptorBytes at hlen ⊢
  simp only [messageWork, memRead_readable hd, checkLength_ok hlen, haltAt_ok]
  cases hashMessage s p iv _ _ 0 with
  | error h => rfl
  | ok q =>
    simp only [Except.bind]
    cases haltAt q (memWrite s (slotAddr s i) (toDigestBytes q.v)) <;> rfl

/-- A readable message is hashed, and what is left is the write of its digest to the slot. -/
theorem messageWork_of_message (hd : readable s (descriptorAddr s i) 16 = true)
    (hlen : descriptorMsgLen (descriptorBytes s i) < lengthBound)
    (hmsg : messageReadable s (descriptorMsgAddr (descriptorBytes s i)) (descriptorMsgLen (descriptorBytes s i)))
    (p : Path) :
    ∃ q, q.v = hashOf iv (batchMessage s i) 0 ∧ q.trailer = [] ∧
      messageWork s p i = (haltAt q (memWrite s (slotAddr s i) (batchDigest s i))).map (Prod.mk q) := by
  obtain ⟨q, hq, hv, htrailer⟩ := hashMessage_ok s p iv _ _ 0 hmsg
  refine ⟨q, hv, htrailer, ?_⟩
  rw [messageWork_of_descriptor hd hlen, hq]
  simp only [Except.bind, hv]
  rfl

end

/-! ### The work step -/

/-- Settles O46: the message is hashed, and the slot is written. -/
theorem laneWorkStep : Obligations.LaneWorkStep := by
  intro s k l hk hl hd hlen hmsg hw
  obtain ⟨q, _, htrailer, hq⟩ := messageWork_of_message hd hlen hmsg l.path
  refine ⟨q, htrailer, ?_⟩
  rw [laneStep_of_work hk hl, laneWork, hq, memWrite_writable (by rw [batchDigest_length]; exact hw)]
  simp only [haltAt_ok, Except.map, setLane, setMem, slotAddr, batchDigest, batchMessage]

/-- The first failure of a batch stays (R267). -/
theorem latchError_eq_or (s : State) (c : ErrorCode) (a : DWord) (i : Nat) :
    latchError s c a i = { s with
      batch := { s.batch with
        errv := s.batch.errv.or <|
          some { code := errorByte c, faultAddr := a, faultIndex := BitVec.ofNat 64 i } } } := by
  unfold latchError
  cases hv : s.batch.errv with
  | some e =>
    change s = _
    rw [Option.some_or, ← hv]
  | none => rfl

/-- The work on message `i` in path `p` fails with a code at an address, and leaves `V_k` (R264, R267). -/
def WorkFails (s : State) (p : Path) (i : Nat) (c : ErrorCode) (a : DWord) (v : HashState) : Prop :=
  ∃ q, q.v = v ∧ messageWork s p i = .error { path := q, stop := .raise c a }

theorem WorkFails.laneStep_eq {s : State} {k : Nat} {l : Lane} {c : ErrorCode} {a : DWord} {v : HashState}
    (h : WorkFails s l.path l.idx c a v) (hk : s.lanes[k]? = some l) (hl : l.lstate = .work) :
    ∃ q, q.v = v ∧ laneStep s k = .next { s with
      lanes := s.lanes.set k { l with lstate := .retired, path := q }
      batch := { s.batch with
        errv := s.batch.errv.or <|
          some { code := errorByte c, faultAddr := a, faultIndex := BitVec.ofNat 64 l.idx } } } := by
  obtain ⟨q, hv, hq⟩ := h
  refine ⟨q, hv, ?_⟩
  rw [laneStep_of_work hk hl, laneWork, hq]
  simp only [latchError_eq_or, setLane]

section
variable {s : State} {i a : Nat}

/-- A request that is not admitted raises ERR_BUS at its address (60_exceptions.md R303). -/
theorem memRead_raises {n : Nat} (ha : a < 2 ^ 64) (h : admitted s.params .read a n = false) :
    memRead s a n = .error (.raise .bus (BitVec.ofNat 64 a)) := by
  rw [memRead_notAdmitted h, faultAddrOf_of_lt _ ha]

theorem workFails_descriptor (ha : descriptorAddr s i < 2 ^ 64)
    (h : admitted s.params .read (descriptorAddr s i) 16 = false) (p : Path) :
    WorkFails s p i .bus (BitVec.ofNat 64 (descriptorAddr s i)) p.v :=
  ⟨p, rfl, by simp [messageWork, memRead_raises ha h]⟩

theorem workFails_length (hd : readable s (descriptorAddr s i) 16 = true)
    (hlen : lengthBound ≤ descriptorMsgLen (descriptorBytes s i)) (p : Path) : WorkFails s p i .length 0#64 p.v := by
  unfold descriptorBytes at hlen
  exact ⟨p, rfl, by simp [messageWork, memRead_readable hd, checkLength_error hlen]⟩

/-- Where the hash sequence over the message stops, at a block or at the tail, the work fails. -/
theorem workFails_of_hashMessage {p : Path} {c : ErrorCode} {f : DWord} {v : HashState}
    (hd : readable s (descriptorAddr s i) 16 = true) (hlen : descriptorMsgLen (descriptorBytes s i) < lengthBound)
    (h : ∃ q, hashMessage s p iv (descriptorMsgAddr (descriptorBytes s i)) (descriptorMsgLen (descriptorBytes s i)) 0 =
      .error { path := q, stop := .raise c f } ∧ q.v = v) : WorkFails s p i c f v := by
  obtain ⟨q, hq, hv⟩ := h
  exact ⟨q, hv, by rw [messageWork_of_descriptor hd hlen, hq]; rfl⟩

theorem workFails_slot (ha : slotAddr s i < 2 ^ 64) (hd : readable s (descriptorAddr s i) 16 = true)
    (hlen : descriptorMsgLen (descriptorBytes s i) < lengthBound)
    (hmsg : messageReadable s (descriptorMsgAddr (descriptorBytes s i)) (descriptorMsgLen (descriptorBytes s i)))
    (h : writable s (slotAddr s i) 32 = false) (p : Path) :
    WorkFails s p i .bus (BitVec.ofNat 64 (slotAddr s i)) (hashOf iv (batchMessage s i) 0) := by
  obtain ⟨q, hv, _, hq⟩ := messageWork_of_message hd hlen hmsg p
  refine ⟨q, hv, ?_⟩
  rw [hq, memWrite_notWritable (by rw [batchDigest_length]; exact h), faultAddrOf_of_lt _ ha]
  rfl

end

/-- Settles O47: each failure is one request or check that `WorkFails`, and the lane's step latches it. -/
theorem laneFailureStep : Obligations.LaneFailureStep := by
  intro s k l hk hl code a v ha h
  have hfail : ∃ c, code = errorByte c ∧ WorkFails s l.path l.idx c (BitVec.ofNat 64 a) v := by
    obtain ⟨rfl, rfl, rfl, hadm⟩ | ⟨rfl, rfl, rfl, hd, hlen⟩ | ⟨rfl, hd, hlen, b, hb, rfl, rfl, hread, hadm⟩ |
      ⟨rfl, hd, hlen, hr, rfl, rfl, hread, hadm⟩ | ⟨rfl, rfl, hd, hlen, rfl, hmsg, hw⟩ := h
    · exact ⟨.bus, rfl, workFails_descriptor ha hadm _⟩
    · exact ⟨.length, rfl, workFails_length hd hlen _⟩
    · exact ⟨.bus, rfl, workFails_of_hashMessage hd hlen
        (hashMessage_blockStops s _ iv _ _ 0 b _ hb hread (memRead_raises ha hadm))⟩
    · exact ⟨.bus, rfl, workFails_of_hashMessage hd hlen
        (hashMessage_tailStops s _ iv _ _ 0 _ hread hr (memRead_raises ha hadm))⟩
    · exact ⟨.bus, rfl, workFails_slot ha hd hlen hmsg hw _⟩
  obtain ⟨c, rfl, hfail⟩ := hfail
  obtain ⟨q, hv, hstep⟩ := hfail.laneStep_eq hk hl
  refine ⟨q, hv, ?_⟩
  rw [hstep]
  cases s.batch.errv <;> rfl

end Sys2Proof.Machine
end

section
/-! PROOF. HASH_BATCH's start: the lanes it uses and starts, the slots, and the empty batch (43_batch.md R260, R262, R265,
R269). -/

namespace Sys2Proof.Machine

/-! ### The number of lanes used (R262) -/

theorem lanesUsed_eq_min_of_all {nl w n : Nat} (hn : 0 < n) (h : w = 0 ∨ min n nl ≤ w) :
    lanesUsed nl w n = min n nl := by
  unfold lanesUsed
  split <;> omega

theorem lanesUsed_eq_workers {nl w n : Nat} (h1 : 1 ≤ w) (h : w ≤ min n nl) : lanesUsed nl w n = w := by
  unfold lanesUsed
  split <;> omega

theorem lanesUsed_le (nl w n : Nat) : lanesUsed nl w n ≤ min n nl := by
  unfold lanesUsed
  split <;> omega

/-- Settles O49: the bounds and values of the formula, and slots 32 bytes apart. -/
theorem lanesUsedAndSlots : Obligations.LanesUsedAndSlots := by
  refine ⟨fun p w n hn => ⟨?_, lanesUsed_le _ _ _, lanesUsed_eq_min_of_all hn, lanesUsed_eq_workers⟩,
    fun s i j x hne => ?_⟩
  · exact (lanesUsed_bounds _ w n hn (nLanes_bounds p).1).1
  · unfold slotAddr
    omega

/-! ### The start (R260) -/

theorem exec_hashBatch_starts {s : State} (hn : lenOp s ≠ 0) (ho : batchOverlap s = false) :
    exec .hashBatch s = .next (startBatch s (lanesUsed (nLanes s.params) (workersOp s) (lenOp s))) := by
  simp [exec, execHashBatch, hn, ho]

/-- Which lanes start fresh, and that the others stay, whatever they hold (60_exceptions.md R314). -/
theorem startLanes_getElem?_eq {nl k : Nat} {L : List Lane} {l : Lane} (hk : L[k]? = some l) :
    (startLanes nl L)[k]? = some (if k < nl then freshLane else l) := by
  simp [startLanes, hk]

/-- Settles O13: the fresh lane is `freshLane`, and the start is `startBatch`. -/
theorem hashBatchStartsLanes : Obligations.HashBatchStartsLanes := by
  refine ⟨freshLane, rfl, fun s hn ho => ⟨_, exec_hashBatch_starts hn ho, rfl, rfl, ?_, fun k l hk => ?_,
    rfl, rfl, rfl, rfl, rfl, rfl, rfl, rfl, rfl⟩⟩
  · simp [startLanes]
  · exact startLanes_getElem?_eq hk

/-! ### The empty batch (R269) -/

theorem exec_hashBatch_empty {s : State} (hn : lenOp s = 0) :
    exec .hashBatch s = .next { s with
      batch := { s.batch with count := 0 }
      ctl   := idleCtl s.ctl
      regs  := doneRegs { s.regs with result := 0#64 } } := by
  simp only [exec, execHashBatch, hn, if_true, complete_success]
  rfl

/-- Settles O14: the start of an empty batch, in its own step and inside accept. -/
theorem emptyBatchCompletes : Obligations.EmptyBatchCompletes := by
  refine ⟨fun s => exec_hashBatch_empty, fun s hb hlen => ?_⟩
  have hn : lenOp (latchCommand s (encode .hashBatch)) = 0 := by simp [lenOp, hlen]
  have hw : writeReg s .cmd (encode .hashBatch) = exec .hashBatch (latchCommand s (encode .hashBatch)) := by
    rw [writeReg_cmd_of_idle (busy_eq_false hb), accept_hashBatch (decode_encode _)]
  exact ⟨_, hw.trans (exec_hashBatch_empty hn), rfl, rfl, rfl, rfl, rfl, rfl⟩

end Sys2Proof.Machine
end

section
/-! PROOF. The join of a batch, and what a whole run of a batch leaves, whatever the schedule (43_batch.md R266 to R270). -/

namespace Sys2Proof.Machine

/-! ### The join (R266) -/

theorem control_not_mem_hostAgents (s : State) : Agent.control ∉ hostAgents s := by
  unfold hostAgents
  split
  · simp
  · split <;> simp

/-- In a batch the control unit is enabled for the join only. -/
theorem control_mem_enabledAgents_batch {s : State} (hp : s.ctl.phase = .batch) :
    Agent.control ∈ enabledAgents s ↔ allRetired s = true := by
  have hne := control_not_mem_hostAgents s
  cases hr : allRetired s <;> simp [enabledAgents, engineAgents, hp, hr, hne]

/-- The registers after a join: success with no error latched, else the latched error. -/
def joinRegs (s : State) : RegFile :=
  match s.batch.errv with
  | none   => doneRegs { s.regs with result := BitVec.ofNat 64 s.batch.used }
  | some e => { s.regs with
      result := BitVec.ofNat 64 s.batch.used, faultAddr := e.faultAddr, faultIndex := e.faultIndex
      err := e.code != 0x00#8, errCode := e.code, done := true }

/-- The join answers a next state, and this is all it changes. -/
theorem joinStep_eq (s : State) : joinStep s = .next { s with
    ctl   := idleCtl s.ctl
    lanes := stopLanes s.batch.used s.lanes
    regs  := joinRegs s } := by
  unfold joinStep joinRegs
  cases s.batch.errv <;> rfl

theorem joinRegs_of_none {s : State} (h : s.batch.errv = none) :
    joinRegs s = doneRegs { s.regs with result := BitVec.ofNat 64 s.batch.used } := by
  simp [joinRegs, h]

theorem joinRegs_of_some {s : State} {e : ErrorLatch} (h : s.batch.errv = some e) (hc : e.code ≠ 0x00#8) :
    joinRegs s = failRegs { s.regs with result := BitVec.ofNat 64 s.batch.used, faultIndex := e.faultIndex }
      e.code e.faultAddr := by
  simp [joinRegs, h, failRegs, hc]

@[simp] theorem joinRegs_done (s : State) : (joinRegs s).done = true := by
  unfold joinRegs
  split <;> rfl

theorem stopLanes_getElem? {nl k : Nat} {L : List Lane} {l : Lane} (hk : L[k]? = some l) :
    (stopLanes nl L)[k]? = some (if k < nl then { l with lstate := .off } else l) := by
  simp [stopLanes, hk]

/-- Settles O48: when the control unit is enabled in a batch, and all the join changes. -/
theorem joinReportsBatch : Obligations.JoinReportsBatch := by
  intro s hp
  have hj : controlStep s = joinStep s := by simp [controlStep, hp]
  refine ⟨(control_mem_enabledAgents_batch hp).trans (allRetired_iff s), _, hj.trans (joinStep_eq s), rfl, rfl, rfl, rfl,
    fun k l hk => stopLanes_getElem? hk, joinRegs_of_none, fun e => joinRegs_of_some⟩

/-! ### A run of a batch to its completion (R267, R268) -/

/-- The batch launched in `u` ran to its join: `t` is what the join leaves of a running batch with every lane RETIRED. -/
def JoinedFrom (u t : State) : Prop := ∃ s, RunOk u s ∧ allRetired s = true ∧ joinStep s = .next t

/-- A run of a batch ends in the first state that is idle. -/
theorem BatchRun.eq_of_idle {s t : State} (h : BatchRun s t) (hi : s.ctl.phase = .idle) : t = s := by
  cases h with
  | refl => rfl
  | next _ _ _ hp _ _ => rw [hi] at hp; cases hp

/-- Where a run of a batch can be: still running, abandoned by a reset, or joined. -/
theorem RunOk.of_batchRun {u s t : State} (h : RunOk u s) (hover : batchOverlap u = false) (hr : BatchRun s t) :
    RunOk u t ∨ (t.ctl.phase = .idle ∧ t.regs.done = false) ∨ JoinedFrom u t := by
  induction hr with
  | refl s => exact .inl h
  | next s t' t _ hstep hrest ih =>
    obtain h' | hreset | hjoin := h.of_step hover hstep
    · exact ih h'
    · rw [hrest.eq_of_idle hreset.1]
      exact .inr (.inl hreset)
    · have hi : t'.ctl.phase = .idle := by
        obtain ⟨_, _, _, hj⟩ := hjoin
        exact busy_eq_false (joinStep_ended hj).1
      rw [hrest.eq_of_idle hi]
      exact .inr (.inr hjoin)

/-- A launch that answers a next state keeps the overlap duty and starts a running batch. -/
theorem launch_runOk {u s : State} (hc : CanStart u) (hn : lenOp u ≠ 0) (hd : decode u.ctl.word = .command .hashBatch)
    (hs : exec .hashBatch u = .next s) :
    batchOverlap u = false ∧ RunOk u s ∧
      s = startBatch u (lanesUsed (nLanes u.params) (workersOp u) (lenOp u)) := by
  have hs : execHashBatch u = .next s := hs
  obtain ⟨h0, _⟩ | ⟨_, _, he⟩ | ⟨_, ho, he⟩ := execHashBatch_cases u
  · exact absurd h0 hn
  · rw [he] at hs; cases hs
  · rw [he] at hs
    cases hs
    exact ⟨ho, startBatch_runOk hc hn hd, rfl⟩

/-- A launched batch that completes has joined. -/
theorem launch_joinedFrom {u s t : State} (hc : CanStart u) (hn : lenOp u ≠ 0)
    (hd : decode u.ctl.word = .command .hashBatch) (hs : exec .hashBatch u = .next s) (hr : BatchRun s t)
    (hi : t.ctl.phase = .idle) (hdone : t.regs.done = true) : JoinedFrom u t := by
  obtain ⟨ho, hrun, _⟩ := launch_runOk hc hn hd hs
  obtain h | ⟨_, h⟩ | h := hrun.of_batchRun ho hr
  · rw [h.phase] at hi; cases hi
  · rw [hdone] at h; cases h
  · exact h

/-- What a joined batch leaves of the slots and the registers, with no error and with one (R267, R268). -/
theorem JoinedFrom.slots {u t : State} (h : JoinedFrom u t) :
    (t.regs.err = false ∧ ∀ i, i < lenOp u → slotBytes t i = batchDigest u i) ∨
    (t.regs.err = true ∧ t.regs.faultIndex.toNat < lenOp u ∧
      slotBytes t t.regs.faultIndex.toNat = slotBytes u t.regs.faultIndex.toNat ∧
      ∀ i, i < lenOp u → slotBytes t i = batchDigest u i ∨ slotBytes t i = slotBytes u i) := by
  obtain ⟨s, hrun, hall, hj⟩ := h
  obtain ⟨hretired, hnone⟩ := hrun.exists_retired hall
  rw [joinStep_eq] at hj
  cases hj
  have hslot : ∀ i r L, slotBytes { s with ctl := idleCtl s.ctl, lanes := L, regs := r } i = slotBytes s i :=
    fun _ _ _ => rfl
  cases hv : s.batch.errv with
  | none =>
    refine .inl ⟨by simp [joinRegs_of_none hv, doneRegs], fun i hi => ?_⟩
    have hnext : i < s.batch.next := by
      have := hrun.exhausted hv hretired
      rw [hrun.count_eq] at this
      omega
    rw [hslot, hrun.finished hv i hi hnext (hnone i)]
  | some e =>
    obtain ⟨hcode, hidx⟩ := hrun.batchOk.latch e hv
    have hc : e.code ≠ 0x00#8 := by obtain hc | hc := hcode <;> simp [hc]
    simp only [joinRegs_of_some hv hc, hslot]
    exact .inr ⟨rfl, hrun.count_eq ▸ hidx, (hrun.failed e hv).2.1, hrun.settled⟩

/-- Settles O51: a batch that completes has joined, and what it then leaves is `JoinedFrom.slots`. -/
theorem batchDigestsInOrder : Obligations.BatchDigestsInOrder := by
  intro u s t hc hn hd hs hr hi hdone herr
  obtain ⟨_, h⟩ | ⟨h, _⟩ := (launch_joinedFrom hc hn hd hs hr hi hdone).slots
  · exact h
  · rw [herr] at h; cases h

/-- Settles O52, in the same way as O51. -/
theorem failedBatchSlots : Obligations.FailedBatchSlots := by
  intro u s t hc hn hd hs hr hi hdone herr
  obtain ⟨h, _⟩ | ⟨_, h⟩ := (launch_joinedFrom hc hn hd hs hr hi hdone).slots
  · rw [herr] at h; cases h
  · exact h

/-! ### A batch reaches its join (R270) -/

/-- Each started lane has one fetch step left, and no other lane a step. -/
theorem lanesWorkLeft_startLanes_le (nl : Nat) {L : List Lane} (hoff : ∀ l ∈ L, l.lstate = .off) :
    lanesWorkLeft (startLanes nl L) ≤ nl := by
  induction L generalizing nl with
  | nil => exact Nat.zero_le _
  | cons l L ih =>
    have hl : l.lstate = .off := hoff l List.mem_cons_self
    have ih := ih (nl - 1) fun l' h' => hoff l' (List.mem_cons_of_mem _ h')
    simp only [lanesWorkLeft, startLanes, List.mapIdx_cons, List.map_cons, List.sum_cons,
      ← Nat.lt_sub_iff_add_lt] at ih ⊢
    split
    · have : laneWorkLeft freshLane = 1 := rfl
      omega
    · have : laneWorkLeft l = 0 := by simp [laneWorkLeft, hl]
      omega

/-- Within `n` steps the machine is idle with `DONE = 1`, or has read memory that is not plain. -/
def CompletesWithin (s : State) (n : Nat) : Prop :=
  ∃ k, k ≤ n ∧ ((∃ t, runSteps k s = .next t ∧ t.ctl.phase = .idle ∧ t.regs.done = true) ∨
    runSteps k s = .refused .notPlainMemory)

theorem CompletesWithin.of_step {s t : State} {n : Nat} (hs : step s = .next t) (h : CompletesWithin t n) :
    CompletesWithin s (n + 1) := by
  obtain ⟨k, hk, hend⟩ := h
  exact ⟨k + 1, by omega, by rwa [runSteps_succ hs]⟩

theorem CompletesWithin.mono {s : State} {m n : Nat} (h : CompletesWithin s m) (hmn : m ≤ n) : CompletesWithin s n := by
  obtain ⟨k, hk, hend⟩ := h
  exact ⟨k, by omega, hend⟩

/-- With a silent host a step of a running batch is the join, or a lane's, which lowers the work left or reads memory
that is not plain. -/
theorem RunOk.step_cases_of_silent {u s : State} (h : RunOk u s) (hover : batchOverlap u = false) (hh : s.host = []) :
    (∃ t, step s = .next t ∧ t.ctl.phase = .idle ∧ t.regs.done = true) ∨
    (∃ t, step s = .next t ∧ RunOk u t ∧ t.host = [] ∧ engineWork t < engineWork s) ∨
    step s = .refused .notPlainMemory := by
  obtain ⟨a, ha⟩ := pickAgent_isSome h.enabled_ne_nil
  rw [step_of_pickAgent ha]
  obtain ⟨_, hhost⟩ | ⟨_, hp⟩ | ⟨rfl, hp, _⟩ | ⟨k, rfl, hp, _, he⟩ := mem_enabledAgents (pickAgent_mem ha)
  · exact absurd hh hhost
  · rw [h.phase] at hp; cases hp
  · have hj : agentStep (turn s) .control = joinStep (turn s) := by simp [agentStep, controlStep, hp]
    exact .inl ⟨_, hj.trans (joinStep_eq _), rfl, joinRegs_done _⟩
  · right
    have he : laneEnabled (turn s) k = true := by simpa using he
    obtain ⟨t, ht⟩ | ht := laneStep_outcome (turn s) k
    · obtain ⟨_, _, _, hhost, _⟩ := laneStep_frame h.of_turn.memWf he ht
      have hlower := laneStep_lowers (by simpa using hp) he ht
      have hwork : engineWork (turn s) = engineWork s := by simp [engineWork]
      exact .inl ⟨t, ht, h.of_turn.of_laneStep hover he ht, by rw [hhost, turn_host, hh], hwork ▸ hlower⟩
    · exact .inr ht

/-- By induction on the work left. -/
theorem RunOk.completesWithin {u s : State} (h : RunOk u s) (hover : batchOverlap u = false) (hh : s.host = []) :
    CompletesWithin s (engineWork s) := by
  have hpos : 1 ≤ engineWork s := by simp [engineWork, h.phase]
  obtain ⟨t, hs, hi, hd⟩ | ⟨t, hs, ht, hht, hlt⟩ | hs := h.step_cases_of_silent hover hh
  · exact ⟨1, hpos, .inl ⟨t, by rw [runSteps_one, hs], hi, hd⟩⟩
  · exact (CompletesWithin.of_step hs (ht.completesWithin hover hht)).mono hlt
  · exact ⟨1, hpos, .inr (by rw [runSteps_one, hs])⟩
termination_by engineWork s

/-- Settles O53: the launch leaves two steps of work a message, one a started lane, and the join. -/
theorem batchReachesJoin : Obligations.BatchReachesJoin := by
  intro u s hc hn hd hh hs
  obtain ⟨ho, hrun, rfl⟩ := launch_runOk hc hn hd hs
  refine (hrun.completesWithin ho hh).mono ?_
  have := lanesWorkLeft_startLanes_le (lanesUsed (nLanes u.params) (workersOp u) (lenOp u)) hc.lanesOff
  simp only [engineWork, startBatch_batch, startBatch_lanes, startBatch_ctl_phase]
  omega

end Sys2Proof.Machine
end

section
/-! PROOF. How a single-message command fails: with ERR_LENGTH before any request, or with ERR_BUS and the address of
the request that is not admitted; and that nothing else changes (60_exceptions.md R302 to R306). -/

namespace Sys2Proof.Machine

/-! ### The failed completion -/

/-- What a failed single-message command leaves, with any datapath (60_exceptions.md R305, R306). -/
def failedState (s : State) (p : Path) (code : BitVec 8) (faultAddr : DWord) : State :=
  { s with path := p, ctl := idleCtl s.ctl, regs := failRegs s.regs code faultAddr }

theorem raise_setPath (s : State) (p : Path) (c : ErrorCode) (a : DWord) :
    raise (setPath s p) c a = failedState s p (errorByte c) a := by
  cases c <;> rfl

theorem settle_raise_eq_failedState (s : State) (p : Path) (c : ErrorCode) (a : DWord) :
    settle s (.error { path := p, stop := .raise c a }) = .next (failedState s p (errorByte c) a) := by
  rw [settle_raise, raise_setPath]

/-- Settles O18: of the three ways of `exec_single_cases`, a success clears ERR and a refusal answers no next state. -/
theorem failedCommandsArePrecise : Obligations.FailedCommandsArePrecise := by
  intro i s t hi ht herr
  obtain ⟨p, v, h, r, he, _⟩ | ⟨c, a, p, he, hc⟩ | he := exec_single_cases i hi s <;> rw [he] at ht <;> cases ht
  · simp at herr
  · refine ⟨errorByte c, a, p, ?_, raise_setPath s p c a⟩
    obtain rfl | rfl := hc
    · exact .inl rfl
    · exact .inr rfl

/-! ### The length check (R302) -/

theorem exec_pad_lengthError {s : State} (h : lengthBound ≤ priorOp s + lenOp s) :
    exec .pad s = .next (failedState s s.path 0x02#8 0#64) := by
  simp only [exec, execPad, checkLength_error h, haltAt_error, settle_raise_eq_failedState, errorByte]

theorem hashInto_lengthError {s : State} (v0 : HashState) {prior : Nat} (h : lengthBound ≤ prior + lenOp s) :
    settle s (hashInto s v0 prior) = .next (failedState s s.path 0x02#8 0#64) := by
  simp only [hashInto, checkLength_error h, haltAt_error, settle_raise_eq_failedState, errorByte]

/-- Settles O15: the length check comes first, and the datapath keeps what it held. -/
theorem lengthErrorCompletes : Obligations.LengthErrorCompletes := fun s =>
  ⟨fun h => ⟨exec_pad_lengthError h, hashInto_lengthError s.ctl.stateIn h⟩,
    fun h => hashInto_lengthError iv (by rwa [Nat.zero_add])⟩

/-! ### Requests that are not admitted (R303) -/

/-- The address of an operand register fits `FAULT_ADDR`. -/
@[simp] theorem faultAddrOf_toNat (tick : Nat) (a : DWord) : faultAddrOf tick a.toNat = a := by
  rw [faultAddrOf_of_lt _ a.isLt, BitVec.ofNat_toNat, BitVec.setWidth_eq]

theorem toNat_faultAddrOf (tick : Nat) {a : Nat} (h : a < 2 ^ 64) : (faultAddrOf tick a).toNat = a := by
  rw [faultAddrOf_of_lt _ h, BitVec.toNat_ofNat, Nat.mod_eq_of_lt h]

theorem memRead_src_notAdmitted {s : State} {n : Nat} (h : admitted s.params .read (srcOp s) n = false) :
    memRead s (srcOp s) n = .error (.raise .bus s.ctl.src) := by
  rw [memRead_notAdmitted h, srcOp, faultAddrOf_toNat]

/-- The write at `dst`, after the datapath took new contents. -/
theorem memWrite_dst_notWritable {s : State} {v : List Byte} (h : writable s (dstOp s) v.length = false) (p : Path) :
    memWrite (setPath s p) (dstOp s) v = .error (.raise .bus s.ctl.dst) := by
  have hw : writable (setPath s p) (dstOp s) v.length = false := h
  rw [memWrite_notWritable hw, setPath_tick, dstOp, faultAddrOf_toNat]

section
variable {s : State}

/-! ### COMPRESS, EXPAND, FROM_DIGEST and TO_DIGEST -/

theorem exec_compress_readFails (h : admitted s.params .read (srcOp s) 64 = false) :
    exec .compress s = .next (failedState s s.path 0x03#8 s.ctl.src) := by
  simp only [exec, execCompress, memRead_src_notAdmitted h, haltAt_error, settle_raise_eq_failedState, errorByte]

theorem exec_expand_readFails (h : admitted s.params .read (srcOp s) 64 = false) :
    exec .expand s = .next (failedState s s.path 0x03#8 s.ctl.src) := by
  simp only [exec, execExpand, memRead_src_notAdmitted h, haltAt_error, settle_raise_eq_failedState, errorByte]

theorem exec_fromDigest_readFails (h : admitted s.params .read (srcOp s) 32 = false) :
    exec .fromDigest s = .next (failedState s s.path 0x03#8 s.ctl.src) := by
  simp only [exec, execFromDigest, memRead_src_notAdmitted h, haltAt_error, settle_raise_eq_failedState, errorByte]

theorem exec_expand_writeFails (hr : readable s (srcOp s) 64 = true) (hw : writable s (dstOp s) 528 = false) :
    ∃ p, exec .expand s = .next (failedState s p 0x03#8 s.ctl.dst) := by
  generalize hb : readBytes s.mem (srcOp s) 64 = b
  rw [← expansionDump_length b] at hw
  refine ⟨expandInPath s.path b, ?_⟩
  simp only [exec, execExpand, memRead_readable hr, hb, haltAt_ok, expandInPath_w, expandInPath_w1,
    memWrite_dst_notWritable hw, haltAt_error, settle_raise_eq_failedState, errorByte]

theorem exec_toDigest_writeFails (hw : writable s (dstOp s) 32 = false) :
    exec .toDigest s = .next (failedState s s.path 0x03#8 s.ctl.dst) := by
  have hw : memWrite s (dstOp s) (toDigestBytes s.ctl.stateIn) = .error (.raise .bus s.ctl.dst) :=
    memWrite_dst_notWritable hw s.path
  simp only [exec, execToDigest, hw, haltAt_error, settle_raise_eq_failedState, errorByte]

/-! ### PAD -/

theorem exec_pad_tailFails (hlen : priorOp s + lenOp s < lengthBound) {a : DWord}
    (h : readTail s (srcOp s) (lenOp s) = .error (.raise .bus a)) :
    exec .pad s = .next (failedState s s.path 0x03#8 a) := by
  simp only [exec, execPad, checkLength_ok hlen, haltAt_ok, h, haltAt_error, settle_raise_eq_failedState, errorByte]

theorem exec_pad_writeFails (hlen : priorOp s + lenOp s < lengthBound)
    (hr : 0 < rem (lenOp s) → readable s (srcOp s + 64 * (lenOp s / 64)) (rem (lenOp s)) = true)
    (hw : writable s (dstOp s) (64 * count (lenOp s)) = false) :
    ∃ p, exec .pad s = .next (failedState s p 0x03#8 s.ctl.dst) := by
  have ht := readTail_ok s (srcOp s) (lenOp s) hr
  generalize hm : readBytes s.mem (srcOp s + 64 * (lenOp s / 64)) (rem (lenOp s)) = tail at ht
  have htail : tail.length = rem (lenOp s) := by rw [← hm, readBytes_length]
  rw [← tail_padSuffix_length tail (lenOp s) (priorOp s) htail] at hw
  refine ⟨emptyTrailer (fillTrailer s.path (tail ++ padSuffix (lenOp s) (priorOp s))), ?_⟩
  simp only [exec, execPad, checkLength_ok hlen, ht, haltAt_ok, memWrite_dst_notWritable hw, haltAt_error,
    settle_raise_eq_failedState, errorByte, fillTrailer]

/-! ### HASH and HASH_CONTINUE -/

/-- With a length below the bound, hashing the message ends with ERR_BUS at an address, whatever the state and the
continuation offset it starts from. -/
def HashFails (s : State) (a : DWord) : Prop :=
  ∀ (v0 : HashState) (prior : Nat), prior + lenOp s < lengthBound →
    ∃ p, hashInto s v0 prior = .error { path := p, stop := .raise .bus a }

/-- HASH starts from the IV with offset 0, HASH_CONTINUE from the given state and offset (R226, R227). -/
theorem HashFails.exec_hash_hashContinue {a : DWord} (h : HashFails s a) :
    (lenOp s < lengthBound → ∃ p, exec .hash s = .next (failedState s p 0x03#8 a)) ∧
      (priorOp s + lenOp s < lengthBound → ∃ p, exec .hashContinue s = .next (failedState s p 0x03#8 a)) := by
  refine ⟨fun hlen => ?_, fun hlen => ?_⟩
  · obtain ⟨p, hp⟩ := h iv 0 (by rwa [Nat.zero_add])
    exact ⟨p, by simp only [exec, execHash, hp, settle_raise_eq_failedState, errorByte]⟩
  · obtain ⟨p, hp⟩ := h s.ctl.stateIn (priorOp s) hlen
    exact ⟨p, by simp only [exec, execHashContinue, hp, settle_raise_eq_failedState, errorByte]⟩

theorem hashFails_of_hashMessage {a : DWord}
    (h : ∀ v0 prior, ∃ p, hashMessage s s.path v0 (srcOp s) (lenOp s) prior =
      .error { path := p, stop := .raise .bus a }) : HashFails s a := by
  intro v0 prior hlen
  obtain ⟨p, hp⟩ := h v0 prior
  exact ⟨p, by simp only [hashInto, checkLength_ok hlen, haltAt_ok, hp]⟩

theorem hashFails_of_block {k : Nat} (hk : k < lenOp s / 64)
    (hread : ∀ j, j < k → readable s (srcOp s + 64 * j) 64 = true)
    (h : admitted s.params .read (srcOp s + 64 * k) 64 = false) :
    HashFails s (faultAddrOf s.tick (srcOp s + 64 * k)) :=
  hashFails_of_hashMessage fun v0 prior =>
    (hashMessage_blockStops s s.path v0 _ _ prior k _ hk hread (memRead_notAdmitted h)).imp fun _ hq => hq.1

theorem hashFails_of_tail (hr : 0 < rem (lenOp s))
    (hread : ∀ k, k < lenOp s / 64 → readable s (srcOp s + 64 * k) 64 = true)
    (h : admitted s.params .read (srcOp s + 64 * (lenOp s / 64)) (rem (lenOp s)) = false) :
    HashFails s (faultAddrOf s.tick (srcOp s + 64 * (lenOp s / 64))) :=
  hashFails_of_hashMessage fun v0 prior =>
    (hashMessage_tailStops s s.path v0 _ _ prior _ hread hr (memRead_notAdmitted h)).imp fun _ hq => hq.1

theorem hashFails_of_write (hmsg : messageReadable s (srcOp s) (lenOp s)) (hw : writable s (dstOp s) 32 = false) :
    HashFails s s.ctl.dst := by
  intro v0 prior hlen
  obtain ⟨p, hp, _⟩ := hashMessage_ok s s.path v0 (srcOp s) (lenOp s) prior hmsg
  have hw : writable s (dstOp s) (toDigestBytes p.v).length = false := hw
  exact ⟨p, by simp only [hashInto, checkLength_ok hlen, haltAt_ok, hp, memWrite_dst_notWritable hw, haltAt_error]⟩

end

/-- Settles O17: the hash sequence stops at such a block, before the tail and the digest write. -/
theorem hashStopsAtFirstBadBlock : Obligations.HashStopsAtFirstBadBlock := fun _ _ hk hread h =>
  ⟨_, toNat_faultAddrOf _, (hashFails_of_block hk hread h).exec_hash_hashContinue⟩

/-- Settles O16: each command's read at `src`, its write at `dst`, and the tail of a message. -/
theorem busErrorCompletes : Obligations.BusErrorCompletes := by
  refine fun s => ⟨fun h => ⟨exec_compress_readFails h, exec_expand_readFails h⟩, exec_fromDigest_readFails,
    exec_expand_writeFails, exec_pad_writeFails, fun hw => ⟨exec_toDigest_writeFails hw, ?_⟩, fun hr h => ?_⟩
  · exact ⟨fun hlen hmsg => (hashFails_of_write hmsg hw).exec_hash_hashContinue.1 hlen,
      fun hlen hmsg => (hashFails_of_write hmsg hw).exec_hash_hashContinue.2 hlen⟩
  · exact ⟨_, toNat_faultAddrOf _,
      fun hlen => exec_pad_tailFails hlen (readTail_stops s _ _ _ hr (memRead_notAdmitted h)),
      fun hread => (hashFails_of_tail hr hread h).exec_hash_hashContinue⟩

end Sys2Proof.Machine
end

section
/-! PROOF. The idle engine rests, and the interrupt output is a level (60_exceptions.md R307, R308, R316). -/

namespace Sys2Proof.Machine

/-! ### The idle engine -/

theorem enabledAgents_of_idle_silent {s : State} (h : s.ctl.phase = .idle) (hh : s.host = []) :
    enabledAgents s = [] := by
  simp [enabledAgents, hostAgents, engineAgents_of_idle h, hh]

/-- With the engine idle, a step is the host's turn (R316). -/
theorem step_of_idle {s : State} (h : s.ctl.phase = .idle) (hh : s.host ≠ []) : step s = hostStep (turn s) :=
  step_of_pickAgent (pickAgent_of_enabledAgents (enabledAgents_of_idle h hh))

/-- Settles O57: with nothing enabled a step changes nothing; else it is the host's turn, and of the ways of
`hostStep_cases` only a register write and a reset touch the engine, and only a store touches memory. -/
theorem idleEngineRests : Obligations.IdleEngineRests := by
  intro s hp
  refine ⟨fun hh => ?_, fun act rest t hh hwr hreset ht => ?_⟩
  · simp [step, (pickAgent_none_iff s).mpr (enabledAgents_of_idle_silent hp hh)]
  · rw [step_of_idle hp (by simp [hh])] at ht
    have hact : ∀ act' rest', (turn s).host = act' :: rest' → act = act' := by
      intro act' rest' h
      rw [turn_host, hh] at h
      exact (List.cons.inj h).1
    obtain ⟨h0, _⟩ | ⟨_, _, rfl⟩ | ⟨_, o, v, _, _, hw, _⟩ | ⟨_, a, v, hs, _, _, rfl⟩ | ⟨_, hr, _⟩ := hostStep_cases ht
    · simp [hh] at h0
    · simp
    · exact absurd (hact _ _ hw) (hwr o v)
    · exact ⟨by simp, by simp, by simp, by simp, by simp, fun hst => absurd (hact _ _ hs) (hst a v)⟩
    · exact absurd (hact _ _ hr) hreset

/-! ### The interrupt output -/

theorem irq_eq_true_iff (s : State) : irq s = true ↔ s.regs.irqEn = true ∧ s.regs.done = true := by
  simp [irq]

theorem irq_eq_false_of_not_done {s : State} (h : s.regs.done = false) : irq s = false := by simp [irq, h]

theorem irq_writeIrqEn (s : State) (v : Word) : irq (writeIrqEn s v) = (v.getLsbD 0 && s.regs.done) := rfl

theorem irq_resetEngine (s : State) : irq (resetEngine s) = false := rfl

theorem writeCtrl_of_not_srst {v : Word} (h : v.getLsbD 1 = false) (s : State) : writeCtrl s v = writeIrqEn s v := by
  simp only [writeCtrl, h, Bool.false_eq_true, if_false]

theorem writeCtrl_of_srst {v : Word} (h : v.getLsbD 1 = true) (s : State) :
    writeCtrl s v = resetEngine (writeIrqEn s v) := if_pos h

/-- A command that accept leaves running has cleared `DONE` (30_encoding.md R113). -/
theorem accept_busy_not_done {s t : State} {c : Word} (ht : accept s c = .next t) (hb : busy t = true) :
    t.regs.done = false := by
  obtain ⟨_, _, he⟩ | ⟨_, he⟩ | ⟨_, _, _, he⟩ := accept_cases s c
  · rw [he] at ht; cases ht; cases hb
  · rw [he] at ht
    obtain ⟨_, he⟩ | ⟨_, _, he⟩ | ⟨_, _, he⟩ := execHashBatch_cases (latchCommand s c) <;> rw [he] at ht <;> cases ht
    · cases hb
    · rfl
  · rw [he] at ht; cases ht; rfl

/-- Settles O30: the output is the conjunction of the two flags, and each write says what it leaves of them. -/
theorem interruptLevel : Obligations.InterruptLevel := by
  refine fun s => ⟨irq_eq_true_iff s, fun v t hv ht => ?_, fun v t hv hv1 ht => ?_, fun v t hv hv1 hd ht => ?_,
    fun v t hv1 ht => ?_, fun t ht => ?_, fun c t hb ht hbt => ?_⟩
  · cases ht
    exact irq_eq_false_of_not_done (by simp only [writeIrqStatus, hv, Bool.not_true, Bool.and_false])
  · cases ht
    rw [writeCtrl_of_not_srst hv1, irq_writeIrqEn, hv]
    exact ⟨rfl, rfl⟩
  · cases ht
    rw [writeCtrl_of_not_srst hv1, irq_writeIrqEn, hv, hd]
    rfl
  · cases ht
    rw [writeCtrl_of_srst hv1, irq_resetEngine]
  · cases ht
    exact irq_resetEngine s
  · rw [writeReg_cmd_of_idle (busy_eq_false_iff.mp hb)] at ht
    exact irq_eq_false_of_not_done (accept_busy_not_done ht hbt)

end Sys2Proof.Machine
end

section
/-! PROOF. What reads return while a command runs, what a reset leaves, and the duties of the host (20_memory.md R86, R97;
70_reset_and_hazards.md R340, R342, R345, R352, R353, R355). -/

namespace Sys2Proof.Machine

open Sys2Proof.Config

/-! ### Reads while busy (R345) -/

/-- Settles O29: the invariant's `BusyOk` holds each register at the value its read returns, and `STATUS` from its bits. -/
theorem readsWhileBusy : Obligations.ReadsWhileBusy := by
  intro s hinv hb
  have hp : s.ctl.phase ≠ .idle := by simpa [busy] using hb
  have hok := hinv.busyOk hp
  refine ⟨?_, ?_, (statusWord_errCode s).trans hok.errCode, fun r hr => ?_, fun k => ?_, hok.word.symm⟩
  · exact (statusWord_getLsbD s (by decide)).trans (by simp [hb])
  · exact (statusWord_getLsbD s (by decide)).trans (by simp [hok.err])
  · fin_cases hr <;> simp [readReg, hok.result, hok.faultAddr, hok.faultIndex, lo, hi]
  · rw [hok.stateIn, readReg]

/-! ### Reset (R340, R342) -/

theorem running_eq_none {s : State} (h : busy s = false) : running s = none := by simp [running, h]

/-- A reset of an idle engine abandons no command. -/
theorem abandonedMem_of_idle {s : State} (h : busy s = false) : abandonedMem s = s.mem := by
  simp [abandonedMem, running_eq_none h]

/-- A reset changes memory in the destination region of the abandoned command only. -/
theorem readByte_abandonedMem_out {s : State} {i : Instr} {x : Nat} (hd : decode s.ctl.word = .command i)
    (hx : ¬ ((destRegion s i).lo ≤ x ∧ x < (destRegion s i).lo + (destRegion s i).len)) :
    readByte (abandonedMem s) x = readByte s.mem x := by
  by_cases hp : s.ctl.phase = .idle
  · rw [abandonedMem_of_idle (busy_eq_false_iff.mpr hp)]
  · simp only [abandonedMem, running_eq_some hp hd]
    exact readByte_drawBytes_out _ _ _ _ (by omega)

/-- A reset does not see the `IRQ_EN` that the same write of `CTRL` carries. -/
theorem resetEngine_writeIrqEn (s : State) (v : Word) : resetEngine (writeIrqEn s v) = resetEngine s := rfl

/-- Settles O32: both ways are `resetEngine`, whose fields are the reset values, and whose memory is `abandonedMem`. -/
theorem softResetIsReset : Obligations.SoftResetIsReset := by
  intro s v hv
  have hctrl : writeCtrl s v = resetEngine s := (writeCtrl_of_srst hv s).trans (resetEngine_writeIrqEn s v)
  refine ⟨congrArg Host.Outcome.next hctrl, resetEngine s, rfl, rfl, rfl, fun l hl => ?_, List.length_replicate, rfl,
    abandonedMem_of_idle, fun i x hd hx => readByte_abandonedMem_out hd hx⟩
  rw [List.eq_of_mem_replicate hl]
  rfl

/-! ### The overlap duty of HASH_BATCH (R355) -/

theorem exec_hashBatch_refused_iff {s : State} (hn : lenOp s ≠ 0) :
    exec .hashBatch s = .refused .batchOverlapDuty ↔ batchOverlap s = true := by
  cases ho : batchOverlap s with
  | true => simp [exec, execHashBatch, hn, ho]
  | false => simp [exec_hashBatch_starts hn ho]

theorem descriptorMsgAddr_descriptorBytes (s : State) (i : Nat) :
    descriptorMsgAddr (descriptorBytes s i) = (le64 (readBytes s.mem (srcOp s + 16 * i) 8)).toNat := by
  rw [descriptorMsgAddr, descriptorBytes, readBytes_take _ _ _ _ (by decide), descriptorAddr]

theorem descriptorMsgLen_descriptorBytes (s : State) (i : Nat) :
    descriptorMsgLen (descriptorBytes s i) = (le64 (readBytes s.mem (srcOp s + 16 * i + 8) 8)).toNat := by
  rw [descriptorMsgLen, descriptorBytes, readBytes_drop _ _ _ _ (by decide), descriptorAddr]

/-- Settles O35: the refusal is `batchOverlap`, a source byte of HASH_BATCH in its digest array, and a message is where
the two halves of its descriptor say. -/
theorem batchOverlapDuty : Obligations.BatchOverlapDuty := by
  intro s hn
  rw [exec_hashBatch_refused_iff hn, batchOverlap_eq, touchesSource_iff]
  simp only [SourceByte, MessageByte, arrayRegion, descriptorAddr, descriptorMsgAddr_descriptorBytes,
    descriptorMsgLen_descriptorBytes]

/-! ### The host's accesses to host memory -/

section HostAccess

variable {s : State} {a : Nat} {v : List Byte}

theorem hostStore_of_window (hsp : a + v.length ≤ addressSpace)
    (hw : touchesWindow s { lo := a, len := v.length } = true) : hostStore s a v = .refused .registerAccessDuty := by
  simp [hostStore, Nat.not_lt.mpr hsp, hw]

theorem hostLoad_of_window {n : Nat} (hsp : a + n ≤ addressSpace) (hw : touchesWindow s { lo := a, len := n } = true) :
    hostLoad s a n = .refused .registerAccessDuty := by
  simp [hostLoad, Nat.not_lt.mpr hsp, hw]

theorem hostStore_of_not_window (hsp : a + v.length ≤ addressSpace)
    (hw : touchesWindow s { lo := a, len := v.length } = false) : hostStore s a v =
      if writeBreaksDuty s { lo := a, len := v.length } then .refused .bufferDuty
      else .next (setMem s (writeBytes s.mem a v)) := by
  simp [hostStore, Nat.not_lt.mpr hsp, hw]

theorem hostLoad_of_not_window {n : Nat} (hsp : a + n ≤ addressSpace)
    (hw : touchesWindow s { lo := a, len := n } = false) : hostLoad s a n =
      if readBreaksDuty s { lo := a, len := n } then .refused .bufferDuty
      else .next { s with lastRead := .bytes (readBytes s.mem a n) } := by
  simp [hostLoad, Nat.not_lt.mpr hsp, hw]

end HostAccess

/-! ### The register access duty (R352) -/

theorem hostRead_of_not_aligned {o : BitVec 12} (h : o.toNat % 4 ≠ 0) (s : State) :
    hostRead s o = .refused .registerAccessDuty := by
  simp [hostRead, aligned, h]

theorem hostWrite_of_not_aligned {o : BitVec 12} (h : o.toNat % 4 ≠ 0) (s : State) (v : Word) :
    hostWrite s o v = .refused .registerAccessDuty := by
  simp [hostWrite, aligned, h]

theorem hostRead_of_aligned {o : BitVec 12} (h : o.toNat % 4 = 0) (s : State) :
    hostRead s o = .next { s with lastRead := .word (readOffset s o) } := by
  simp [hostRead, aligned, h]

theorem hostWrite_of_aligned {o : BitVec 12} (h : o.toNat % 4 = 0) (s : State) (v : Word) :
    hostWrite s o v = writeOffset s o v := by
  simp [hostWrite, aligned, h]

/-- Settles O33: the accesses of the window by alignment, a load or store that touches the window by
`touchesWindow`. -/
theorem registerAccessDuty : Obligations.RegisterAccessDuty := by
  refine fun s o v => ⟨fun h => ⟨hostRead_of_not_aligned h s, hostWrite_of_not_aligned h s v⟩,
    fun h => ⟨hostRead_of_aligned h s, fun r hr => ?_, fun hr => ?_⟩, fun a b hsp _ hx => ?_⟩
  · exact (hostWrite_of_aligned h s v).trans (by rw [writeOffset, hr])
  · exact (hostWrite_of_aligned h s v).trans (by rw [writeOffset, hr])
  · have hw : touchesWindow s { lo := a.toNat, len := b.length } = true := (overlaps_iff _ _).mpr hx
    exact ⟨hostStore_of_window hsp hw, hostLoad_of_window hsp hw⟩

/-! ### The buffer duty (R353) -/

theorem writeBreaksDuty_iff {s : State} {i : Instr} (h : running s = some i) (r : Region) :
    writeBreaksDuty s r = true ↔ ∃ x, (r.lo ≤ x ∧ x < r.lo + r.len) ∧ (SourceByte s x i ∨ DestByte s x i) := by
  simp only [writeBreaksDuty, h, Bool.or_eq_true, touchesSource_iff, overlaps_destRegion_iff, and_or_left, exists_or]

theorem readBreaksDuty_iff {s : State} {i : Instr} (h : running s = some i) (r : Region) :
    readBreaksDuty s r = true ↔ ∃ x, (r.lo ≤ x ∧ x < r.lo + r.len) ∧ DestByte s x i := by
  simp only [readBreaksDuty, h, overlaps_destRegion_iff]

/-- Settles O34: outside the window a store or load is refused exactly when it breaks the duty, which is to have a byte of
the regions. -/
theorem bufferDuty : Obligations.BufferDuty := by
  intro s i a v hb hd hsp hwin
  have hrun : running s = some i := running_eq_some (by simpa [busy] using hb) hd
  have hw : touchesWindow s { lo := a.toNat, len := v.length } = false := (overlaps_false_iff _ _).mpr hwin
  simp only [hostDo, hostStore_of_not_window hsp hw, hostLoad_of_not_window hsp hw]
  refine ⟨fun ⟨x, h1, h2, hx⟩ => if_pos ?_, fun hx => if_neg ?_, fun ⟨x, h1, h2, hx⟩ => if_pos ?_, fun hx => if_neg ?_⟩
  · exact (writeBreaksDuty_iff hrun _).mpr ⟨x, ⟨h1, h2⟩, hx⟩
  · rw [writeBreaksDuty_iff hrun]
    rintro ⟨x, ⟨h1, h2⟩, h⟩
    exact not_or.mpr (hx x h1 h2) h
  · exact (readBreaksDuty_iff hrun _).mpr ⟨x, ⟨h1, h2⟩, hx⟩
  · rw [readBreaksDuty_iff hrun]
    rintro ⟨x, ⟨h1, h2⟩, h⟩
    exact hx x h1 h2 h

end Sys2Proof.Machine
end
